-- ==== Sys2Proof/Word.lean ====
section
/-! DEFINITION. The word types of the register-access block (spec/00_scope.md R7, R9, R10, R11, R60).
No arithmetic stands here: every computation of the model is in a file directly under Machine/ or in Decode.lean. -/

namespace Sys2Proof

/-- A command word: 32 bits, bit 31 most significant (R60). -/
abbrev Word := BitVec 32

/-- A register value, a mask, a field value or a register address (R7: DATA_WIDTH and REG_ADDR_WIDTH are 8). -/
abbrev Byte := BitVec 8

/-- An IEEE 754 binary64 number as its 64 bits (R11). -/
abbrev F64 := BitVec 64

/-- Three values in the order X, Y, Z (R164, R184 to R187). -/
structure Axes (α : Type) where
  x : α
  y : α
  z : α
  deriving DecidableEq, Repr

end Sys2Proof
end

