-- ==== Sys2Proof/Syntax.lean ====
section
/-! DEFINITION. The 14 commands of the RAB command set (spec/30_encoding.md R61, spec/opcode_table.json) as syntax.
Operands are the fields of formats R, F, M and S (R62 to R65); must-be-0 fields are no operands. -/

namespace Sys2Proof

/-- One entry of an MRD layout: a width of 1, 2 or 4 bytes, unsigned or signed (R66).
The reserved width code has no constructor: a word that holds it in a used entry is illegal (R67). -/
inductive Entry where
  | u8
  | s8
  | u16
  | s16
  | u32
  | s32
  deriving DecidableEq, Repr

/-- The commands, one constructor for each row of spec/opcode_table.json, in the table's order. -/
inductive Instr where
  /-- FSPEC hi:lo (R103). -/
  | fspec (h l : BitVec 4)
  /-- BRD a (R120). -/
  | brd (a : Byte)
  /-- BWR a, v (R121). -/
  | bwr (a v : Byte)
  /-- BWC a (R122). -/
  | bwc (a : Byte)
  /-- BMS a, mask, bits (R123). -/
  | bms (a mask bits : Byte)
  /-- FGET a, hi:lo (R140). -/
  | fget (a : Byte) (h l : BitVec 4)
  /-- FSET a, hi:lo, v (R141). -/
  | fset (a : Byte) (h l : BitVec 4) (v : Byte)
  /-- MRD a, n, [t0, ..., tk] (R160). -/
  | mrd (a : Byte) (n : BitVec 4) (layout : List Entry)
  /-- SACC s (R182). -/
  | sacc (s : BitVec 16)
  /-- SGYR s (R183). -/
  | sgyr (s : BitVec 16)
  /-- RACC, with the mps2 flag M (R184). -/
  | racc (mps2 : Bool)
  /-- RGYR (R185). -/
  | rgyr
  /-- MRAW (R186). -/
  | mraw
  /-- MXYZ (R187). -/
  | mxyz
  deriving DecidableEq, Repr

end Sys2Proof
end

