-- ==== Sys2Proof/Decode.lean ====
section
/-! DEFINITION. Decoding a command word (spec/30_encoding.md R60 to R68, spec/opcode_table.json), total on every
32-bit word, and encoding one (R69). -/

namespace Sys2Proof

/-- Why a word is illegal (R68). Every one of these is answered IllegalCommand with the word (R223). -/
inductive DecodeError where
  /-- OP is 0x0 or 0xF. -/
  | illegalOpcode
  /-- A must-be-0 field of R62 to R65 is not 0. -/
  | reservedNotZero
  /-- MRD with N = 0. -/
  | lengthZero
  /-- MRD: a used layout entry with width code 11. -/
  | reservedWidthCode
  /-- MRD: an unused layout entry that is not 000. -/
  | unusedEntryNotZero
  deriving DecidableEq, Repr

/-- The rows of the opcode table by their mnemonics. -/
inductive Opcode where
  | FSPEC
  | BRD
  | BWR
  | BWC
  | BMS
  | FGET
  | FSET
  | MRD
  | SACC
  | SGYR
  | RACC
  | RGYR
  | MRAW
  | MXYZ
  deriving DecidableEq, Repr

/-- A row of spec/opcode_table.json: a word is the row's when word & mask = value. -/
structure OpcodeRow where
  opcode : Opcode
  mask : Word
  value : Word
  deriving DecidableEq, Repr

/-- spec/opcode_table.json's mask and match columns. -/
def opcodeTable : List OpcodeRow :=
  [⟨.FSPEC, 0xFFFF00FF, 0x10000000⟩, ⟨.BRD, 0xFF00FFFF, 0x20000000⟩, ⟨.BWR, 0xFF00FF00, 0x30000000⟩,
   ⟨.BWC, 0xFF00FFFF, 0x40000000⟩, ⟨.BMS, 0xFF000000, 0x50000000⟩, ⟨.FGET, 0xFF0000FF, 0x60000000⟩,
   ⟨.FSET, 0xFF000000, 0x70000000⟩, ⟨.MRD, 0xF0000003, 0x80000000⟩, ⟨.SACC, 0xFFFF0000, 0x90000000⟩,
   ⟨.SGYR, 0xFFFF0000, 0xA0000000⟩, ⟨.RACC, 0xFEFFFFFF, 0xB0000000⟩, ⟨.RGYR, 0xFFFFFFFF, 0xC0000000⟩,
   ⟨.MRAW, 0xFFFFFFFF, 0xD0000000⟩, ⟨.MXYZ, 0xFFFFFFFF, 0xE0000000⟩]

def OpcodeRow.matches (w : Word) (r : OpcodeRow) : Bool := w &&& r.mask == r.value

/-- The row of a word (R67: every OP selects at most one row). -/
def opcodeOf (w : Word) : Option Opcode := (opcodeTable.find? (OpcodeRow.matches w)).map (·.opcode)

/-- OP = w[31:28] (R60). -/
def fieldOP (w : Word) : BitVec 4 := w.extractLsb' 28 4

/-- A = w[23:16] (R62 to R64). -/
def fieldA (w : Word) : Byte := w.extractLsb' 16 8

/-- B = w[15:8] (R62). -/
def fieldB (w : Word) : Byte := w.extractLsb' 8 8

/-- C = w[7:0] (R62, R63). -/
def fieldC (w : Word) : Byte := w.extractLsb' 0 8

/-- H = w[15:12] (R63). -/
def fieldH (w : Word) : BitVec 4 := w.extractLsb' 12 4

/-- L = w[11:8] (R63). -/
def fieldL (w : Word) : BitVec 4 := w.extractLsb' 8 4

/-- N = w[27:24] (R64). -/
def fieldN (w : Word) : BitVec 4 := w.extractLsb' 24 4

/-- K = w[15:14] (R64). -/
def fieldK (w : Word) : BitVec 2 := w.extractLsb' 14 2

/-- E0 = w[13:11], E1 = w[10:8], E2 = w[7:5], E3 = w[4:2] (R64). -/
def fieldE (w : Word) : List (BitVec 3) :=
  [w.extractLsb' 11 3, w.extractLsb' 8 3, w.extractLsb' 5 3, w.extractLsb' 2 3]

/-- M = w[24] (R65). -/
def fieldM (w : Word) : Bool := w.getLsbD 24

/-- S = w[15:0] (R65). -/
def fieldS (w : Word) : BitVec 16 := w.extractLsb' 0 16

/-- A 3-bit layout entry: E[2:1] the width code (00, 01, 10; 11 is reserved), E[0] signed (R66). -/
def entryOfCode (e : BitVec 3) : Option Entry :=
  if e = 0b000 then some .u8
  else if e = 0b001 then some .s8
  else if e = 0b010 then some .u16
  else if e = 0b011 then some .s16
  else if e = 0b100 then some .u32
  else if e = 0b101 then some .s32
  else none

/-- The layout that a list of entry codes stands for, in declaration order; none if one has width code 11. -/
def layoutOfCodes : List (BitVec 3) → Option (List Entry)
  | [] => some []
  | e :: es =>
    match entryOfCode e, layoutOfCodes es with
    | some x, some xs => some (x :: xs)
    | _, _ => none

/-- The MRD part of R67, in its order: N, the used entries E0..E_K, the unused ones. -/
def decodeMrd (w : Word) : Except DecodeError Instr :=
  if fieldN w = 0 then .error .lengthZero
  else
    match layoutOfCodes ((fieldE w).take ((fieldK w).toNat + 1)) with
    | none => .error .reservedWidthCode
    | some layout =>
      if ((fieldE w).drop ((fieldK w).toNat + 1)).all (· == 0) then .ok (.mrd (fieldA w) (fieldN w) layout)
      else .error .unusedEntryNotZero

/-- The fields of a word whose row is known (R62 to R66). -/
def decodeFields (w : Word) : Opcode → Except DecodeError Instr
  | .FSPEC => .ok (.fspec (fieldH w) (fieldL w))
  | .BRD => .ok (.brd (fieldA w))
  | .BWR => .ok (.bwr (fieldA w) (fieldC w))
  | .BWC => .ok (.bwc (fieldA w))
  | .BMS => .ok (.bms (fieldA w) (fieldB w) (fieldC w))
  | .FGET => .ok (.fget (fieldA w) (fieldH w) (fieldL w))
  | .FSET => .ok (.fset (fieldA w) (fieldH w) (fieldL w) (fieldC w))
  | .MRD => decodeMrd w
  | .SACC => .ok (.sacc (fieldS w))
  | .SGYR => .ok (.sgyr (fieldS w))
  | .RACC => .ok (.racc (fieldM w))
  | .RGYR => .ok .rgyr
  | .MRAW => .ok .mraw
  | .MXYZ => .ok .mxyz

/-- decode(w) of R67. -/
def decode (w : Word) : Except DecodeError Instr :=
  if fieldOP w = 0x0 ∨ fieldOP w = 0xF then .error .illegalOpcode
  else
    match opcodeOf w with
    | none => .error .reservedNotZero
    | some op => decodeFields w op

/-- A layout entry's 3-bit code (R66). -/
def Entry.code : Entry → BitVec 3
  | .u8 => 0b000
  | .s8 => 0b001
  | .u16 => 0b010
  | .s16 => 0b011
  | .u32 => 0b100
  | .s32 => 0b101

/-- The code in place j of a layout, 000 where the layout has no entry (R66). -/
def entryCode (layout : List Entry) (j : Nat) : BitVec 3 := (layout[j]?.map Entry.code).getD 0

/-- A field put in its place: its bit 0 at bit `at_` of the word. -/
def place {n : Nat} (v : BitVec n) (at_ : Nat) : Word := v.setWidth 32 <<< at_

/-- The word of a well-formed command (R69; the fields never overlap, so R69's sums are bitwise OR). -/
def encode : Instr → Word
  | .fspec h l => place 0x1#4 28 ||| place h 12 ||| place l 8
  | .brd a => place 0x2#4 28 ||| place a 16
  | .bwr a v => place 0x3#4 28 ||| place a 16 ||| place v 0
  | .bwc a => place 0x4#4 28 ||| place a 16
  | .bms a mask bits => place 0x5#4 28 ||| place a 16 ||| place mask 8 ||| place bits 0
  | .fget a h l => place 0x6#4 28 ||| place a 16 ||| place h 12 ||| place l 8
  | .fset a h l v => place 0x7#4 28 ||| place a 16 ||| place h 12 ||| place l 8 ||| place v 0
  | .mrd a n layout =>
    place 0x8#4 28 ||| place n 24 ||| place a 16 ||| place (BitVec.ofNat 2 (layout.length - 1)) 14
      ||| place (entryCode layout 0) 11 ||| place (entryCode layout 1) 8 ||| place (entryCode layout 2) 5
      ||| place (entryCode layout 3) 2
  | .sacc s => place 0x9#4 28 ||| place s 0
  | .sgyr s => place 0xA#4 28 ||| place s 0
  | .racc m => place 0xB#4 28 ||| place (BitVec.ofBool m) 24
  | .rgyr => place 0xC#4 28
  | .mraw => place 0xD#4 28
  | .mxyz => place 0xE#4 28

/-- The word handed over as the opcode table numbers it: its low nbits bits are those of w, the others 0. A command is
one whole 32-bit word that the host hands over (R60), so no byte order comes in. -/
def tableWord (nbits w : Nat) : Word := BitVec.ofNat 32 (w % 2 ^ nbits)

/-- The instruction the decoder reads from an instruction whose bits are w. -/
def decodeTableWord (nbits w : Nat) : Option Instr :=
  match decode (tableWord nbits w) with
  | .ok i => some i
  | .error _ => none

end Sys2Proof
end

