-- ==== Sys2Proof/Config.lean ====
section
/-! DEFINITION. The implementation parameters of spec/00_scope.md R8 and the model's free values.
A parameter the spec leaves OPEN has no value here: Config.boardWiring is opaque. The constants R7 settles are in
Machine/Constants.lean. -/

namespace Sys2Proof

/-- The bounds of a field within a byte, as the 4-bit numbers of R63 and R102. -/
structure FieldSpec where
  hi : BitVec 4
  lo : BitVec 4
  deriving DecidableEq, Repr

/-- R101: a field spec is valid if and only if 0 ≤ lo ≤ hi ≤ 7. -/
def FieldSpec.valid (f : FieldSpec) : Bool := f.lo.toNat ≤ f.hi.toNat && f.hi.toNat ≤ 7

/-- R100: width = hi - lo + 1 (used on valid specs). -/
def FieldSpec.bits (f : FieldSpec) : Nat := f.hi.toNat + 1 - f.lo.toNat

/-- A field of one device register: P_ACC_FS and P_GYR_FS have this shape (R8). -/
structure RegField where
  reg : Byte
  field : FieldSpec
  deriving DecidableEq, Repr

/-- The parameters R8 leaves OPEN, each with its constraint as a proof: a configuration that breaks one is refused
as a whole, so it has no value of this type (R8, R105, R253, 93_implementation_defined.md I14).
The field defaults only show Lean that the type has a value (they are 95_test_vectors.md's test configuration);
nothing takes them as the hardware's. -/
structure Wiring where
  /-- P_DEV_ADDR: opaque to the block; a number here only so that two requests can be compared. -/
  devAddr : Nat := 0
  /-- P_ACC_FS: where the accelerometer scale code lies. -/
  accFs : RegField := ⟨0x03, ⟨5, 4⟩⟩
  /-- P_GYR_FS: where the gyroscope scale code lies. -/
  gyrFs : RegField := ⟨0x04, ⟨6, 4⟩⟩
  /-- P_ACC_DATA: the first of the 6 accelerometer data bytes. -/
  accData : Byte := 0x35
  /-- P_GYR_DATA: the first of the 6 gyroscope data bytes. -/
  gyrData : Byte := 0x3B
  /-- P_MAG_DATA: the first of the 7 magnetometer data bytes. -/
  magData : Byte := 0x00
  /-- P_ACC_FS satisfies R101 and is at least 2 bits wide. -/
  accFsOk : (accFs.field.valid && 2 ≤ accFs.field.bits) = true := by decide
  /-- P_GYR_FS satisfies R101 and is at least 3 bits wide. -/
  gyrFsOk : (gyrFs.field.valid && 3 ≤ gyrFs.field.bits) = true := by decide
  accDataOk : accData.toNat + 5 ≤ 255 := by decide
  gyrDataOk : gyrData.toNat + 5 ≤ 255 := by decide
  magDataOk : magData.toNat + 6 ≤ 255 := by decide
  deriving DecidableEq, Repr, Inhabited

/-- P_MAG_LOW: where each axis's low 2 bits sit in the magnetometer's extra byte, with R8's default X = 7:6,
Y = 5:4, Z = 3:2 (D19) and R8's constraints. -/
structure MagLow where
  x : FieldSpec := ⟨7, 6⟩
  y : FieldSpec := ⟨5, 4⟩
  z : FieldSpec := ⟨3, 2⟩
  xOk : (x.valid && x.bits == 2) = true := by decide
  yOk : (y.valid && y.bits == 2) = true := by decide
  zOk : (z.valid && z.bits == 2) = true := by decide
  deriving DecidableEq, Repr, Inhabited

/-- A configuration of the block: every parameter of R8, with R8's defaults where it gives one. -/
structure Config where
  wiring : Wiring
  /-- P_CACHE_PERSIST: whether cache entries survive from one command to the next (R29, D6). -/
  cachePersist : Bool := true
  /-- P_MAG_LOW. -/
  magLow : MagLow := {}
  deriving DecidableEq, Repr

/-- The OPEN parameters of the board the block is on: a free value (DESIGN CHOICE, assumption 1; safe). Nothing can
be proved of it but R8's constraints. -/
opaque Config.boardWiring : Wiring

/-- The configuration State.reset carries: the OPEN parameters free, the others at R8's defaults. -/
def Config.board : Config := { wiring := Config.boardWiring }

/-- R124 (b), D8: whether the n-th failed BWR write leaves CACHE[A] as it was (true) or at the value it tried to
write (false): a draw, so a free value (assumption 4; safe). -/
opaque Config.failedWriteKeepsEntry : Nat → Bool

/-- The sign bit and the payload of the NaN an invalid binary64 operation gives, which R11 does not fix: a free
value (assumption 5; safe). No run from reset performs such an operation (R188). -/
opaque Config.invalidNaN : BitVec 52

end Sys2Proof
end

