-- ==== Sys2Proof/Machine/State.lean ====
section
/-! DEFINITION. The machine's state as plain data (spec/10_state.md R20 to R30), the environment's moves, the
observation, why a step can stop, and the state after reset. -/

namespace Sys2Proof.Machine

/-- What the block stores by register address, the array CACHE (R21): the valid entries as (address, value) cells.
An address that is not listed is an entry with valid = 0, which holds no value. -/
abbrev Memory := List Host.Cell

/-- The one canonical form: addresses strictly rising, all below 256. (No cell equals what an unlisted address reads
as, since an unlisted address reads as no value.) -/
abbrev Memory.wf (m : Memory) : Prop := m.Pairwise (fun c d => c.1 < d.1) ∧ ∀ c ∈ m, c.1 < 256

/-- The response statuses the block produces (R221). Codes 7 to 15 are never produced and left out (R222). -/
inductive Status where
  | ok
  | illegalCommand
  | invalidFieldSpec
  | addressRange
  | layoutMismatch
  | unsupportedScale
  | transportError
  deriving DecidableEq, Repr

/-- A field descriptor (R102): shift u3, mask u8, width u4. Never stored by the block (R26), but a payload of FSPEC. -/
structure Descriptor where
  shift : BitVec 3
  mask : Byte
  width : BitVec 4
  deriving DecidableEq, Repr

/-- What a response carries (R220, and for errors R221's info). -/
inductive Payload where
  /-- BWR, BWC, BMS, FSET, SACC, SGYR with status OK. -/
  | none
  /-- FSPEC. -/
  | descriptor (d : Descriptor)
  /-- BRD, FGET. -/
  | byte (v : Byte)
  /-- MRD. -/
  | ints (vs : List Int)
  /-- RACC, RGYR, MXYZ. -/
  | f64s (vs : Axes F64)
  /-- MRAW. -/
  | u18s (vs : Axes (BitVec 18))
  /-- IllegalCommand's info: the word. -/
  | word (w : Word)
  /-- InvalidFieldSpec's info: (H, L). -/
  | bounds (h l : BitVec 4)
  /-- AddressRange's info: (A, N). -/
  | range (a : Byte) (n : BitVec 4)
  /-- LayoutMismatch's info: (N, T). -/
  | lengths (n : BitVec 4) (t : Nat)
  /-- UnsupportedScale's info: S. -/
  | scale (s : BitVec 16)
  /-- TransportError's info: the transport's datum, unmodified. -/
  | datum (e : Nat)
  deriving DecidableEq, Repr

/-- A response: the pair (status, payload) of R220. -/
structure Response where
  status : Status
  payload : Payload
  deriving DecidableEq, Repr

/-- A request of the block to the transport (R41): kind, device, register and, for a WRITE, the value. -/
inductive Request where
  | read (dev : Nat) (reg : Byte)
  | write (dev : Nat) (reg value : Byte)
  deriving DecidableEq, Repr

/-- The transport's answer to the outstanding request (R41). With OK, rdata is the byte of a READ and means nothing
for a WRITE. The datum of ERR is opaque: a number only so that two answers can be compared (assumption 3). -/
inductive Answer where
  | ok (rdata : Byte)
  | err (datum : Nat)
  deriving DecidableEq, Repr

/-- A move of the environment: the host issues a word or asserts reset (R240, R250), the transport answers (R41).
The block is BUSY from a word's issue to its response (R28), and reset can come at every point between (R251): while a
request is in flight it is the move `reset`; while none is, the move that the block was last given says so itself. -/
inductive Input where
  /-- The host issues a word, and no reset comes before the block's first request or response. -/
  | command (w : Word)
  /-- The host issues a word, and asserts reset before the block makes its first request or, making none, responds. -/
  | commandReset (w : Word)
  /-- The host asserts reset while the block is IDLE, or BUSY with a request in flight. -/
  | reset
  /-- The transport answers, and no reset comes before the block's next request or response. -/
  | answer (a : Answer)
  /-- The transport answers, and the host asserts reset before the block makes its next request or responds. -/
  | answerReset (a : Answer)
  deriving DecidableEq, Repr

/-- One item of the observation of a run (R44). -/
inductive Event where
  /-- The host issued this word. -/
  | command (w : Word)
  /-- The block made this request and got this answer. -/
  | transaction (r : Request) (a : Answer)
  /-- The block responded. -/
  | response (r : Response)
  /-- Reset came while this command waited for the answer to this request: it gives no response (R251). -/
  | abandoned (i : Instr) (r : Request)
  /-- The host asserted reset. -/
  | reset
  deriving DecidableEq, Repr

/-- The accelerometer scales, in g (R180). -/
inductive AccScale where
  | g2
  | g4
  | g8
  | g16
  deriving DecidableEq, Repr

/-- The gyroscope scales, in degrees per second (R180). -/
inductive GyrScale where
  | dps16
  | dps32
  | dps64
  | dps128
  | dps256
  | dps512
  | dps1024
  deriving DecidableEq, Repr

/-- What a command does once its WRITE of a cached byte has been answered OK, before it responds: nothing (BWC, FSET),
or the divisor update of SACC or SGYR (R182, R183). -/
inductive AfterWrite where
  | nothing
  | accDiv (s : AccScale)
  | gyrDiv (s : GyrScale)
  deriving DecidableEq, Repr

/-- What a command does with a cache entry once fill (R124) has made it valid. -/
inductive EntryUse where
  /-- BWC: write it (R122). -/
  | commit
  /-- BMS: merge into it (R123). -/
  | stage (mask bits : Byte)
  /-- FGET: respond a field of it (R140). -/
  | get (d : Descriptor)
  /-- FSET, SACC, SGYR: merge into it and write it (R141, R182, R183). -/
  | put (mask bits : Byte) (after : AfterWrite)
  deriving DecidableEq, Repr

/-- What a command does with the bytes of a multi-byte run. -/
inductive RunUse where
  /-- MRD: decode the layout (R163). -/
  | ints (layout : List Entry)
  /-- RACC (R184). -/
  | accel (mps2 : Bool)
  /-- RGYR (R185). -/
  | gyro
  /-- MRAW (R186). -/
  | magRaw
  /-- MXYZ (R187). -/
  | magNorm
  deriving DecidableEq, Repr

/-- Where a BUSY command waits for the transport, with its local values (R28: the bytes read so far). Each constructor
is one MemRead or MemWrite of the rules; the request is that of Waiting.request. -/
inductive Waiting where
  /-- BRD's READ of a (R120). -/
  | byte (a : Byte)
  /-- The next READ of a run from start of which `got` has been read (R160, R184 to R187). -/
  | run (start : Byte) (got : List Byte) (use : RunUse)
  /-- The READ of fill(a) (R124). -/
  | fill (a : Byte) (use : EntryUse)
  /-- The WRITE of v, which CACHE[a] already holds (R122, R141, R182, R183). -/
  | commit (a v : Byte) (after : AfterWrite)
  /-- BWR's WRITE of v, which CACHE[a] does not hold yet (R121). -/
  | store (a v : Byte)
  deriving DecidableEq, Repr

/-- The sequencer (R28). -/
inductive Sequencer where
  | idle
  | busy (i : Instr) (w : Waiting)
  deriving DecidableEq, Repr

/-- The machine: R20's state (cache, accDiv, gyrDiv, seq), the configuration of R8, and the model's own fields (the
environment's moves not yet taken, the observation, and the number of draws made). -/
structure State where
  /-- CACHE (R21). -/
  cache : Memory
  /-- ACC_DIV (R24). -/
  accDiv : BitVec 16
  /-- GYR_DIV (R24). -/
  gyrDiv : BitVec 16
  /-- IDLE, or BUSY with one command (R28). -/
  seq : Sequencer
  /-- The parameters of R8; no step changes them. -/
  cfg : Config
  /-- The model's own: the environment's moves not yet taken, in the order in which they happen (assumption 2). -/
  inputs : List Input
  /-- The model's own: the observation of R44, newest first (assumption 6). -/
  trace : List Event
  /-- The model's own: how many draws of R124 (b) have been made (assumption 4). -/
  draws : Nat
  deriving DecidableEq, Repr

/-- Why the machine stops with a fault. -/
inductive Fault where
  /-- The transport answers while no request is outstanding (R41: an answer follows a request). Raised by step alone.
  Safe: the spec gives the transport no such move, and the model gives it no meaning (assumption 7). -/
  | strayAnswer
  deriving DecidableEq, Repr

/-- Why the model gives a move no meaning. -/
inductive Refusal where
  /-- The instruction has no meaning in the model yet. Raised by exec alone (no arm does). Safe. -/
  | notModelled (mnemonic : String)
  /-- A word is issued while the block is BUSY (R240, 93_implementation_defined.md I7: "refuse"). Raised by step and by
  every meaning. Safe: the spec gives the host no such move (assumption 7). -/
  | commandWhileBusy
  deriving DecidableEq, Repr

/-- The machine with configuration c, right after reset (R30): every cache entry invalid, both divisors 1, IDLE, and
nothing yet from the environment. -/
def State.resetWith (c : Config) : State where
  cache := []
  accDiv := 1
  gyrDiv := 1
  seq := .idle
  cfg := c
  inputs := []
  trace := []
  draws := 0

/-- The machine right after reset (R30), configured as its board is. -/
def State.reset : State := State.resetWith Config.board

end Sys2Proof.Machine
end

