-- ==== Sys2Proof/Machine/Flags.lean ====
section
/-! DEFINITION. The block has no flags and no condition codes (spec/10_state.md R25): a command's outcome is reported
only in its own response. Here are the status codes of that response (R220, R221). -/

namespace Sys2Proof.Machine

/-- The 4-bit code of a status (R221). -/
def statusCode : Status → BitVec 4
  | .ok => 0
  | .illegalCommand => 1
  | .invalidFieldSpec => 2
  | .addressRange => 3
  | .layoutMismatch => 4
  | .unsupportedScale => 5
  | .transportError => 6

/-- A response with status OK (R220). -/
def okResponse (p : Payload) : Response := ⟨.ok, p⟩

end Sys2Proof.Machine
end

