-- ==== Sys2Proof/Machine/Constants.lean ====
section
/-! DEFINITION. The constants spec/00_scope.md R7 settles, each named once (93_implementation_defined.md I10). -/

namespace Sys2Proof.Machine

/-- RESOLUTION, the 16-bit signed full range. -/
def resolution : Nat := 65536

/-- ACC_SCALES, in g; a scale's code is its index (R180). -/
def accScales : List Nat := [2, 4, 8, 16]

/-- GYR_SCALES, in degrees per second; a scale's code is its index (R180). -/
def gyrScales : List Nat := [16, 32, 64, 128, 256, 512, 1024]

/-- G_STD = b64(9.80665) (R189). -/
def gStd : F64 := 0x40239D013A92A305

/-- K_GYR = b64(0.01745329), the source's literal and not π/180 (R189, 90_conflicts.md C2). -/
def kGyr : F64 := 0x3F91DF467707C94D

/-- MAG_HALF = 2^17, the half-range of an 18-bit value. -/
def magHalf : Nat := 131072

/-- How many data bytes an accelerometer or gyroscope readout reads (R164). -/
def imuBytes : Nat := 6

/-- How many data bytes a magnetometer readout reads (R186). -/
def magBytes : Nat := 7

end Sys2Proof.Machine
end

