-- ==== Sys2Proof/Machine/Float64.lean ====
section
/-! DEFINITION. IEEE 754 binary64 (spec/00_scope.md R11): the number a bit pattern stands for, rounding of an exact
rational to nearest, ties to even, and multiplication and division, each computed exactly and rounded once. -/

namespace Sys2Proof.Machine

/-- The sign bit. -/
def f64Neg (x : F64) : Bool := x.getLsbD 63

/-- The 11-bit exponent field. -/
def f64Exp (x : F64) : Nat := (x.extractLsb' 52 11).toNat

/-- The 52-bit fraction field. -/
def f64Frac (x : F64) : Nat := (x.extractLsb' 0 52).toNat

def f64IsNaN (x : F64) : Bool := f64Exp x == 2047 && f64Frac x != 0

def f64IsInf (x : F64) : Bool := f64Exp x == 2047 && f64Frac x == 0

def f64IsFinite (x : F64) : Bool := f64Exp x != 2047

def f64IsZero (x : F64) : Bool := f64Exp x == 0 && f64Frac x == 0

/-- The significand of a finite number, with the leading 1 of a normal one. -/
def f64Mant (x : F64) : Nat := if f64Exp x = 0 then f64Frac x else 2 ^ 52 + f64Frac x

/-- A finite number's magnitude is f64Mant x * 2 ^ (f64Scale x - 1075). -/
def f64Scale (x : F64) : Nat := max (f64Exp x) 1

/-- The magnitude of a finite number as a fraction f64Num x / f64Den x. -/
def f64Num (x : F64) : Nat := f64Mant x * 2 ^ (f64Scale x - 1075)

/-- See f64Num. -/
def f64Den (x : F64) : Nat := 2 ^ (1075 - f64Scale x)

/-- The rational number a finite binary64 stands for. -/
def f64Value (x : F64) : ℚ := (if f64Neg x then -1 else 1) * (f64Num x / f64Den x)

/-- The sign bit alone: zero of that sign. -/
def f64Zero (neg : Bool) : F64 := BitVec.ofNat 64 (if neg then 2 ^ 63 else 0)

/-- Infinity of the given sign. -/
def f64Inf (neg : Bool) : F64 := BitVec.ofNat 64 ((if neg then 2 ^ 63 else 0) + 2047 * 2 ^ 52)

/-- The NaN an invalid operation gives: quiet, its sign and payload free (assumption 5). -/
def f64Invalid : F64 := Config.invalidNaN.extractLsb' 51 1 ++ 0x7FF#11 ++ 1#1 ++ Config.invalidNaN.extractLsb' 0 51

/-- floor (log2 (num / den)) for num, den > 0. -/
def ratLog2 (num den : Nat) : Int :=
  let k : Int := (num.log2 : Int) - (den.log2 : Int)
  if den * 2 ^ k.toNat ≤ num * 2 ^ (-k).toNat then k else k - 1

/-- n / d rounded to the nearest integer, ties to even (d > 0). -/
def divNearestEven (n d : Nat) : Nat :=
  if 2 * (n % d) > d ∨ (2 * (n % d) = d ∧ n / d % 2 = 1) then n / d + 1 else n / d

/-- rne64 (R11): the binary64 nearest to num / den with the given sign (den > 0), ties to even. A magnitude that rounds
past the largest finite number gives infinity, one below 2^-1022 a subnormal, as IEEE 754 says. -/
def rne64 (neg : Bool) (num den : Nat) : F64 :=
  if num = 0 then f64Zero neg
  else
    let e : Int := max (ratLog2 num den) (-1022)
    let sig := divNearestEven (num * 2 ^ (52 - e).toNat) (den * 2 ^ (e - 52).toNat)
    let mag := (e + 1022).toNat * 2 ^ 52 + sig
    BitVec.ofNat 64 ((if neg then 2 ^ 63 else 0) + min mag (2047 * 2 ^ 52))

/-- An integer as a binary64 operand (R11); exact below 2^53. -/
def f64OfInt (z : Int) : F64 := rne64 (z < 0) z.natAbs 1

/-- Binary64 multiplication, the operator *64 of R11. -/
def f64Mul (a b : F64) : F64 :=
  let neg := f64Neg a != f64Neg b
  if f64IsNaN a || f64IsNaN b then f64Invalid
  else if f64IsInf a || f64IsInf b then
    if f64IsZero a || f64IsZero b then f64Invalid else f64Inf neg
  else rne64 neg (f64Num a * f64Num b) (f64Den a * f64Den b)

/-- Binary64 division, the operator /64 of R11. -/
def f64Div (a b : F64) : F64 :=
  let neg := f64Neg a != f64Neg b
  if f64IsNaN a || f64IsNaN b then f64Invalid
  else if f64IsInf a then
    if f64IsInf b then f64Invalid else f64Inf neg
  else if f64IsInf b then f64Zero neg
  else if f64IsZero b then
    if f64IsZero a then f64Invalid else f64Inf neg
  else rne64 neg (f64Num a * f64Den b) (f64Den a * f64Num b)

end Sys2Proof.Machine
end

