-- ==== Sys2Proof/Machine/Operands.lean ====
section
/-! DEFINITION. What the commands compute from their operands and from the bytes they read: field descriptors, the
masked merge, layouts and their decoding, scale codes and divisors, and the unit conversions. -/

namespace Sys2Proof.Machine

/-- R102's mask: ((1 << width) - 1) << lo with width = hi - lo + 1, cut to a byte. -/
def maskOf (h l : BitVec 4) : Byte :=
  BitVec.ofNat 8 (((1 <<< (h.toNat + 1 - l.toNat)) - 1) <<< l.toNat)

/-- The descriptor of valid bounds (R100, R102). -/
def descriptorOf (h l : BitVec 4) : Descriptor where
  shift := BitVec.ofNat 3 l.toNat
  mask := maskOf h l
  width := BitVec.ofNat 4 (h.toNat + 1 - l.toNat)

/-- spec(hi, lo) of R102: none where it raises InvalidFieldSpec. -/
def spec (h l : BitVec 4) : Option Descriptor :=
  if h.toNat > 7 ∨ l.toNat > 7 ∨ l.toNat > h.toNat then none else some (descriptorOf h l)

/-- The masked set of R123: (bits & mask) | (old & ~mask). -/
def merge (old mask bits : Byte) : Byte := (bits &&& mask) ||| (old &&& ~~~mask)

/-- The field get of R140: (value & mask) >> shift. -/
def fieldOf (v : Byte) (d : Descriptor) : Byte := (v &&& d.mask) >>> d.shift.toNat

/-- A field value moved to its place: (C << shift) & 0xFF (R141). -/
def placeBits (c : Byte) (d : Descriptor) : Byte := BitVec.ofNat 8 (c.toNat <<< d.shift.toNat)

/-- width(E): the bytes of a layout entry (R66). -/
def entryBytes : Entry → Nat
  | .u8 | .s8 => 1
  | .u16 | .s16 => 2
  | .u32 | .s32 => 4

/-- E[0]: whether a layout entry is signed (R66). -/
def entrySigned : Entry → Bool
  | .u8 | .u16 | .u32 => false
  | .s8 | .s16 | .s32 => true

/-- T: a layout's total width in bytes (R160). -/
def layoutBytes (layout : List Entry) : Nat := (layout.map entryBytes).sum

/-- The sum over b of bytes[b] << (8 * b): the byte at the lowest address is the least significant (R45, R163). -/
def littleEndian : List Byte → Nat
  | [] => 0
  | b :: bs => b.toNat + 256 * littleEndian bs

/-- sext_N of R10: the N-bit pattern v read as two's complement. -/
def signExtend (n v : Nat) : Int := if v.testBit (n - 1) then (v : Int) - 2 ^ n else v

/-- The value of a layout entry from its bytes (R163). -/
def entryValue (e : Entry) (bytes : List Byte) : Int :=
  if entrySigned e then signExtend (8 * entryBytes e) (littleEndian bytes) else littleEndian bytes

/-- decode(buf, E0..E_K) of R163: the entries in declaration order, over consecutive bytes. -/
def decodeLayout : List Entry → List Byte → List Int
  | [], _ => []
  | e :: es, buf => entryValue e (buf.take (entryBytes e)) :: decodeLayout es (buf.drop (entryBytes e))

/-- Byte i of a buffer. Every use has i below the buffer's length (RunUse.count). -/
def byteAt (buf : List Byte) (i : Nat) : Byte := buf.getD i 0

/-- Value j of LAYOUT_3S16: sext_16(buf[2j] + (buf[2j+1] << 8)) (R164). -/
def s16At (buf : List Byte) (j : Nat) : Int :=
  signExtend 16 ((byteAt buf (2 * j)).toNat + ((byteAt buf (2 * j + 1)).toNat <<< 8))

/-- The three signed 16-bit little-endian values of an IMU readout (R164). -/
def imuRaw (buf : List Byte) : Axes Int := ⟨s16At buf 0, s16At buf 1, s16At buf 2⟩

/-- The accelerometer scale of a value, if it is one of ACC_SCALES (R180). -/
def accScaleOf (s : BitVec 16) : Option AccScale :=
  match accScales.idxOf? s.toNat with
  | some 0 => some .g2
  | some 1 => some .g4
  | some 2 => some .g8
  | some 3 => some .g16
  | _ => none

/-- The code of an accelerometer scale: its index in ACC_SCALES (R180). -/
def accCode : AccScale → Byte
  | .g2 => 0
  | .g4 => 1
  | .g8 => 2
  | .g16 => 3

/-- The gyroscope scale of a value, if it is one of GYR_SCALES (R180). -/
def gyrScaleOf (s : BitVec 16) : Option GyrScale :=
  match gyrScales.idxOf? s.toNat with
  | some 0 => some .dps16
  | some 1 => some .dps32
  | some 2 => some .dps64
  | some 3 => some .dps128
  | some 4 => some .dps256
  | some 5 => some .dps512
  | some 6 => some .dps1024
  | _ => none

/-- The code of a gyroscope scale: its index in GYR_SCALES (R180). -/
def gyrCode : GyrScale → Byte
  | .dps16 => 0
  | .dps32 => 1
  | .dps64 => 2
  | .dps128 => 3
  | .dps256 => 4
  | .dps512 => 5
  | .dps1024 => 6

/-- RESOLUTION / s / 2 (R181). -/
def divisorOf (s : Nat) : BitVec 16 := BitVec.ofNat 16 (resolution / s / 2)

/-- The divisor of an accelerometer scale (R181). -/
def accDivisor (s : AccScale) : BitVec 16 := divisorOf (accScales.getD (accCode s).toNat 0)

/-- The divisor of a gyroscope scale (R181). -/
def gyrDivisor (s : GyrScale) : BitVec 16 := divisorOf (gyrScales.getD (gyrCode s).toNat 0)

/-- A raw count over a divisor: q = r /64 div (R184, R185). -/
def quotient (r : Int) (div : BitVec 16) : F64 := f64Div (f64OfInt r) (f64OfInt div.toNat)

/-- An accelerometer axis: q, times b64(9.80665) if mps2 (R184). -/
def accelAxis (div : BitVec 16) (mps2 : Bool) (r : Int) : F64 :=
  if mps2 then f64Mul (quotient r div) gStd else quotient r div

/-- A gyroscope axis: q times b64(0.01745329), always (R185). -/
def gyroAxis (div : BitVec 16) (r : Int) : F64 := f64Mul (quotient r div) kGyr

/-- A raw magnetometer axis: (high << 2) | low, its high word big-endian at 2j and its low 2 bits in byte 6 (R186). -/
def magAxis (buf : List Byte) (j : Nat) (low : FieldSpec) : BitVec 18 :=
  let high : BitVec 16 := byteAt buf (2 * j) ++ byteAt buf (2 * j + 1)
  (high.setWidth 18 <<< 2) ||| (fieldOf (byteAt buf 6) (descriptorOf low.hi low.lo)).setWidth 18

/-- MRAW's three values (R186). -/
def magRawOf (low : MagLow) (buf : List Byte) : Axes (BitVec 18) :=
  ⟨magAxis buf 0 low.x, magAxis buf 1 low.y, magAxis buf 2 low.z⟩

/-- A normalised magnetometer axis: (r - 131072) /64 131072 (R187). -/
def magNormAxis (r : BitVec 18) : F64 := f64Div (f64OfInt ((r.toNat : Int) - magHalf)) (f64OfInt magHalf)

/-- The same function on each axis. -/
def onAxes {α β : Type} (f : α → β) (v : Axes α) : Axes β := ⟨f v.x, f v.y, f v.z⟩

/-- How many bytes a run reads (R160, R184 to R187). MRD runs only when its length equals its layout's width (R162). -/
def RunUse.count : RunUse → Nat
  | .ints layout => layoutBytes layout
  | .accel _ => imuBytes
  | .gyro => imuBytes
  | .magRaw => magBytes
  | .magNorm => magBytes

end Sys2Proof.Machine
end

