-- ==== Sys2Proof/Machine/Ops.lean ====
section
/-! DEFINITION. The named operations the commands are made of: the cache (R21), responses and errors (R220, R224), the
fill step (R124), the transport requests and what follows their answers (R41 to R43), and the run of a command. -/

namespace Sys2Proof.Machine

/-- The value stored for an address, none where the entry is invalid (R21). -/
def Memory.read : Memory → Nat → Option Byte
  | [], _ => none
  | c :: m, a => if c.1 = a then some c.2 else Memory.read m a

/-- Storing a value at an address, in the canonical form. -/
def Memory.write : Memory → Nat → Byte → Memory
  | [], a, v => [(a, v)]
  | c :: m, a, v =>
    if a < c.1 then (a, v) :: c :: m
    else if a = c.1 then (a, v) :: m
    else c :: Memory.write m a v

/-- CACHE[a]: some value where valid = 1, none where valid = 0 (R21). -/
def State.entry (s : State) (a : Byte) : Option Byte := s.cache.read a.toNat

/-- CACHE[a] <- (1, v). -/
def State.setEntry (s : State) (a v : Byte) : State := { s with cache := s.cache.write a.toNat v }

/-- Record an item of the observation (R44). -/
def State.log (s : State) (e : Event) : State := { s with trace := e :: s.trace }

/-- End the command with this response; the block is IDLE again (R12, R220). -/
def State.answerHost (s : State) (r : Response) : State := { s with seq := .idle }.log (.response r)

/-- respond(payload): end the command with status OK (R12). -/
def State.respond (s : State) (p : Payload) : State := s.answerHost (okResponse p)

/-- raise E(info), the block's one way of taking an error (R224): the command ends here with the error's response, the
state its earlier lines made stays, nothing later happens. There is no trap entry and no return (R228, R229). -/
def State.raise (s : State) (e : Status) (info : Payload) : State := s.answerHost ⟨e, info⟩

/-- Wait, BUSY with command i, for the answer to a request (R28, R41). -/
def State.await (s : State) (i : Instr) (w : Waiting) : State := { s with seq := .busy i w }

/-- The request outstanding while a command waits (R41). A run reads ascending addresses, one request each (R48). -/
def Waiting.request (dev : Nat) : Waiting → Request
  | .byte a => .read dev a
  | .run start got _ => .read dev (start + BitVec.ofNat 8 got.length)
  | .fill a _ => .read dev a
  | .commit a v _ => .write dev a v
  | .store a v => .write dev a v

/-- What a command does with a valid entry of value v (R122, R123, R140, R141, R182, R183). -/
def useValue (i : Instr) (a v : Byte) (use : EntryUse) (s : State) : State :=
  match use with
  | .commit => s.await i (.commit a v .nothing)
  | .stage mask bits => (s.setEntry a (merge v mask bits)).respond .none
  | .get d => s.respond (.byte (fieldOf v d))
  | .put mask bits after => (s.setEntry a (merge v mask bits)).await i (.commit a (merge v mask bits) after)

/-- fill(a) (R124), then the use of the entry: a READ only if CACHE[a].valid = 0. -/
def fillThen (i : Instr) (a : Byte) (use : EntryUse) (s : State) : State :=
  match s.entry a with
  | some v => useValue i a v use s
  | none => s.await i (.fill a use)

/-- What a run of bytes is turned into (R163, R184 to R187). -/
def runPayload (s : State) (use : RunUse) (buf : List Byte) : Payload :=
  match use with
  | .ints layout => .ints (decodeLayout layout buf)
  | .accel mps2 => .f64s (onAxes (accelAxis s.accDiv mps2) (imuRaw buf))
  | .gyro => .f64s (onAxes (gyroAxis s.gyrDiv) (imuRaw buf))
  | .magRaw => .u18s (magRawOf s.cfg.magLow buf)
  | .magNorm => .f64s (onAxes magNormAxis (magRawOf s.cfg.magLow buf))

/-- A run from start of which `got` has been read: the next READ, or the result once all its bytes are there. -/
def continueRun (i : Instr) (start : Byte) (got : List Byte) (use : RunUse) (s : State) : State :=
  if got.length < use.count then s.await i (.run start got use) else s.respond (runPayload s use got)

/-- What SACC and SGYR do once the scale code has been written (R182, R183). -/
def afterWrite (after : AfterWrite) (s : State) : State :=
  match after with
  | .nothing => s
  | .accDiv sc => { s with accDiv := accDivisor sc }
  | .gyrDiv sc => { s with gyrDiv := gyrDivisor sc }

/-- What a command does when its outstanding request is answered OK (R42, R43). -/
def onOk (i : Instr) (w : Waiting) (d : Byte) (s : State) : State :=
  match w with
  | .byte a => (s.setEntry a d).respond (.byte d)
  | .run start got use => continueRun i start (got ++ [d]) use s
  | .fill a use => useValue i a d use (s.setEntry a d)
  | .commit _ _ after => (afterWrite after s).respond .none
  | .store a v => (s.setEntry a v).respond .none

/-- What a failed request leaves of the cache (R124): everything as it was, but for BWR's entry, which is drawn from
its old contents and (1, the value tried). -/
def cacheAfterFailure (w : Waiting) (s : State) : State :=
  match w with
  | .store a v =>
    let s' := { s with draws := s.draws + 1 }
    if Config.failedWriteKeepsEntry s.draws then s' else s'.setEntry a v
  | .byte _ | .run _ _ _ | .fill _ _ | .commit _ _ _ => s

/-- The transport's answer to the outstanding request: recorded (R44), then acted on; ERR raises TransportError with
its datum unmodified (R42, R43). There is no retry (R49). -/
def deliver (i : Instr) (w : Waiting) (a : Answer) (s : State) : State :=
  let s' := s.log (.transaction (w.request s.cfg.wiring.devAddr) a)
  match a with
  | .ok d => onOk i w d s'
  | .err e => (cacheAfterFailure w s').raise .transportError (.datum e)

/-- Run while the block is BUSY and the next move is the transport's answer with no reset upon it; what is left of the
moves stays. Each answer is taken as that to the request now outstanding, a late one to an abandoned request too (DESIGN
CHOICE, assumption 19). -/
def drive : List Input → State → State
  | .answer a :: rest, s =>
    match s.seq with
    | .busy i w => drive rest (deliver i w a s)
    | .idle => { s with inputs := .answer a :: rest }
  | rest, s => { s with inputs := rest }

/-- The start of a command that decodes: with P_CACHE_PERSIST = false every entry becomes invalid (R29). -/
def State.beginCommand (s : State) : State :=
  if s.cfg.cachePersist then s else { s with cache := [] }

/-- The run of one command from IDLE: its start, its body up to its first request or its response, and the answers that
are there. A word while BUSY has no meaning (R240, I7). -/
def runCommand (body : State → State) (s : State) : Host.Outcome State Fault Refusal :=
  if s.seq = .idle then .next (drive s.inputs (body s.beginCommand)) else .refused .commandWhileBusy

/-- The reset state (R30, R250), after these last events (newest first): every piece of the spec's state at its reset
value, with no request and no response. -/
def State.toReset (s : State) (es : List Event) : State :=
  { s with cache := [], accDiv := 1, gyrDiv := 1, seq := .idle, trace := .reset :: es ++ s.trace }

/-- The reset input while IDLE, or while a BUSY command has a request in flight: that command ends with no response, its
request is never answered (R250, R251). -/
def State.assertReset (s : State) : State :=
  match s.seq with
  | .busy i w => s.toReset [.abandoned i (w.request s.cfg.wiring.devAddr)]
  | .idle => s.toReset []

/-- Reset before a word just issued has made its first request or got its response: it never gets one (R28, R251). What
the command did to the state so far is gone, so its rule does not come in (assumption 18). -/
def resetAfterCommand (w : Word) (s : State) : Host.Outcome State Fault Refusal :=
  if s.seq = .idle then .next (s.toReset [.command w]) else .refused .commandWhileBusy

/-- Reset after an answer, before the BUSY command's next request or its response: the transaction is complete, nothing
is in flight, and no response follows (R251). -/
def resetAfterAnswer (a : Answer) (s : State) : Host.Outcome State Fault Refusal :=
  match s.seq with
  | .busy _ w => .next (s.toReset [.transaction (w.request s.cfg.wiring.devAddr) a])
  | .idle => .fault .strayAnswer

end Sys2Proof.Machine
end

