-- ==== Sys2Proof/Machine/ByteRegister.lean ====
section
/-! DEFINITION. The byte-register cache commands BRD, BWR, BWC and BMS (spec/41_byte_register.md). -/

namespace Sys2Proof.Machine

/-- BRD (R120): always one READ, whatever the entry holds. -/
def brdBody (a : Byte) (s : State) : State :=
  s.await (.brd a) (.byte a)

/-- BRD: its body, run as one command. -/
def execBrd (a : Byte) (s : State) : Host.Outcome State Fault Refusal :=
  runCommand (brdBody a) s

/-- BWR (R121): one WRITE, never a READ. -/
def bwrBody (a v : Byte) (s : State) : State :=
  s.await (.bwr a v) (.store a v)

/-- BWR: its body, run as one command. -/
def execBwr (a v : Byte) (s : State) : Host.Outcome State Fault Refusal :=
  runCommand (bwrBody a v) s

/-- BWC (R122): fill, then the WRITE of the cached value. -/
def bwcBody (a : Byte) (s : State) : State :=
  fillThen (.bwc a) a .commit s

/-- BWC: its body, run as one command. -/
def execBwc (a : Byte) (s : State) : Host.Outcome State Fault Refusal :=
  runCommand (bwcBody a) s

/-- BMS (R123): fill, then the masked set in the cache; no WRITE. -/
def bmsBody (a mask bits : Byte) (s : State) : State :=
  fillThen (.bms a mask bits) a (.stage mask bits) s

/-- BMS: its body, run as one command. -/
def execBms (a mask bits : Byte) (s : State) : Host.Outcome State Fault Refusal :=
  runCommand (bmsBody a mask bits) s

end Sys2Proof.Machine
end

