-- ==== Sys2Proof/Machine/Descriptor.lean ====
section
/-! DEFINITION. FSPEC (spec/40_field_descriptor.md). -/

namespace Sys2Proof.Machine

/-- FSPEC (R103): no request, no state. -/
def fspecBody (h l : BitVec 4) (s : State) : State :=
  match spec h l with
  | some d => s.respond (.descriptor d)
  | none => s.raise .invalidFieldSpec (.bounds h l)

/-- FSPEC: its body, run as one command. -/
def execFspec (h l : BitVec 4) (s : State) : Host.Outcome State Fault Refusal :=
  runCommand (fspecBody h l) s

end Sys2Proof.Machine
end

