-- ==== Sys2Proof/Machine/FieldAccess.lean ====
section
/-! DEFINITION. The field commands FGET and FSET (spec/42_field_access.md). -/

namespace Sys2Proof.Machine

/-- FGET (R140): the bounds are checked before any request. -/
def fgetBody (a : Byte) (h l : BitVec 4) (s : State) : State :=
  match spec h l with
  | some d => fillThen (.fget a h l) a (.get d) s
  | none => s.raise .invalidFieldSpec (.bounds h l)

/-- FGET: its body, run as one command. -/
def execFget (a : Byte) (h l : BitVec 4) (s : State) : Host.Outcome State Fault Refusal :=
  runCommand (fgetBody a h l) s

/-- FSET (R141): the bounds, then the masked set of the value moved to its place, and the WRITE of the merged byte. -/
def fsetBody (a : Byte) (h l : BitVec 4) (v : Byte) (s : State) : State :=
  match spec h l with
  | some d => fillThen (.fset a h l v) a (.put d.mask (placeBits v d) .nothing) s
  | none => s.raise .invalidFieldSpec (.bounds h l)

/-- FSET: its body, run as one command. -/
def execFset (a : Byte) (h l : BitVec 4) (v : Byte) (s : State) : Host.Outcome State Fault Refusal :=
  runCommand (fsetBody a h l v) s

end Sys2Proof.Machine
end

