-- ==== Sys2Proof/Machine/Imu.lean ====
section
/-! DEFINITION. The IMU's scale setters SACC and SGYR and readouts RACC and RGYR (spec/44_scale_conversion.md). -/

namespace Sys2Proof.Machine

/-- Writing a scale code into the field f, then what follows the write: the common part of R182 and R183, which is that
of FSET (R70 (b)). The field is valid by configuration (R105). -/
def writeCode (i : Instr) (f : RegField) (code : Byte) (after : AfterWrite) (s : State) : State :=
  let d := descriptorOf f.field.hi f.field.lo
  fillThen i f.reg (.put d.mask (placeBits code d) after) s

/-- SACC (R182): the scale is checked before any request; ACC_DIV is written only after the WRITE is answered OK. -/
def saccBody (v : BitVec 16) (s : State) : State :=
  match accScaleOf v with
  | some sc => writeCode (.sacc v) s.cfg.wiring.accFs (accCode sc) (.accDiv sc) s
  | none => s.raise .unsupportedScale (.scale v)

/-- SACC: its body, run as one command. -/
def execSacc (v : BitVec 16) (s : State) : Host.Outcome State Fault Refusal :=
  runCommand (saccBody v) s

/-- SGYR (R183): as SACC, with the gyroscope's scales, field and divisor. -/
def sgyrBody (v : BitVec 16) (s : State) : State :=
  match gyrScaleOf v with
  | some sc => writeCode (.sgyr v) s.cfg.wiring.gyrFs (gyrCode sc) (.gyrDiv sc) s
  | none => s.raise .unsupportedScale (.scale v)

/-- SGYR: its body, run as one command. -/
def execSgyr (v : BitVec 16) (s : State) : Host.Outcome State Fault Refusal :=
  runCommand (sgyrBody v) s

/-- RACC (R184): six READs from P_ACC_DATA, divided by ACC_DIV, times standard gravity if mps2. -/
def raccBody (mps2 : Bool) (s : State) : State :=
  continueRun (.racc mps2) s.cfg.wiring.accData [] (.accel mps2) s

/-- RACC: its body, run as one command. -/
def execRacc (mps2 : Bool) (s : State) : Host.Outcome State Fault Refusal :=
  runCommand (raccBody mps2) s

/-- RGYR (R185): six READs from P_GYR_DATA, divided by GYR_DIV, times the source's constant. -/
def rgyrBody (s : State) : State :=
  continueRun .rgyr s.cfg.wiring.gyrData [] .gyro s

/-- RGYR: its body, run as one command. -/
def execRgyr (s : State) : Host.Outcome State Fault Refusal :=
  runCommand rgyrBody s

end Sys2Proof.Machine
end

