-- ==== Sys2Proof/Machine/Magnetometer.lean ====
section
/-! DEFINITION. The magnetometer readouts MRAW and MXYZ (spec/44_scale_conversion.md). -/

namespace Sys2Proof.Machine

/-- MRAW (R186): seven READs from P_MAG_DATA, three u18. -/
def mrawBody (s : State) : State :=
  continueRun .mraw s.cfg.wiring.magData [] .magRaw s

/-- MRAW: its body, run as one command. -/
def execMraw (s : State) : Host.Outcome State Fault Refusal :=
  runCommand mrawBody s

/-- MXYZ (R187): its own seven READs, normalised to [-1, 1). -/
def mxyzBody (s : State) : State :=
  continueRun .mxyz s.cfg.wiring.magData [] .magNorm s

/-- MXYZ: its body, run as one command. -/
def execMxyz (s : State) : Host.Outcome State Fault Refusal :=
  runCommand mxyzBody s

end Sys2Proof.Machine
end

