-- ==== Sys2Proof/Machine/MultiByte.lean ====
section
/-! DEFINITION. The multi-byte little-endian decoder MRD (spec/43_multibyte.md). -/

namespace Sys2Proof.Machine

/-- MRD (R160): AddressRange if A + N - 1 > 255 (R161), then LayoutMismatch if T ≠ N (R162), both before any request
and in this order (R225), then N READs and the decoding. -/
def mrdBody (a : Byte) (n : BitVec 4) (layout : List Entry) (s : State) : State :=
  if (a.toNat : Int) + n.toNat - 1 > 255 then s.raise .addressRange (.range a n)
  else if layoutBytes layout ≠ n.toNat then s.raise .layoutMismatch (.lengths n (layoutBytes layout))
  else continueRun (.mrd a n layout) a [] (.ints layout) s

/-- MRD: its body, run as one command. -/
def execMrd (a : Byte) (n : BitVec 4) (layout : List Entry) (s : State) : Host.Outcome State Fault Refusal :=
  runCommand (mrdBody a n layout) s

end Sys2Proof.Machine
end

