-- ==== Sys2Proof/Machine/Dispatch.lean ====
section
/-! DEFINITION. One arm for each command, each one direct call of its meaning. -/

namespace Sys2Proof.Machine

def exec (i : Instr) (s : State) : Host.Outcome State Fault Refusal :=
  match i with
  | .fspec h l => Sys2Proof.Machine.execFspec h l s
  | .brd a => Sys2Proof.Machine.execBrd a s
  | .bwr a v => Sys2Proof.Machine.execBwr a v s
  | .bwc a => Sys2Proof.Machine.execBwc a s
  | .bms a mask bits => Sys2Proof.Machine.execBms a mask bits s
  | .fget a h l => Sys2Proof.Machine.execFget a h l s
  | .fset a h l v => Sys2Proof.Machine.execFset a h l v s
  | .mrd a n layout => Sys2Proof.Machine.execMrd a n layout s
  | .sacc v => Sys2Proof.Machine.execSacc v s
  | .sgyr v => Sys2Proof.Machine.execSgyr v s
  | .racc mps2 => Sys2Proof.Machine.execRacc mps2 s
  | .rgyr => Sys2Proof.Machine.execRgyr s
  | .mraw => Sys2Proof.Machine.execMraw s
  | .mxyz => Sys2Proof.Machine.execMxyz s

end Sys2Proof.Machine
end

