-- ==== Sys2Proof/Machine/Fetch.lean ====
section
/-! DEFINITION. Taking the next move of the environment: a command word, reset, or the transport's answer (R240, R250,
R41), and a word or an answer with reset upon it (R251). -/

namespace Sys2Proof.Machine

/-- A word that does not decode is answered IllegalCommand with the word: no request, no state change, no clearing of
the cache (R223, R29). -/
def answerIllegal (w : Word) (s : State) : Host.Outcome State Fault Refusal :=
  if s.seq = .idle then .next (s.raise .illegalCommand (.word w)) else .refused .commandWhileBusy

/-- The host's word is recorded (R44), decoded (R67) and run. -/
def takeCommand (w : Word) (s : State) : Host.Outcome State Fault Refusal :=
  match decode w with
  | .ok i => exec i (s.log (.command w))
  | .error _ => answerIllegal w (s.log (.command w))

/-- The transport's answer: the BUSY command goes on, as far as the answers that are there carry it. While IDLE no
request is outstanding. An answer names no request: one that comes late, to a request that reset abandoned, is taken as
the answer to the request now outstanding (DESIGN CHOICE, assumption 19: R41 and R251 do not say). -/
def takeAnswer (a : Answer) (rest : List Input) (s : State) : Host.Outcome State Fault Refusal :=
  match s.seq with
  | .busy i w => .next (drive rest (deliver i w a s))
  | .idle => .fault .strayAnswer

/-- One step. With no move of the environment left, the block waits: IDLE for the host (R252), BUSY for the transport,
for ever if it never answers (R28, R265). -/
def stepOnce (s : State) : Host.Outcome State Fault Refusal :=
  match s.inputs with
  | [] => .next s
  | .command w :: rest => takeCommand w { s with inputs := rest }
  | .commandReset w :: rest => resetAfterCommand w { s with inputs := rest }
  | .reset :: rest => .next { s with inputs := rest }.assertReset
  | .answer a :: rest => takeAnswer a rest s
  | .answerReset a :: rest => resetAfterAnswer a { s with inputs := rest }

/-- The word as the host's next move, to an IDLE block. -/
def placeWord (s : State) (w : Word) : State := { s with seq := .idle, inputs := .command w :: s.inputs }

end Sys2Proof.Machine
end

