-- ==== Sys2Proof/Machine/Step.lean ====
section
/-! DEFINITION. The machine's one step, and the state whose next step takes a given word. -/

namespace Sys2Proof.Machine

/-- One step of the block (Machine/Fetch.lean: stepOnce). -/
def step (s : State) : Host.Outcome State Fault Refusal := stepOnce s

/-- s with this word as the host's next move, to an IDLE block. -/
def State.withFetchWord (s : State) (nbits w : Nat) : State := placeWord s (tableWord nbits w)

end Sys2Proof.Machine
end

