-- ==== Sys2Proof/Safety.lean ====
section
/-! DEFINITION. The terms the statements use: the answers and events of a run of reads, what a command may touch, and
the invariant of the machine. -/

namespace Sys2Proof.Machine

/-- The transport answers OK with these bytes, in this order. -/
def okAnswers (bs : List Byte) : List Input := bs.map fun b => .answer (.ok b)

/-- The transactions of reading the bytes bs from ascending addresses (R48), newest first, as the trace holds them;
k is how many bytes were read before. -/
def readEvents (dev : Nat) (start : Byte) : Nat → List Byte → List Event
  | _, [] => []
  | k, b :: bs => readEvents dev start (k + 1) bs ++ [.transaction (.read dev (start + BitVec.ofNat 8 k)) (.ok b)]

/-- No input stands first, or one that is no answer, or an answer upon which reset comes: the command gets no answer to go
on with. -/
def noAnswerFirst : List Input → Bool
  | .answer _ :: _ => false
  | _ => true

/-- What a command leaves at once IDLE, with this cache, these inputs left and these events added (newest first); all
else as in s. -/
def State.ended (s : State) (cache : Memory) (rest : List Input) (es : List Event) : State :=
  { s with cache := cache, seq := .idle, inputs := rest, trace := es ++ s.trace }

/-- What a command leaves waiting at w. -/
def State.waits (s : State) (cache : Memory) (rest : List Input) (es : List Event) (i : Instr) (w : Waiting) : State :=
  { s with cache := cache, seq := .busy i w, inputs := rest, trace := es ++ s.trace }

/-- The cache a command starts from (R29). -/
def State.startCache (s : State) : Memory := s.beginCommand.cache

/-- CACHE[a] as a command finds it: R29's clearing done. -/
def State.startEntry (s : State) (a : Byte) : Option Byte := s.beginCommand.entry a

/-- P_DEV_ADDR. -/
def State.dev (s : State) : Nat := s.cfg.wiring.devAddr

/-- The one cache entry a command can write (R22's table). -/
def entryOf (cfg : Config) : Instr → Option Byte
  | .brd a | .bwr a _ | .bwc a | .bms a _ _ | .fget a _ _ | .fset a _ _ _ => some a
  | .sacc _ => some cfg.wiring.accFs.reg
  | .sgyr _ => some cfg.wiring.gyrFs.reg
  | .fspec _ _ | .mrd _ _ _ | .racc _ | .rgyr | .mraw | .mxyz => none

/-- The multi-byte commands: they neither read nor write CACHE (R160, R184 to R187). -/
def isMultiByte : Instr → Bool
  | .mrd _ _ _ | .racc _ | .rgyr | .mraw | .mxyz => true
  | .fspec _ _ | .brd _ | .bwr _ _ | .bwc _ | .bms _ _ _ | .fget _ _ _ | .fset _ _ _ _ | .sacc _ | .sgyr _ => false

/-- The commands that use the cached byte of an entry, reading it only when it is invalid (R124, R260). -/
def usesEntry : Instr → Bool
  | .bwc _ | .bms _ _ _ | .fget _ _ _ | .fset _ _ _ _ | .sacc _ | .sgyr _ => true
  | .fspec _ _ | .brd _ | .bwr _ _ | .mrd _ _ _ | .racc _ | .rgyr | .mraw | .mxyz => false

/-- Whether an item of the observation is a READ, and whether it is a WRITE. -/
def isRead : Event → Bool
  | .transaction (.read _ _) _ => true
  | _ => false

/-- See isRead. -/
def isWrite : Event → Bool
  | .transaction (.write _ _ _) _ => true
  | _ => false

/-- Whether an item of the observation is a response. -/
def isResponse : Event → Bool
  | .response _ => true
  | _ => false

/-- A must-be-0 field of the word's format is not 0 (R62 to R65), or the word is an MRD with N = 0, a used entry of
width code 11 or an unused entry that is not 000 (R67): written from the formats, not from the table's masks. -/
def encodingBroken (w : Word) : Prop :=
  match (fieldOP w).toNat with
  | 0x1 => fieldN w ≠ 0 ∨ fieldA w ≠ 0 ∨ fieldC w ≠ 0
  | 0x2 | 0x4 => fieldN w ≠ 0 ∨ fieldB w ≠ 0 ∨ fieldC w ≠ 0
  | 0x3 => fieldN w ≠ 0 ∨ fieldB w ≠ 0
  | 0x5 | 0x7 => fieldN w ≠ 0
  | 0x6 => fieldN w ≠ 0 ∨ fieldC w ≠ 0
  | 0x8 => w.extractLsb' 0 2 ≠ 0 ∨ fieldN w = 0 ∨
      (∃ j e, j ≤ (fieldK w).toNat ∧ (fieldE w)[j]? = some e ∧ e.extractLsb' 1 2 = 0b11) ∨
      (∃ j e, (fieldK w).toNat < j ∧ (fieldE w)[j]? = some e ∧ e ≠ 0)
  | 0x9 | 0xA => w.extractLsb' 16 12 ≠ 0
  | 0xB => w.extractLsb' 25 3 ≠ 0 ∨ w.extractLsb' 0 24 ≠ 0
  | 0xC | 0xD | 0xE => w.extractLsb' 0 28 ≠ 0
  | _ => True

/-- The values ACC_DIV can hold (R24). -/
def accDivisors : List (BitVec 16) := [1, 16384, 8192, 4096, 2048]

/-- The values GYR_DIV can hold (R24). -/
def gyrDivisors : List (BitVec 16) := [1, 2048, 1024, 512, 256, 128, 64, 32]

/-- Both divisor registers hold legal values (R24). -/
def State.divisorsLegal (s : State) : Prop := s.accDiv ∈ accDivisors ∧ s.gyrDiv ∈ gyrDivisors

/-- The put of a scale code into the field f (R182, R183). -/
def codePut (f : RegField) (code : Byte) (after : AfterWrite) : EntryUse :=
  .put (descriptorOf f.field.hi f.field.lo).mask (placeBits code (descriptorOf f.field.hi f.field.lo)) after

/-- The points at which a command can wait, and for which request: the MemReads and MemWrites of its rule. -/
def waitsAt (cfg : Config) : Instr → Waiting → Prop
  | .fspec _ _, _ => False
  | .brd a, w => w = .byte a
  | .bwr a v, w => w = .store a v
  | .bwc a, w => w = .fill a .commit ∨ ∃ v, w = .commit a v .nothing
  | .bms a mask bits, w => w = .fill a (.stage mask bits)
  | .fget a h l, w => ∃ d, spec h l = some d ∧ w = .fill a (.get d)
  | .fset a h l v, w =>
    ∃ d, spec h l = some d ∧ (w = .fill a (.put d.mask (placeBits v d) .nothing) ∨ ∃ u, w = .commit a u .nothing)
  | .mrd a n layout, w => layoutBytes layout = n.toNat ∧ ∃ got, w = .run a got (.ints layout)
  | .sacc s, w =>
    ∃ sc, accScaleOf s = some sc ∧ (w = .fill cfg.wiring.accFs.reg (codePut cfg.wiring.accFs (accCode sc) (.accDiv sc))
      ∨ ∃ u, w = .commit cfg.wiring.accFs.reg u (.accDiv sc))
  | .sgyr s, w =>
    ∃ sc, gyrScaleOf s = some sc ∧ (w = .fill cfg.wiring.gyrFs.reg (codePut cfg.wiring.gyrFs (gyrCode sc) (.gyrDiv sc))
      ∨ ∃ u, w = .commit cfg.wiring.gyrFs.reg u (.gyrDiv sc))
  | .racc m, w => ∃ got, w = .run cfg.wiring.accData got (.accel m)
  | .rgyr, w => ∃ got, w = .run cfg.wiring.gyrData got .gyro
  | .mraw, w => ∃ got, w = .run cfg.wiring.magData got .magRaw
  | .mxyz, w => ∃ got, w = .run cfg.wiring.magData got .magNorm

/-- The local values of a waiting command fit the cache and the address space: a run has bytes left and stays within
0..255 (R161), a fill waits only for an invalid entry (R124), and a commit writes what the entry holds (R122, R141). -/
def Waiting.fits (s : State) : Waiting → Prop
  | .byte _ => True
  | .run start got use => got.length < use.count ∧ start.toNat + use.count ≤ 256
  | .fill a _ => s.entry a = none
  | .commit a v _ => s.entry a = some v
  | .store _ _ => True

/-- BUSY with exactly one command, at one of its own waiting points (R28). -/
def State.sequencerOk (s : State) : Prop :=
  match s.seq with
  | .idle => True
  | .busy i w => waitsAt s.cfg i w ∧ w.fits s

/-- What holds of every reachable state: the cache in its canonical form, the divisors legal (R24), and the sequencer
IDLE or BUSY as one command's rule says (R28). -/
structure State.Inv (s : State) : Prop where
  cacheWf : Memory.wf s.cache
  divisors : s.divisorsLegal
  sequencer : s.sequencerOk

end Sys2Proof.Machine
end

