-- ==== Sys2Proof/WellFormed.lean ====
section
/-! DEFINITION. Which commands have an encoding (spec/30_encoding.md R62 to R66). Only MRD has operands that the
types do not bound: its byteLength field is never 0, and its layout has one to four entries. -/

namespace Sys2Proof

/-- MRD's byteLength is 1..15: 0 is illegal (R64). -/
def lengthOk (n : BitVec 4) : Bool := n != 0

/-- An MRD layout is E0..E_K with K in 0..3: one to four entries (R64, R66). -/
def layoutOk (layout : List Entry) : Bool := 1 ≤ layout.length && layout.length ≤ 4

/-- The commands that the encoding can express. An MRD whose layout does not add up to its length, and a field
command with bad bounds, are well formed: they decode, and report their error when they run (R63, R162). -/
def Instr.wf : Instr → Bool
  | .mrd _ n layout => lengthOk n && layoutOk layout
  | .fspec _ _ | .brd _ | .bwr _ _ | .bwc _ | .bms _ _ _ | .fget _ _ _ | .fset _ _ _ _ => true
  | .sacc _ | .sgyr _ | .racc _ | .rgyr | .mraw | .mxyz => true

end Sys2Proof
end

