-- ==== Sys2Proof/Certificates/Slice0/Obligations.lean ====
section
/-! DEFINITION. The statements about the register-access block. Each cites the rules of spec/ it is made from. -/

open Sys2Proof Sys2Proof.Machine

/-! ### Encoding (30_encoding.md) -/

/-- R60 to R69: decoding the word of a well-formed command gives the command back, every operand at every value. -/
def Obligations.DecodeOfEncodeIsTheCommand : Prop :=
  ∀ i : Instr, i.wf = true → decode (encode i) = .ok i

/-- R60 to R69: a word that decodes is the word of the command it decodes to, which is well formed, so no bit of a
legal word is dropped and each command has one word. -/
def Obligations.EncodeOfDecodeIsTheWord : Prop :=
  ∀ (w : Word) (i : Instr), decode w = .ok i → i.wf = true ∧ encode i = w

/-- R69's example words, each written out there. -/
def Obligations.ExampleWordsDecode : Prop :=
  decode 0x20100000 = .ok (.brd 0x10) ∧ decode 0x70105302 = .ok (.fset 0x10 5 3 2) ∧
  decode 0x86209B60 = .ok (.mrd 0x20 6 [.s16, .s16, .s16]) ∧ decode 0x90000004 = .ok (.sacc 4) ∧
  decode 0xB1000000 = .ok (.racc true)

/-- R68: the words that do not decode are those with OP 0x0 or 0xF, with a must-be-0 field that is not 0, or an MRD
with N = 0, a reserved width code or an unused entry that is not 000; every one is answered IllegalCommand. -/
def Obligations.IllegalEncodingsAreExactlyThese : Prop :=
  (∀ w : Word, (∃ e, decode w = .error e) ↔ fieldOP w = 0x0 ∨ fieldOP w = 0xF ∨ encodingBroken w) ∧
  (∀ (w : Word) (s : State) (rest : List Input), fieldOP w = 0x0 ∨ fieldOP w = 0xF ∨ encodingBroken w →
    s.seq = .idle → s.inputs = .command w :: rest →
    step s = .next { s with
      inputs := rest, trace := [.response ⟨.illegalCommand, .word w⟩, .command w] ++ s.trace })

/-- R67: no word belongs to two rows of the opcode table. -/
def Obligations.OpcodeRowsNeverOverlap : Prop :=
  ∀ (w : Word) (p q : OpcodeRow), p ∈ opcodeTable → q ∈ opcodeTable →
    p.matches w = true → q.matches w = true → p = q

/-! ### The step (60_exceptions.md R240, 70_reset_and_hazards.md) -/

/-- R240, R67: when the host's next word decodes to i, the step is exec of i, with the word taken from the host's moves
and recorded in the observation (the form of both is the model's, assumptions 2 and 6). -/
def Obligations.StepRunsTheDecodedCommand : Prop :=
  ∀ (s : State) (w : Word) (rest : List Input) (i : Instr), s.inputs = .command w :: rest → decode w = .ok i →
    step s = exec i { s with inputs := rest, trace := .command w :: s.trace }

/-- R223: a word that fails decoding is answered IllegalCommand with the word, at once: no request, no other change (no
clearing of the cache). -/
def Obligations.IllegalWordIsAnsweredAtOnce : Prop :=
  ∀ (s : State) (w : Word) (rest : List Input) (e : DecodeError), s.seq = .idle → s.inputs = .command w :: rest →
    decode w = .error e →
    step s = .next { s with
      inputs := rest, trace := [.response ⟨.illegalCommand, .word w⟩, .command w] ++ s.trace }

/-- The model's choice (assumption 7; R240, R41, 93_implementation_defined.md I7): a step stops only on a word issued
while BUSY, which it refuses, and on an answer with no request outstanding, which is a fault, with or without a reset upon them. Every other step goes on. -/
def Obligations.StepStopsOnlyOnForbiddenMoves : Prop :=
  ∀ s : State,
    (∀ w rest, s.inputs = .command w :: rest ∨ s.inputs = .commandReset w :: rest → s.seq ≠ .idle →
      step s = .refused .commandWhileBusy) ∧
    (∀ a rest, s.inputs = .answer a :: rest ∨ s.inputs = .answerReset a :: rest → s.seq = .idle →
      step s = .fault .strayAnswer) ∧
    ((∃ t, step s = .next t) ∨
      (∃ w rest, (s.inputs = .command w :: rest ∨ s.inputs = .commandReset w :: rest) ∧ s.seq ≠ .idle) ∨
      (∃ a rest, (s.inputs = .answer a :: rest ∨ s.inputs = .answerReset a :: rest) ∧ s.seq = .idle))

/-- The model's choice of form for the waits of R252 and R265 (assumption 8): with no move of the environment left the
block stays as it is, IDLE or BUSY, for ever. -/
def Obligations.BlockWaitsForItsEnvironment : Prop :=
  ∀ s : State, s.inputs = [] → step s = .next s

/-- R250, R251: the reset input puts the spec's state in its reset value and makes no request; a command it finds BUSY
ends with no response, its outstanding request left unanswered, which the observation records as
abandoned (the model's choice, assumptions 6 and 15). Reset with no request in flight is
ResetStrikesInsideACommand. -/
def Obligations.ResetInputRestoresTheResetState : Prop :=
  ∀ (s : State) (rest : List Input), s.inputs = .reset :: rest →
    (s.seq = .idle → step s = .next { s with
      cache := [], accDiv := 1, gyrDiv := 1, inputs := rest, trace := .reset :: s.trace }) ∧
    (∀ i w, s.seq = .busy i w → step s = .next { s with
      cache := [], accDiv := 1, gyrDiv := 1, seq := .idle, inputs := rest,
      trace := [.reset, .abandoned i (w.request s.dev)] ++ s.trace })

/-- R30: after reset every entry is invalid, both divisors are 1 and the sequencer is IDLE, whatever the
configuration. -/
def Obligations.StateAfterReset : Prop :=
  (∀ (c : Config) (a : Byte), (State.resetWith c).entry a = none ∧ (State.resetWith c).accDiv = 1 ∧
    (State.resetWith c).gyrDiv = 1 ∧ (State.resetWith c).seq = .idle ∧ (State.resetWith c).cfg = c) ∧
  ∃ c, State.reset = State.resetWith c

/-- R29: with P_CACHE_PERSIST = true a command starts from the entries as they are; with false it starts with every
entry invalid. That the commands which then fail their operand check start so too is the model's reading of R29 against
R224 (assumption 9). -/
def Obligations.CachePersistenceParameter : Prop :=
  ∀ (i : Instr) (s : State),
    (s.cfg.cachePersist = true → ∀ a, s.startEntry a = s.entry a) ∧
    (s.cfg.cachePersist = false → (∀ a, s.startEntry a = none) ∧ exec i s = exec i { s with cache := [] })

/-! ### The commands. In each, s.startEntry is CACHE as the command finds it (R29); s.inputs holds the transport's answers
(R41, assumption 2), and the events are R44's, the newest first (assumption 6). -/

/-- R103, R29: FSPEC answers the descriptor or InvalidFieldSpec and makes no request; all it leaves of the state is as it
was, but for R29's clearing of the cache with P_CACHE_PERSIST = false. That the clearing happens on InvalidFieldSpec too
is the model's reading of R29 against R224 (assumption 9). A word with A or C not 0 is illegal. -/
def Obligations.FspecFollowsItsRule : Prop :=
  (∀ (h l : BitVec 4) (s : State), s.seq = .idle →
    (l.toNat ≤ h.toNat ∧ h.toNat ≤ 7 → exec (.fspec h l) s = .next (s.ended s.startCache s.inputs
      [.response ⟨.ok, .descriptor ⟨BitVec.ofNat 3 l.toNat,
        BitVec.ofNat 8 ((2 ^ (h.toNat - l.toNat + 1) - 1) * 2 ^ l.toNat),
        BitVec.ofNat 4 (h.toNat - l.toNat + 1)⟩⟩])) ∧
    (¬ (l.toNat ≤ h.toNat ∧ h.toNat ≤ 7) → exec (.fspec h l) s = .next (s.ended s.startCache s.inputs
      [.response ⟨.invalidFieldSpec, .bounds h l⟩]))) ∧
  (∀ h l : BitVec 4, decode (0x10000000 ||| h.setWidth 32 <<< 12 ||| l.setWidth 32 <<< 8) = .ok (.fspec h l)) ∧
  (∀ w : Word, fieldOP w = 0x1 → fieldA w ≠ 0 ∨ fieldC w ≠ 0 → ∃ e, decode w = .error e)

/-- R104: the mask of a valid descriptor holds exactly the bits lo to hi, hi - lo + 1 of them; shifted down it is
2^width - 1; there are 36 valid specs, the other 220 pairs have none. -/
def Obligations.DescriptorMaskProperties : Prop :=
  (∀ h l : BitVec 4, l.toNat ≤ h.toNat ∧ h.toNat ≤ 7 → ∃ d, spec h l = some d ∧
    (∀ k, k < 8 → d.mask.getLsbD k = (decide (l.toNat ≤ k) && decide (k ≤ h.toNat))) ∧
    ((List.range 8).filter (d.mask.getLsbD ·)).length = h.toNat - l.toNat + 1 ∧
    (d.mask >>> d.shift.toNat).toNat = 2 ^ d.width.toNat - 1 ∧ d.mask &&& ~~~d.mask = 0 ∧ d.mask ≠ 0) ∧
  (∀ h l : BitVec 4, ¬ (l.toNat ≤ h.toNat ∧ h.toNat ≤ 7) → spec h l = none) ∧
  ((List.range 256).filter fun k => (spec (BitVec.ofNat 4 (k / 16)) (BitVec.ofNat 4 k)).isSome).length = 36

/-- R120: BRD always makes exactly one READ; OK caches and answers the byte, ERR leaves CACHE unchanged and answers
TransportError; a word with B or C not 0 is illegal. -/
def Obligations.BrdFollowsItsRule : Prop :=
  (∀ (a : Byte) (s : State) (rest : List Input), s.seq = .idle →
    (∀ d, s.inputs = .answer (.ok d) :: rest → exec (.brd a) s = .next (s.ended (s.startCache.write a.toNat d) rest
      [.response ⟨.ok, .byte d⟩, .transaction (.read s.dev a) (.ok d)])) ∧
    (∀ e, s.inputs = .answer (.err e) :: rest → exec (.brd a) s = .next (s.ended s.startCache rest
      [.response ⟨.transportError, .datum e⟩, .transaction (.read s.dev a) (.err e)])) ∧
    (noAnswerFirst s.inputs = true →
      exec (.brd a) s = .next (s.waits s.startCache s.inputs [] (.brd a) (.byte a)))) ∧
  (∀ a : Byte, decode (0x20000000 ||| a.setWidth 32 <<< 16) = .ok (.brd a)) ∧
  (∀ w : Word, fieldOP w = 0x2 → fieldB w ≠ 0 ∨ fieldC w ≠ 0 → ∃ e, decode w = .error e)

/-- R121: BWR makes exactly one WRITE and no READ; OK caches the value; ERR answers TransportError and leaves the entry
unchanged or at the value tried, for every value of the free draw (assumption 4); a word with B not 0 is illegal. -/
def Obligations.BwrFollowsItsRule : Prop :=
  (∀ (a v : Byte) (s : State) (rest : List Input), s.seq = .idle →
    (∀ d, s.inputs = .answer (.ok d) :: rest → exec (.bwr a v) s = .next (s.ended (s.startCache.write a.toNat v) rest
      [.response ⟨.ok, .none⟩, .transaction (.write s.dev a v) (.ok d)])) ∧
    (∀ e, s.inputs = .answer (.err e) :: rest → ∃ c, (c = s.startCache ∨ c = s.startCache.write a.toNat v) ∧
      exec (.bwr a v) s = .next { s.ended c rest
        [.response ⟨.transportError, .datum e⟩, .transaction (.write s.dev a v) (.err e)] with draws := s.draws + 1 }) ∧
    (noAnswerFirst s.inputs = true →
      exec (.bwr a v) s = .next (s.waits s.startCache s.inputs [] (.bwr a v) (.store a v)))) ∧
  (∀ a v : Byte, decode (0x30000000 ||| a.setWidth 32 <<< 16 ||| v.setWidth 32) = .ok (.bwr a v)) ∧
  (∀ w : Word, fieldOP w = 0x3 → fieldB w ≠ 0 → ∃ e, decode w = .error e)

/-- R122: BWC writes the cached value, after a READ only if the entry is invalid; a word with B or C not 0 is
illegal. -/
def Obligations.BwcFollowsItsRule : Prop :=
  (∀ (a : Byte) (s : State) (rest : List Input), s.seq = .idle →
    (∀ v, s.startEntry a = some v →
      (∀ x, s.inputs = .answer (.ok x) :: rest → exec (.bwc a) s = .next (s.ended s.startCache rest
        [.response ⟨.ok, .none⟩, .transaction (.write s.dev a v) (.ok x)])) ∧
      (∀ e, s.inputs = .answer (.err e) :: rest → exec (.bwc a) s = .next (s.ended s.startCache rest
        [.response ⟨.transportError, .datum e⟩, .transaction (.write s.dev a v) (.err e)])) ∧
      (noAnswerFirst s.inputs = true →
        exec (.bwc a) s = .next (s.waits s.startCache s.inputs [] (.bwc a) (.commit a v .nothing)))) ∧
    (s.startEntry a = none →
      (∀ d x, s.inputs = .answer (.ok d) :: .answer (.ok x) :: rest →
        exec (.bwc a) s = .next (s.ended (s.startCache.write a.toNat d) rest
          [.response ⟨.ok, .none⟩, .transaction (.write s.dev a d) (.ok x), .transaction (.read s.dev a) (.ok d)])) ∧
      (∀ d e, s.inputs = .answer (.ok d) :: .answer (.err e) :: rest →
        exec (.bwc a) s = .next (s.ended (s.startCache.write a.toNat d) rest
          [.response ⟨.transportError, .datum e⟩, .transaction (.write s.dev a d) (.err e),
            .transaction (.read s.dev a) (.ok d)])) ∧
      (∀ d, s.inputs = .answer (.ok d) :: rest → noAnswerFirst rest = true →
        exec (.bwc a) s = .next (s.waits (s.startCache.write a.toNat d) rest
          [.transaction (.read s.dev a) (.ok d)] (.bwc a) (.commit a d .nothing))) ∧
      (∀ e, s.inputs = .answer (.err e) :: rest → exec (.bwc a) s = .next (s.ended s.startCache rest
        [.response ⟨.transportError, .datum e⟩, .transaction (.read s.dev a) (.err e)])) ∧
      (noAnswerFirst s.inputs = true →
        exec (.bwc a) s = .next (s.waits s.startCache s.inputs [] (.bwc a) (.fill a .commit))))) ∧
  (∀ a : Byte, decode (0x40000000 ||| a.setWidth 32 <<< 16) = .ok (.bwc a)) ∧
  (∀ w : Word, fieldOP w = 0x4 → fieldB w ≠ 0 ∨ fieldC w ≠ 0 → ∃ e, decode w = .error e)

/-- R123: BMS merges into the cache, after a READ only if the entry is invalid, and makes no WRITE; every B and C is
legal. -/
def Obligations.BmsFollowsItsRule : Prop :=
  (∀ (a mask bits : Byte) (s : State) (rest : List Input), s.seq = .idle →
    (∀ old, s.startEntry a = some old → exec (.bms a mask bits) s = .next (s.ended
      (s.startCache.write a.toNat ((bits &&& mask) ||| (old &&& (0xFF ^^^ mask)))) s.inputs
      [.response ⟨.ok, .none⟩])) ∧
    (s.startEntry a = none →
      (∀ d, s.inputs = .answer (.ok d) :: rest → ∃ c, exec (.bms a mask bits) s = .next (s.ended c rest
          [.response ⟨.ok, .none⟩, .transaction (.read s.dev a) (.ok d)]) ∧
        c.read a.toNat = some ((bits &&& mask) ||| (d &&& (0xFF ^^^ mask))) ∧
        (∀ b : Byte, b ≠ a → c.read b.toNat = s.startEntry b)) ∧
      (∀ e, s.inputs = .answer (.err e) :: rest → exec (.bms a mask bits) s = .next (s.ended s.startCache rest
        [.response ⟨.transportError, .datum e⟩, .transaction (.read s.dev a) (.err e)])) ∧
      (noAnswerFirst s.inputs = true → exec (.bms a mask bits) s = .next (s.waits s.startCache s.inputs []
        (.bms a mask bits) (.fill a (.stage mask bits)))))) ∧
  (∀ a b c : Byte,
    decode (0x50000000 ||| a.setWidth 32 <<< 16 ||| b.setWidth 32 <<< 8 ||| c.setWidth 32) = .ok (.bms a b c))

/-- R140: FGET answers the field of the cached byte, after a READ only if the entry is invalid; bad bounds are answered
InvalidFieldSpec with no request, and change nothing but for R29's clearing of the cache, which happens there by the
model's reading of R29 against R224 (assumption 9); a word with C not 0 is illegal. -/
def Obligations.FgetFollowsItsRule : Prop :=
  (∀ (a : Byte) (h l : BitVec 4) (s : State) (rest : List Input), s.seq = .idle →
    (¬ (l.toNat ≤ h.toNat ∧ h.toNat ≤ 7) → exec (.fget a h l) s = .next (s.ended s.startCache s.inputs
      [.response ⟨.invalidFieldSpec, .bounds h l⟩])) ∧
    (l.toNat ≤ h.toNat ∧ h.toNat ≤ 7 →
      (∀ v, s.startEntry a = some v → exec (.fget a h l) s = .next (s.ended s.startCache s.inputs
        [.response ⟨.ok, .byte (BitVec.ofNat 8 (v.toNat / 2 ^ l.toNat % 2 ^ (h.toNat - l.toNat + 1)))⟩])) ∧
      (s.startEntry a = none →
        (∀ v, s.inputs = .answer (.ok v) :: rest →
          exec (.fget a h l) s = .next (s.ended (s.startCache.write a.toNat v) rest
            [.response ⟨.ok, .byte (BitVec.ofNat 8 (v.toNat / 2 ^ l.toNat % 2 ^ (h.toNat - l.toNat + 1)))⟩,
              .transaction (.read s.dev a) (.ok v)])) ∧
        (∀ e, s.inputs = .answer (.err e) :: rest → exec (.fget a h l) s = .next (s.ended s.startCache rest
          [.response ⟨.transportError, .datum e⟩, .transaction (.read s.dev a) (.err e)])) ∧
        (noAnswerFirst s.inputs = true → ∃ d, spec h l = some d ∧
          exec (.fget a h l) s = .next (s.waits s.startCache s.inputs [] (.fget a h l) (.fill a (.get d))))))) ∧
  (∀ (a : Byte) (h l : BitVec 4),
    decode (0x60000000 ||| a.setWidth 32 <<< 16 ||| h.setWidth 32 <<< 12 ||| l.setWidth 32 <<< 8) =
      .ok (.fget a h l)) ∧
  (∀ w : Word, fieldOP w = 0x6 → fieldC w ≠ 0 → ∃ e, decode w = .error e)

/-- The byte FSET writes for the field hi:lo of old: bits of old outside the field, the low bits of v in it (R141). -/
def fsetByte (h l : BitVec 4) (v old : Byte) : Byte :=
  ((v <<< l.toNat) &&& maskOf h l) ||| (old &&& (0xFF ^^^ maskOf h l))

/-- R141: FSET merges the field into the cached byte and writes the merged byte, after a READ only if the entry is
invalid; bad bounds are answered InvalidFieldSpec with no request, and change nothing but for R29's clearing of the
cache, which happens there by the model's reading of R29 against R224 (assumption 9); every field value is legal. -/
def Obligations.FsetFollowsItsRule : Prop :=
  (∀ (a : Byte) (h l : BitVec 4) (v : Byte) (s : State) (rest : List Input), s.seq = .idle →
    (¬ (l.toNat ≤ h.toNat ∧ h.toNat ≤ 7) → exec (.fset a h l v) s = .next (s.ended s.startCache s.inputs
      [.response ⟨.invalidFieldSpec, .bounds h l⟩])) ∧
    (l.toNat ≤ h.toNat ∧ h.toNat ≤ 7 →
      (∀ old, s.startEntry a = some old →
        (∀ x, s.inputs = .answer (.ok x) :: rest →
          exec (.fset a h l v) s = .next (s.ended (s.startCache.write a.toNat (fsetByte h l v old)) rest
            [.response ⟨.ok, .none⟩, .transaction (.write s.dev a (fsetByte h l v old)) (.ok x)])) ∧
        (∀ e, s.inputs = .answer (.err e) :: rest →
          exec (.fset a h l v) s = .next (s.ended (s.startCache.write a.toNat (fsetByte h l v old)) rest
            [.response ⟨.transportError, .datum e⟩, .transaction (.write s.dev a (fsetByte h l v old)) (.err e)])) ∧
        (noAnswerFirst s.inputs = true →
          exec (.fset a h l v) s = .next (s.waits (s.startCache.write a.toNat (fsetByte h l v old)) s.inputs []
            (.fset a h l v) (.commit a (fsetByte h l v old) .nothing)))) ∧
      (s.startEntry a = none →
        (∀ d x, s.inputs = .answer (.ok d) :: .answer (.ok x) :: rest →
          exec (.fset a h l v) s = .next (s.ended ((s.startCache.write a.toNat d).write a.toNat (fsetByte h l v d)) rest
            [.response ⟨.ok, .none⟩, .transaction (.write s.dev a (fsetByte h l v d)) (.ok x),
              .transaction (.read s.dev a) (.ok d)])) ∧
        (∀ d e, s.inputs = .answer (.ok d) :: .answer (.err e) :: rest →
          exec (.fset a h l v) s = .next (s.ended ((s.startCache.write a.toNat d).write a.toNat (fsetByte h l v d)) rest
            [.response ⟨.transportError, .datum e⟩, .transaction (.write s.dev a (fsetByte h l v d)) (.err e),
              .transaction (.read s.dev a) (.ok d)])) ∧
        (∀ e, s.inputs = .answer (.err e) :: rest → exec (.fset a h l v) s = .next (s.ended s.startCache rest
          [.response ⟨.transportError, .datum e⟩, .transaction (.read s.dev a) (.err e)])) ∧
        (noAnswerFirst s.inputs = true → ∃ d, spec h l = some d ∧ exec (.fset a h l v) s =
          .next (s.waits s.startCache s.inputs [] (.fset a h l v) (.fill a (.put d.mask (v <<< l.toNat) .nothing))))))) ∧
  (∀ (a v : Byte) (h l : BitVec 4),
    decode (0x70000000 ||| a.setWidth 32 <<< 16 ||| h.setWidth 32 <<< 12 ||| l.setWidth 32 <<< 8 ||| v.setWidth 32) =
      .ok (.fset a h l v))

/-- R160 to R162, R29: MRD answers AddressRange, then LayoutMismatch, with no request; else it makes N READs at ascending
addresses and answers the decoded layout, or TransportError at the first that fails. CACHE is not
touched but for R29's clearing, which happens on an operand error too by the model's reading of R29 against R224
(assumption 9). That exec follows R160 also for N = 0 and for layouts of no or more than four entries, which no word
decodes to, is the model's choice (assumption 17). The illegal encodings are those of R68. -/
def Obligations.MrdFollowsItsRule : Prop :=
  (∀ (a : Byte) (n : BitVec 4) (layout : List Entry) (s : State) (rest : List Input), s.seq = .idle →
    (a.toNat + n.toNat > 256 → exec (.mrd a n layout) s = .next (s.ended s.startCache s.inputs
      [.response ⟨.addressRange, .range a n⟩])) ∧
    (a.toNat + n.toNat ≤ 256 → layoutBytes layout ≠ n.toNat →
      exec (.mrd a n layout) s = .next (s.ended s.startCache s.inputs
        [.response ⟨.layoutMismatch, .lengths n (layoutBytes layout)⟩])) ∧
    (a.toNat + n.toNat ≤ 256 → layoutBytes layout = n.toNat → ∀ bs : List Byte,
      (bs.length = n.toNat → s.inputs = okAnswers bs ++ rest →
        exec (.mrd a n layout) s = .next (s.ended s.startCache rest
          (.response ⟨.ok, .ints (decodeLayout layout bs)⟩ :: readEvents s.dev a 0 bs))) ∧
      (∀ e, bs.length < n.toNat → s.inputs = okAnswers bs ++ .answer (.err e) :: rest →
        exec (.mrd a n layout) s = .next (s.ended s.startCache rest
          (.response ⟨.transportError, .datum e⟩ ::
            .transaction (.read s.dev (a + BitVec.ofNat 8 bs.length)) (.err e) :: readEvents s.dev a 0 bs))) ∧
      (bs.length < n.toNat → s.inputs = okAnswers bs ++ rest → noAnswerFirst rest = true →
        exec (.mrd a n layout) s = .next (s.waits s.startCache rest (readEvents s.dev a 0 bs)
          (.mrd a n layout) (.run a bs (.ints layout)))))) ∧
  (∀ (a : Byte) (n : BitVec 4) (layout : List Entry), n ≠ 0 → 1 ≤ layout.length → layout.length ≤ 4 →
    decode (encode (.mrd a n layout)) = .ok (.mrd a n layout)) ∧
  (∀ w : Word, fieldOP w = 0x8 → encodingBroken w → ∃ e, decode w = .error e)

/-- R163: on a buffer as long as the layout, the decoder gives one value for each entry; the value of an entry that
stands after `before` is the little-endian number of its own bytes, read as two's complement if it is signed. -/
def Obligations.LayoutDecodesLittleEndian : Prop :=
  (∀ (layout : List Entry) (buf : List Byte), (decodeLayout layout buf).length = layout.length) ∧
  (∀ (before after : List Entry) (e : Entry) (buf : List Byte),
    buf.length = layoutBytes (before ++ e :: after) →
    ∃ v, (decodeLayout (before ++ e :: after) buf)[before.length]? = some v ∧
      v % 2 ^ (8 * entryBytes e) =
        ((List.range (entryBytes e)).map fun b => (byteAt buf (layoutBytes before + b)).toNat * 256 ^ b).sum ∧
      (entrySigned e = false → 0 ≤ v ∧ v < 2 ^ (8 * entryBytes e)) ∧
      (entrySigned e = true → -2 ^ (8 * entryBytes e - 1) ≤ v ∧ v < 2 ^ (8 * entryBytes e - 1)))

/-- R164: LAYOUT_3S16 gives value j from bytes 2j and 2j + 1, the low byte first, as two's complement. -/
def Obligations.ThreeSigned16Layout : Prop :=
  ∀ buf : List Byte, buf.length = 6 →
    decodeLayout [.s16, .s16, .s16] buf = [s16At buf 0, s16At buf 1, s16At buf 2] ∧
    (∀ j : Nat, j < 3 → s16At buf j = (byteAt buf (2 * j + 1) ++ byteAt buf (2 * j)).toInt)

/-- The byte SACC and SGYR write for the code k in the field f of a register that holds old (R182, R183). -/
def codeByte (f : RegField) (k : Nat) (old : Byte) : Byte :=
  ((BitVec.ofNat 8 k <<< f.field.lo.toNat) &&& maskOf f.field.hi f.field.lo) |||
    (old &&& (0xFF ^^^ maskOf f.field.hi f.field.lo))

/-- R182: SACC with an allowed scale writes its code, its index in the list 2, 4, 8, 16, into the field, as FSET does,
and sets ACC_DIV to 32768 / S only when the WRITE is answered OK; any other scale is UnsupportedScale with no request, and
changes nothing but for R29's clearing of the cache, which happens there by the model's reading of R29 against R224
(assumption 9). -/
def Obligations.SaccFollowsItsRule : Prop :=
  (∀ (v : BitVec 16) (s : State) (rest : List Input), s.seq = .idle → let f := s.cfg.wiring.accFs
    (v.toNat ∉ [2, 4, 8, 16] → exec (.sacc v) s = .next (s.ended s.startCache s.inputs
      [.response ⟨.unsupportedScale, .scale v⟩])) ∧
    (∀ k, [2, 4, 8, 16][k]? = some v.toNat →
      (∀ old, s.startEntry f.reg = some old →
        (∀ x, s.inputs = .answer (.ok x) :: rest →
          exec (.sacc v) s = .next { s.ended (s.startCache.write f.reg.toNat (codeByte f k old)) rest
            [.response ⟨.ok, .none⟩, .transaction (.write s.dev f.reg (codeByte f k old)) (.ok x)] with
              accDiv := BitVec.ofNat 16 (32768 / v.toNat) }) ∧
        (∀ e, s.inputs = .answer (.err e) :: rest →
          exec (.sacc v) s = .next (s.ended (s.startCache.write f.reg.toNat (codeByte f k old)) rest
            [.response ⟨.transportError, .datum e⟩, .transaction (.write s.dev f.reg (codeByte f k old)) (.err e)]))) ∧
      (s.startEntry f.reg = none →
        (∀ d x, s.inputs = .answer (.ok d) :: .answer (.ok x) :: rest →
          exec (.sacc v) s = .next { s.ended ((s.startCache.write f.reg.toNat d).write f.reg.toNat (codeByte f k d)) rest
            [.response ⟨.ok, .none⟩, .transaction (.write s.dev f.reg (codeByte f k d)) (.ok x),
              .transaction (.read s.dev f.reg) (.ok d)] with accDiv := BitVec.ofNat 16 (32768 / v.toNat) }) ∧
        (∀ d e, s.inputs = .answer (.ok d) :: .answer (.err e) :: rest →
          exec (.sacc v) s = .next (s.ended ((s.startCache.write f.reg.toNat d).write f.reg.toNat (codeByte f k d)) rest
            [.response ⟨.transportError, .datum e⟩, .transaction (.write s.dev f.reg (codeByte f k d)) (.err e),
              .transaction (.read s.dev f.reg) (.ok d)])) ∧
        (∀ e, s.inputs = .answer (.err e) :: rest → exec (.sacc v) s = .next (s.ended s.startCache rest
          [.response ⟨.transportError, .datum e⟩, .transaction (.read s.dev f.reg) (.err e)]))))) ∧
  (∀ v : BitVec 16, decode (0x90000000 ||| v.setWidth 32) = .ok (.sacc v)) ∧
  (∀ w : Word, fieldOP w = 0x9 → w.extractLsb' 16 12 ≠ 0 → ∃ e, decode w = .error e)

/-- R183: SGYR as SACC, with the list 16 to 1024, the gyroscope's field and GYR_DIV; an unsupported scale changes nothing
but for R29's clearing of the cache, which happens there by the model's reading of R29 against R224 (assumption 9). -/
def Obligations.SgyrFollowsItsRule : Prop :=
  (∀ (v : BitVec 16) (s : State) (rest : List Input), s.seq = .idle → let f := s.cfg.wiring.gyrFs
    (v.toNat ∉ [16, 32, 64, 128, 256, 512, 1024] → exec (.sgyr v) s = .next (s.ended s.startCache s.inputs
      [.response ⟨.unsupportedScale, .scale v⟩])) ∧
    (∀ k, [16, 32, 64, 128, 256, 512, 1024][k]? = some v.toNat →
      (∀ old, s.startEntry f.reg = some old →
        (∀ x, s.inputs = .answer (.ok x) :: rest →
          exec (.sgyr v) s = .next { s.ended (s.startCache.write f.reg.toNat (codeByte f k old)) rest
            [.response ⟨.ok, .none⟩, .transaction (.write s.dev f.reg (codeByte f k old)) (.ok x)] with
              gyrDiv := BitVec.ofNat 16 (32768 / v.toNat) }) ∧
        (∀ e, s.inputs = .answer (.err e) :: rest →
          exec (.sgyr v) s = .next (s.ended (s.startCache.write f.reg.toNat (codeByte f k old)) rest
            [.response ⟨.transportError, .datum e⟩, .transaction (.write s.dev f.reg (codeByte f k old)) (.err e)]))) ∧
      (s.startEntry f.reg = none →
        (∀ d x, s.inputs = .answer (.ok d) :: .answer (.ok x) :: rest →
          exec (.sgyr v) s = .next { s.ended ((s.startCache.write f.reg.toNat d).write f.reg.toNat (codeByte f k d)) rest
            [.response ⟨.ok, .none⟩, .transaction (.write s.dev f.reg (codeByte f k d)) (.ok x),
              .transaction (.read s.dev f.reg) (.ok d)] with gyrDiv := BitVec.ofNat 16 (32768 / v.toNat) }) ∧
        (∀ d e, s.inputs = .answer (.ok d) :: .answer (.err e) :: rest →
          exec (.sgyr v) s = .next (s.ended ((s.startCache.write f.reg.toNat d).write f.reg.toNat (codeByte f k d)) rest
            [.response ⟨.transportError, .datum e⟩, .transaction (.write s.dev f.reg (codeByte f k d)) (.err e),
              .transaction (.read s.dev f.reg) (.ok d)])) ∧
        (∀ e, s.inputs = .answer (.err e) :: rest → exec (.sgyr v) s = .next (s.ended s.startCache rest
          [.response ⟨.transportError, .datum e⟩, .transaction (.read s.dev f.reg) (.err e)]))))) ∧
  (∀ v : BitVec 16, decode (0xA0000000 ||| v.setWidth 32) = .ok (.sgyr v)) ∧
  (∀ w : Word, fieldOP w = 0xA → w.extractLsb' 16 12 ≠ 0 → ∃ e, decode w = .error e)

/-- The value R184 gives for the signed count j of the bytes bs: over ACC_DIV, times b64(9.80665) if mps2. -/
def raccNumber (s : State) (mps2 : Bool) (bs : List Byte) (j : Nat) : F64 :=
  let q := f64Div (f64OfInt (s16At bs j)) (f64OfInt s.accDiv.toNat)
  if mps2 then f64Mul q 0x40239D013A92A305 else q

/-- The value R185 gives for the signed count j of the bytes bs: over GYR_DIV, always times b64(0.01745329). -/
def rgyrNumber (s : State) (bs : List Byte) (j : Nat) : F64 :=
  f64Mul (f64Div (f64OfInt (s16At bs j)) (f64OfInt s.gyrDiv.toNat)) 0x3F91DF467707C94D

/-- R184: RACC makes six READs from P_ACC_DATA and answers each signed count over ACC_DIV, times b64(9.80665) if mps2,
in binary64; TransportError at the first failed READ; no state is written; other bits of the word set are illegal. -/
def Obligations.RaccFollowsItsRule : Prop :=
  (∀ (mps2 : Bool) (s : State) (rest : List Input) (bs : List Byte), s.seq = .idle →
    (bs.length = 6 → s.inputs = okAnswers bs ++ rest → exec (.racc mps2) s = .next (s.ended s.startCache rest
      (.response ⟨.ok, .f64s ⟨raccNumber s mps2 bs 0, raccNumber s mps2 bs 1, raccNumber s mps2 bs 2⟩⟩ ::
        readEvents s.dev s.cfg.wiring.accData 0 bs))) ∧
    (∀ e, bs.length < 6 → s.inputs = okAnswers bs ++ .answer (.err e) :: rest →
      exec (.racc mps2) s = .next (s.ended s.startCache rest (.response ⟨.transportError, .datum e⟩ ::
        .transaction (.read s.dev (s.cfg.wiring.accData + BitVec.ofNat 8 bs.length)) (.err e) ::
        readEvents s.dev s.cfg.wiring.accData 0 bs)))) ∧
  (decode 0xB0000000 = .ok (.racc false) ∧ decode 0xB1000000 = .ok (.racc true)) ∧
  (∀ w : Word, fieldOP w = 0xB → w.extractLsb' 25 3 ≠ 0 ∨ w.extractLsb' 0 24 ≠ 0 → ∃ e, decode w = .error e)

/-- R185: RGYR makes six READs from P_GYR_DATA and answers each signed count over GYR_DIV, always times
b64(0.01745329), in binary64; TransportError at the first failed READ; no state is written; other bits set are
illegal. -/
def Obligations.RgyrFollowsItsRule : Prop :=
  (∀ (s : State) (rest : List Input) (bs : List Byte), s.seq = .idle →
    (bs.length = 6 → s.inputs = okAnswers bs ++ rest → exec .rgyr s = .next (s.ended s.startCache rest
      (.response ⟨.ok, .f64s ⟨rgyrNumber s bs 0, rgyrNumber s bs 1, rgyrNumber s bs 2⟩⟩ ::
        readEvents s.dev s.cfg.wiring.gyrData 0 bs))) ∧
    (∀ e, bs.length < 6 → s.inputs = okAnswers bs ++ .answer (.err e) :: rest →
      exec .rgyr s = .next (s.ended s.startCache rest (.response ⟨.transportError, .datum e⟩ ::
        .transaction (.read s.dev (s.cfg.wiring.gyrData + BitVec.ofNat 8 bs.length)) (.err e) ::
        readEvents s.dev s.cfg.wiring.gyrData 0 bs)))) ∧
  decode 0xC0000000 = .ok .rgyr ∧
  (∀ w : Word, fieldOP w = 0xC → w.extractLsb' 0 28 ≠ 0 → ∃ e, decode w = .error e)

/-- The raw 18-bit value of an axis as R186 gives it: the big-endian high word times 4, plus its low 2 bits. -/
def magNumber (bs : List Byte) (j : Nat) (low : FieldSpec) : Nat :=
  ((byteAt bs (2 * j)).toNat * 256 + (byteAt bs (2 * j + 1)).toNat) * 4 +
    (byteAt bs 6).toNat / 2 ^ low.lo.toNat % 4

/-- R186: MRAW makes seven READs from P_MAG_DATA and answers three 18-bit values, the high words big-endian and the low
bits from the extra byte; TransportError at the first failed READ; no state is written; other bits set are illegal. -/
def Obligations.MrawFollowsItsRule : Prop :=
  (∀ (s : State) (rest : List Input) (bs : List Byte), s.seq = .idle →
    (bs.length = 7 → s.inputs = okAnswers bs ++ rest → ∃ r : Axes (BitVec 18),
      r.x.toNat = magNumber bs 0 s.cfg.magLow.x ∧ r.y.toNat = magNumber bs 1 s.cfg.magLow.y ∧
      r.z.toNat = magNumber bs 2 s.cfg.magLow.z ∧
      exec .mraw s = .next (s.ended s.startCache rest
        (.response ⟨.ok, .u18s r⟩ :: readEvents s.dev s.cfg.wiring.magData 0 bs))) ∧
    (∀ e, bs.length < 7 → s.inputs = okAnswers bs ++ .answer (.err e) :: rest →
      exec .mraw s = .next (s.ended s.startCache rest (.response ⟨.transportError, .datum e⟩ ::
        .transaction (.read s.dev (s.cfg.wiring.magData + BitVec.ofNat 8 bs.length)) (.err e) ::
        readEvents s.dev s.cfg.wiring.magData 0 bs)))) ∧
  decode 0xD0000000 = .ok .mraw ∧
  (∀ w : Word, fieldOP w = 0xD → w.extractLsb' 0 28 ≠ 0 → ∃ e, decode w = .error e)

/-- The value R187 gives for an axis: (raw - 131072) over 131072. -/
def magUnit (bs : List Byte) (j : Nat) (low : FieldSpec) : F64 :=
  f64Div (f64OfInt ((magNumber bs j low : Int) - 131072)) (f64OfInt 131072)

/-- R187: MXYZ makes its own seven READs and answers each raw value minus 131072 over 131072, in binary64;
TransportError at the first failed READ; no state is written; other bits set are illegal. -/
def Obligations.MxyzFollowsItsRule : Prop :=
  (∀ (s : State) (rest : List Input) (bs : List Byte), s.seq = .idle →
    (bs.length = 7 → s.inputs = okAnswers bs ++ rest → exec .mxyz s = .next (s.ended s.startCache rest
      (.response ⟨.ok, .f64s ⟨magUnit bs 0 s.cfg.magLow.x, magUnit bs 1 s.cfg.magLow.y, magUnit bs 2 s.cfg.magLow.z⟩⟩ ::
        readEvents s.dev s.cfg.wiring.magData 0 bs))) ∧
    (∀ e, bs.length < 7 → s.inputs = okAnswers bs ++ .answer (.err e) :: rest →
      exec .mxyz s = .next (s.ended s.startCache rest (.response ⟨.transportError, .datum e⟩ ::
        .transaction (.read s.dev (s.cfg.wiring.magData + BitVec.ofNat 8 bs.length)) (.err e) ::
        readEvents s.dev s.cfg.wiring.magData 0 bs)))) ∧
  decode 0xE0000000 = .ok .mxyz ∧
  (∀ w : Word, fieldOP w = 0xE → w.extractLsb' 0 28 ≠ 0 → ∃ e, decode w = .error e)

/-! ### Every command -/

/-- An entry's value lies in the range of its type (R163, R220). -/
def entryRange (e : Entry) (v : Int) : Prop :=
  if entrySigned e then -2 ^ (8 * entryBytes e - 1) ≤ v ∧ v < 2 ^ (8 * entryBytes e - 1)
  else 0 ≤ v ∧ v < 2 ^ (8 * entryBytes e)

/-- The payload R220 gives the command for status OK, and R221 for the errors the command can raise. -/
def payloadFits (i : Instr) (r : Response) : Prop :=
  match r.status, i with
  | .ok, .fspec _ _ => ∃ d, r.payload = .descriptor d
  | .ok, .brd _ | .ok, .fget _ _ _ => ∃ v, r.payload = .byte v
  | .ok, .bwr _ _ | .ok, .bwc _ | .ok, .bms _ _ _ | .ok, .fset _ _ _ _ | .ok, .sacc _ | .ok, .sgyr _ => r.payload = .none
  | .ok, .mrd _ _ layout => ∃ vs, r.payload = .ints vs ∧ List.Forall₂ entryRange layout vs
  | .ok, .racc _ | .ok, .rgyr | .ok, .mxyz => ∃ x, r.payload = .f64s x
  | .ok, .mraw => ∃ x, r.payload = .u18s x
  | .invalidFieldSpec, .fspec h l | .invalidFieldSpec, .fget _ h l | .invalidFieldSpec, .fset _ h l _ =>
    r.payload = .bounds h l
  | .addressRange, .mrd a n _ => r.payload = .range a n
  | .layoutMismatch, .mrd _ n layout => r.payload = .lengths n (layoutBytes layout)
  | .unsupportedScale, .sacc v | .unsupportedScale, .sgyr v => r.payload = .scale v
  | .transportError, .fspec _ _ => False
  | .transportError, _ => ∃ e, r.payload = .datum e
  | _, _ => False

/-- R220, R221: a command ends in exactly one response, its payload the one its status and the command call for, unless
it is left waiting for an answer; all it adds to the observation besides are its own transactions. -/
def Obligations.CommandEndsInOneResponse : Prop :=
  ∀ (i : Instr) (s t : State), exec i s = .next t → ∃ es,
    (∀ e ∈ es, isRead e = true ∨ isWrite e = true) ∧
    ((t.seq = .idle ∧ ∃ r, payloadFits i r ∧ t.trace = .response r :: es ++ s.trace) ∨
     (t.seq ≠ .idle ∧ noAnswerFirst t.inputs = true ∧ t.trace = es ++ s.trace))

/-- R265, R270: if the transport answers fifteen requests, every command ends, whatever the answers. -/
def Obligations.CommandEndsIfTheTransportAnswers : Prop :=
  ∀ (i : Instr) (s : State) (as : List Answer) (rest : List Input), s.seq = .idle →
    s.inputs = as.map .answer ++ rest → 15 ≤ as.length → ∃ t, exec i s = .next t ∧ t.seq = .idle

/-- R28, R52: when the answers come makes no difference: a command left waiting goes on with the next answer exactly as
it would have done had the answer been there (the model's cut of a command into steps, assumption 8). -/
def Obligations.AnswersMayComeLater : Prop :=
  ∀ (i : Instr) (s t : State) (as : List Answer) (a : Answer) (rest : List Input),
    exec i { s with inputs := as.map .answer } = .next t → t.seq ≠ .idle →
    exec i { s with inputs := as.map .answer ++ .answer a :: rest } = step { t with inputs := .answer a :: rest }

/-- R28, R41: a command that is left BUSY waits for a request of its own rule, its local values as the rule has them, and
only because no answer is there. -/
def Obligations.BusyCommandWaitsForItsOwnRequest : Prop :=
  ∀ (i j : Instr) (w : Waiting) (s t : State), exec i s = .next t → t.seq = .busy j w →
    j = i ∧ waitsAt s.cfg i w ∧ w.fits t ∧ noAnswerFirst t.inputs = true

/-- R22, R160, R20: a command writes no cache entry but the one it names, and the commands that name none leave the cache
as they found it; no command changes the configuration; only BWR makes a draw (assumption 4). -/
def Obligations.CommandsWriteOnlyTheirEntry : Prop :=
  ∀ (i : Instr) (s t : State), exec i s = .next t →
    (∀ b, entryOf s.cfg i ≠ some b → t.entry b = s.startEntry b) ∧
    (entryOf s.cfg i = none → t.cache = s.startCache) ∧ t.cfg = s.cfg ∧
    (t.draws = s.draws ∨ ∃ a v, i = .bwr a v ∧ t.draws = s.draws + 1)

/-- R24: only SACC writes ACC_DIV and only SGYR writes GYR_DIV, with the divisor of the scale they ask for, and only in a
command that ends. -/
def Obligations.OnlyScaleSettersWriteDivisors : Prop :=
  ∀ (i : Instr) (s t : State), exec i s = .next t →
    (t.accDiv = s.accDiv ∨ ∃ v, i = .sacc v ∧ v.toNat ∈ [2, 4, 8, 16] ∧ t.accDiv.toNat * v.toNat = 32768 ∧ t.seq = .idle) ∧
    (t.gyrDiv = s.gyrDiv ∨ ∃ v, i = .sgyr v ∧ v.toNat ∈ [16, 32, 64, 128, 256, 512, 1024] ∧
      t.gyrDiv.toNat * v.toNat = 32768 ∧ t.seq = .idle)

/-- How many READs and WRITEs R126 and R143 give a command that ends without a transport failure. -/
def requestCounts (i : Instr) (valid : Bool) : Nat × Nat :=
  let fill := if valid then 0 else 1
  match i with
  | .brd _ => (1, 0)
  | .bwr _ _ => (0, 1)
  | .bwc _ => (fill, 1)
  | .bms _ _ _ => (fill, 0)
  | .fget _ h l => if l.toNat ≤ h.toNat ∧ h.toNat ≤ 7 then (fill, 0) else (0, 0)
  | .fset _ h l _ => if l.toNat ≤ h.toNat ∧ h.toNat ≤ 7 then (fill, 1) else (0, 0)
  | _ => (0, 0)

/-- From R126 and R143: how many READs and how many WRITEs BRD, BWR, BWC, BMS, FGET and FSET make, by whether the entry is
valid at the start; a failure ends the command after the failed request, so that one is the last. The order of a READ and
a WRITE is stated in BwcFollowsItsRule and FsetFollowsItsRule. -/
def Obligations.RequestCountsOfCacheCommands : Prop :=
  ∀ (i : Instr) (a : Byte) (s t : State) (es : List Event),
    i = .brd a ∨ (∃ v, i = .bwr a v) ∨ i = .bwc a ∨ (∃ m b, i = .bms a m b) ∨ (∃ h l, i = .fget a h l) ∨
      (∃ h l v, i = .fset a h l v) →
    exec i s = .next t → t.seq = .idle → t.trace = es ++ s.trace →
    ((∀ r e, .transaction r (.err e) ∉ es) →
      (es.countP isRead, es.countP isWrite) = requestCounts i (s.startEntry a).isSome) ∧
    (∀ r e, .transaction r (.err e) ∈ es → ∃ es', es =
      .response ⟨.transportError, .datum e⟩ :: .transaction r (.err e) :: es' ∧ ∀ r' e', .transaction r' (.err e') ∉ es')

/-- R124, R260: a command that uses a cached byte makes a READ only if the entry is invalid. -/
def Obligations.ValidEntryIsNotReadAgain : Prop :=
  ∀ (i : Instr) (a : Byte) (s t : State) (es : List Event), usesEntry i = true → entryOf s.cfg i = some a →
    (s.startEntry a).isSome = true → exec i s = .next t → t.trace = es ++ s.trace → ∀ e ∈ es, isRead e = false

/-- R125: after a command ends OK with a WRITE, the entry holds the byte written; after BRD or FGET ends OK with a READ,
the byte read; after BMS it is valid. -/
def Obligations.EntryAfterSuccess : Prop :=
  ∀ (i : Instr) (a : Byte) (p : Payload) (s t : State) (es : List Event), entryOf s.cfg i = some a → exec i s = .next t →
    (∀ v x, t.trace = .response ⟨.ok, p⟩ :: .transaction (.write s.dev a v) (.ok x) :: es ++ s.trace →
      t.entry a = some v) ∧
    (∀ d, t.trace = .response ⟨.ok, p⟩ :: .transaction (.read s.dev a) (.ok d) :: es ++ s.trace →
      i = .brd a ∨ (∃ h l, i = .fget a h l) → t.entry a = some d) ∧
    (∀ m b, i = .bms a m b → t.trace = .response ⟨.ok, p⟩ :: es ++ s.trace → (t.entry a).isSome = true)

/-- R124 (a), (b): after a failed READ the entry is as the command found it; after a failed WRITE of BWR it is that or the
value tried; after any other failed WRITE it holds the value tried. -/
def Obligations.EntryAfterTransportFailure : Prop :=
  ∀ (i : Instr) (a : Byte) (e : Nat) (p : Payload) (s t : State) (es : List Event), entryOf s.cfg i = some a →
    exec i s = .next t →
    (t.trace = .response ⟨.transportError, p⟩ :: .transaction (.read s.dev a) (.err e) :: es ++ s.trace →
      t.entry a = s.startEntry a) ∧
    (∀ v, t.trace = .response ⟨.transportError, p⟩ :: .transaction (.write s.dev a v) (.err e) :: es ++ s.trace →
      t.entry a = some v ∨ ((∃ u, i = .bwr a u) ∧ t.entry a = s.startEntry a))

/-- R160, R262, D11: what MRD, RACC, RGYR, MRAW and MXYZ answer and ask does not depend on the cache. -/
def Obligations.MultiByteCommandsIgnoreTheCache : Prop :=
  ∀ (i : Instr) (s t : State) (c : Memory), isMultiByte i = true → exec i s = .next t →
    exec i { s with cache := c } = .next { t with cache := State.startCache { s with cache := c } }

/-! ### Equivalences and the round trip -/

/-- R70 (a), with P_CACHE_PERSIST = true (a premise of the model's reading, assumption 11): where BMS of the field's mask
and bits ends OK and BWC after it ends, FSET makes the same requests, leaves the same state and gives BWC's response. -/
def Obligations.FsetIsBmsThenBwc : Prop :=
  ∀ (a v : Byte) (h l : BitVec 4) (s u t : State) (es fs : List Event), s.cfg.cachePersist = true →
    l.toNat ≤ h.toNat ∧ h.toNat ≤ 7 →
    exec (.bms a (maskOf h l) (v <<< l.toNat)) s = .next u → u.seq = .idle →
    u.trace = .response ⟨.ok, .none⟩ :: es ++ s.trace →
    exec (.bwc a) u = .next t → t.seq = .idle → t.trace = fs ++ u.trace →
    exec (.fset a h l v) s = .next { t with trace := fs ++ es ++ s.trace }

/-- R70 (b): where FSET of an allowed scale's code into the scale field ends, SACC of the scale makes the same requests,
leaves the same cache and gives the same response, and then writes ACC_DIV if that response is OK. -/
def Obligations.SaccIsFsetThenDivisor : Prop :=
  ∀ (k : Nat) (v : BitVec 16) (s t : State) (p : Payload) (es : List Event), [2, 4, 8, 16][k]? = some v.toNat →
    exec (.fset s.cfg.wiring.accFs.reg s.cfg.wiring.accFs.field.hi s.cfg.wiring.accFs.field.lo (BitVec.ofNat 8 k)) s
      = .next t → t.seq = .idle →
    (t.trace = .response ⟨.ok, p⟩ :: es ++ s.trace →
      exec (.sacc v) s = .next { t with accDiv := BitVec.ofNat 16 (32768 / v.toNat) }) ∧
    (t.trace = .response ⟨.transportError, p⟩ :: es ++ s.trace → exec (.sacc v) s = .next t)

/-- R70 (b) for SGYR and GYR_DIV. -/
def Obligations.SgyrIsFsetThenDivisor : Prop :=
  ∀ (k : Nat) (v : BitVec 16) (s t : State) (p : Payload) (es : List Event),
    [16, 32, 64, 128, 256, 512, 1024][k]? = some v.toNat →
    exec (.fset s.cfg.wiring.gyrFs.reg s.cfg.wiring.gyrFs.field.hi s.cfg.wiring.gyrFs.field.lo (BitVec.ofNat 8 k)) s
      = .next t → t.seq = .idle →
    (t.trace = .response ⟨.ok, p⟩ :: es ++ s.trace →
      exec (.sgyr v) s = .next { t with gyrDiv := BitVec.ofNat 16 (32768 / v.toNat) }) ∧
    (t.trace = .response ⟨.transportError, p⟩ :: es ++ s.trace → exec (.sgyr v) s = .next t)

/-- R142 with P_CACHE_PERSIST = true (assumption 11): from a register that holds v, FSET of x into a field and then FGET
of it answers x mod 2^width with no request; the byte written has x's bits in the field and v's outside. -/
def Obligations.FieldRoundTrip : Prop :=
  ∀ (a v x y : Byte) (h l : BitVec 4) (s : State) (rest : List Input), s.seq = .idle → s.cfg.cachePersist = true →
    l.toNat ≤ h.toNat ∧ h.toNat ≤ 7 →
    (s.entry a = some v ∧ s.inputs = .answer (.ok y) :: rest) ∨
      (s.entry a = none ∧ s.inputs = .answer (.ok v) :: .answer (.ok y) :: rest) →
    ∃ (t : State) (b : Byte) (es : List Event), exec (.fset a h l x) s = .next t ∧
      t.trace = .response ⟨.ok, .none⟩ :: .transaction (.write s.dev a b) (.ok y) :: es ∧
      (∀ k, k < 8 → b.getLsbD k = if l.toNat ≤ k ∧ k ≤ h.toNat then x.getLsbD (k - l.toNat) else v.getLsbD k) ∧
      exec (.fget a h l) t = .next { t with
        trace := .response ⟨.ok, .byte (BitVec.ofNat 8 (x.toNat % 2 ^ (h.toNat - l.toNat + 1)))⟩ :: t.trace }

/-! ### Invariants of every step -/

/-- R21, R24, R28: the canonical cache, legal divisors and a sequencer at a point of one command's rule are kept by every
step, from every state that has them. -/
def Obligations.StepKeepsTheInvariant : Prop := ∀ s t : State, s.Inv → step s = .next t → t.Inv

/-- R30: the invariant holds after reset, whatever the configuration. -/
def Obligations.InvariantHoldsAfterReset : Prop := (∀ c, (State.resetWith c).Inv) ∧ State.reset.Inv

/-- R24: SACC and SGYR can only put a legal value in the divisor registers, so they never hold any other; this needs
nothing else of the state. -/
def Obligations.DivisorsStayLegal : Prop := ∀ s t : State, s.divisorsLegal → step s = .next t → t.divisorsLegal

/-- R20, R253: no step changes the configuration. -/
def Obligations.ConfigurationIsFixed : Prop := ∀ s t : State, step s = .next t → t.cfg = s.cfg

/-- R44: a step only adds to the observation, and takes moves of the environment only from the front, in their order
(the form of both is the model's, assumptions 2 and 6). -/
def Obligations.ObservationOnlyGrows : Prop :=
  ∀ s t : State, step s = .next t → (∃ es, t.trace = es ++ s.trace) ∧ ∃ ins, s.inputs = ins ++ t.inputs

/-! ### Scales and numbers (44_scale_conversion.md) -/

/-- R180, R181: the scales are the listed values, a scale's code is its index, its divisor is 32768 / s exactly; the
gyroscope code 7 is never written. -/
def Obligations.ScaleTables : Prop :=
  (∀ v : BitVec 16, accScaleOf v = none ↔ v.toNat ∉ [2, 4, 8, 16]) ∧
  (∀ (v : BitVec 16) sc, accScaleOf v = some sc → [2, 4, 8, 16][(accCode sc).toNat]? = some v.toNat ∧
    (accDivisor sc).toNat * v.toNat = 32768) ∧
  (∀ v : BitVec 16, gyrScaleOf v = none ↔ v.toNat ∉ [16, 32, 64, 128, 256, 512, 1024]) ∧
  (∀ (v : BitVec 16) sc, gyrScaleOf v = some sc →
    [16, 32, 64, 128, 256, 512, 1024][(gyrCode sc).toNat]? = some v.toNat ∧
    (gyrDivisor sc).toNat * v.toNat = 32768 ∧ (gyrCode sc).toNat ≠ 7)

/-- R189: G_STD and K_GYR are the binary64 numbers nearest to 9.80665 and 0.01745329, with the exact values given. -/
def Obligations.ConstantsAreNearest : Prop :=
  gStd = rne64 false 980665 100000 ∧ kGyr = rne64 false 1745329 100000000 ∧
  gStd = 0x40239D013A92A305 ∧ kGyr = 0x3F91DF467707C94D ∧
  f64Value gStd = 98066499999999994230392985627986490726470947265625 / 10 ^ 49 ∧
  f64Value kGyr = 174532899999999997764366099772814777679741382598876953125 / 10 ^ 58

/-- R11: rne64 gives a nearest finite binary64 number to the rational, and of two equally near ones the one with the even
fraction. -/
def Obligations.RoundingIsToNearestEven : Prop :=
  ∀ (neg : Bool) (num den : Nat) (y : F64), 0 < den → f64IsFinite (rne64 neg num den) = true → f64IsFinite y = true →
    let x : ℚ := (if neg then -1 else 1) * (num / den)
    |f64Value (rne64 neg num den) - x| ≤ |f64Value y - x| ∧
    (|f64Value (rne64 neg num den) - x| = |f64Value y - x| → f64Value y ≠ f64Value (rne64 neg num den) →
      (rne64 neg num den).getLsbD 0 = false)

/-- R11: on finite operands (a divisor that is not zero) *64 and /64 compute exactly and round once. -/
def Obligations.OperationsRoundTheExactResult : Prop :=
  ∀ a b : F64, f64IsFinite a = true → f64IsFinite b = true →
    (∃ neg num den, 0 < den ∧ f64Mul a b = rne64 neg num den ∧
      ((if neg then -1 else 1) * (num / den) : ℚ) = f64Value a * f64Value b) ∧
    (f64IsZero b = false → ∃ neg num den, 0 < den ∧ f64Div a b = rne64 neg num den ∧
      ((if neg then -1 else 1) * (num / den) : ℚ) = f64Value a / f64Value b)

/-- R11: integers up to 2^53 are converted exactly. -/
def Obligations.IntegersConvertExactly : Prop :=
  ∀ z : Int, z.natAbs ≤ 2 ^ 53 → f64IsFinite (f64OfInt z) = true ∧ f64Value (f64OfInt z) = z

/-- R188: an integer of at most 18 bits over a power of two up to 2^17 is exact. -/
def Obligations.DivisionsAreExact : Prop :=
  ∀ (r : Int) (k : Nat), r.natAbs < 2 ^ 18 → k ≤ 17 →
    f64IsFinite (f64Div (f64OfInt r) (f64OfInt (2 ^ k))) = true ∧
    f64Value (f64Div (f64OfInt r) (f64OfInt (2 ^ k))) = r / 2 ^ k

/-- R188: dividing first and multiplying then rounds as the one product r * c does, scaled by 2^-k. -/
def Obligations.OnlyTheMultiplicationRounds : Prop :=
  ∀ (r : Int) (k : Nat) (c : F64), r.natAbs < 2 ^ 18 → k ≤ 17 → c = gStd ∨ c = kGyr →
    f64Value (f64Mul (f64Div (f64OfInt r) (f64OfInt (2 ^ k))) c) = f64Value (f64Mul (f64OfInt r) c) / 2 ^ k

/-- A binary64 that is finite, no negative zero and not subnormal. -/
def plainNumber (x : F64) : Prop := f64IsFinite x = true ∧ x ≠ f64Zero true ∧ (f64Exp x = 0 → x = f64Zero false)

/-- R188: with legal divisors no result of RACC, RGYR or MXYZ is negative zero, infinite, NaN or subnormal. -/
def Obligations.ReadoutsArePlainNumbers : Prop :=
  (∀ (d : BitVec 16) (m : Bool) (buf : List Byte) (j : Nat), d ∈ accDivisors → plainNumber (accelAxis d m (s16At buf j))) ∧
  (∀ (d : BitVec 16) (buf : List Byte) (j : Nat), d ∈ gyrDivisors → plainNumber (gyroAxis d (s16At buf j))) ∧
  (∀ r : BitVec 18, plainNumber (magNormAxis r))

/-- R187: a normalised axis is exactly (r - 131072) / 131072, so it lies in [-1, 1) and is never 1.0. -/
def Obligations.MagnetometerAxesAreNormalised : Prop :=
  ∀ r : BitVec 18, f64Value (magNormAxis r) = ((r.toNat : ℚ) - 131072) / 131072 ∧
    -1 ≤ f64Value (magNormAxis r) ∧ f64Value (magNormAxis r) < 1

/-! ### Reset inside a command (70_reset_and_hazards.md) -/

/-- R251, R28: reset can also strike a BUSY command while it has no request in flight. Before the first request, and for a
command that makes none before its response, it gives the reset state with no request and no response, whatever the word;
between an answer and the next request or the response likewise, the answered transaction recorded. The two moves' form,
and that they reach every word, an illegal one too, is the model's choice (assumptions 2 and 18). -/
def Obligations.ResetStrikesInsideACommand : Prop :=
  ∀ (s : State) (rest : List Input),
    (∀ w, s.seq = .idle → s.inputs = .commandReset w :: rest → step s = .next { s with
      cache := [], accDiv := 1, gyrDiv := 1, inputs := rest, trace := [.reset, .command w] ++ s.trace }) ∧
    (∀ i w a, s.seq = .busy i w → s.inputs = .answerReset a :: rest → step s = .next { s with
      cache := [], accDiv := 1, gyrDiv := 1, seq := .idle, inputs := rest,
      trace := [.reset, .transaction (w.request s.dev) a] ++ s.trace })

/-- R251, R28: a run can be reset after any of a command's answers. Where a command left to the answers as is BUSY, the
answer after them with reset upon it is left to the next step, which ends the command with the same transactions, the last
one complete, no response and the reset state. -/
def Obligations.ResetAfterAnyAnswer : Prop :=
  ∀ (i : Instr) (s t : State) (as : List Answer) (a : Answer) (rest : List Input),
    exec i { s with inputs := as.map .answer } = .next t → t.seq ≠ .idle →
    exec i { s with inputs := as.map .answer ++ .answerReset a :: rest } =
      .next { t with inputs := .answerReset a :: rest } ∧
    ∃ r, step { t with inputs := .answerReset a :: rest } = .next { s with
      cache := [], accDiv := 1, gyrDiv := 1, seq := .idle, inputs := rest,
      trace := [.reset, .transaction r a] ++ t.trace }
end

