-- ==== Sys2Proof/Laws/Encoding.lean ====
section
/-! SUPPORT. The fields of a word put together by place: each reads back as it was put, and no other field shows in
it. -/

namespace Sys2Proof

/-- A field read where it was put. -/
theorem extract_place_same {n : Nat} (v : BitVec n) (k : Nat) (h : k + n ≤ 32) : (place v k).extractLsb' k n = v := by
  apply BitVec.eq_of_getLsbD_eq
  intro i hi
  simp only [place, BitVec.getLsbD_extractLsb', BitVec.getLsbD_shiftLeft, BitVec.getLsbD_setWidth]
  simp [hi, show k + i < 32 by omega, show i < 32 by omega]

/-- A field read away from where it was put. -/
theorem extract_place_other {n : Nat} (v : BitVec n) (k j m : Nat) (h : j + m ≤ k ∨ k + n ≤ j) :
    (place v k).extractLsb' j m = 0 := by
  apply BitVec.eq_of_getLsbD_eq
  intro i hi
  simp only [place, BitVec.getLsbD_extractLsb', BitVec.getLsbD_shiftLeft, BitVec.getLsbD_setWidth]
  rcases h with h | h
  · simp [show j + i < k by omega]
  · simp [BitVec.getLsbD_of_ge v (j + i - k) (by omega)]

/-- A field of two words put together. -/
theorem extract_or (x y : Word) (j m : Nat) : (x ||| y).extractLsb' j m = x.extractLsb' j m ||| y.extractLsb' j m := by
  apply BitVec.eq_of_getLsbD_eq
  intro i hi
  simp [hi]

theorem fieldOP_or (x y : Word) : fieldOP (x ||| y) = fieldOP x ||| fieldOP y := extract_or x y 28 4

theorem fieldOP_place (op : BitVec 4) : fieldOP (place op 28) = op := extract_place_same op 28 (by decide)

theorem fieldOP_place_low {n : Nat} (v : BitVec n) (k : Nat) (h : k + n ≤ 28) : fieldOP (place v k) = 0 :=
  extract_place_other v k 28 4 (.inr h)

end Sys2Proof
end

