-- ==== Sys2Proof/Laws/Memory.lean ====
section
/-! SUPPORT. The laws of the cache array: a read after a write, and the canonical form. -/

namespace Sys2Proof.Machine

@[simp] theorem memory_read_nil (a : Nat) : Memory.read [] a = none := rfl

theorem memory_read_write_same (m : Memory) (a : Nat) (v : Byte) : (m.write a v).read a = some v := by
  induction m with
  | nil => simp [Memory.write, Memory.read]
  | cons c m ih =>
    unfold Memory.write
    split
    · simp [Memory.read]
    · split
      · simp [Memory.read]
      · next h => simp [Memory.read, Ne.symm h, ih]

theorem memory_read_write_other (m : Memory) {a b : Nat} (v : Byte) (h : b ≠ a) :
    (m.write a v).read b = m.read b := by
  induction m with
  | nil => simp [Memory.write, Memory.read, h.symm]
  | cons c m ih =>
    unfold Memory.write
    split
    · simp [Memory.read, h.symm]
    · split
      · next hc => simp [Memory.read, h.symm, hc ▸ h.symm]
      · simp [Memory.read, ih]

theorem memory_mem_write {m : Memory} {a : Nat} {v : Byte} {c : Host.Cell} (h : c ∈ m.write a v) :
    c = (a, v) ∨ c ∈ m := by
  induction m with
  | nil => simpa [Memory.write] using h
  | cons d m ih =>
    unfold Memory.write at h
    split at h
    · simpa using h
    · split at h
      · rcases List.mem_cons.1 h with h | h
        · exact .inl h
        · exact .inr (List.mem_cons_of_mem _ h)
      · rcases List.mem_cons.1 h with h | h
        · exact .inr (h ▸ List.mem_cons_self ..)
        · exact (ih h).imp id (List.mem_cons_of_mem _)

theorem memory_wf_nil : Memory.wf [] := ⟨List.Pairwise.nil, fun _ h => nomatch h⟩

/-- Storing keeps the canonical form. -/
theorem memory_wf_write {m : Memory} {a : Nat} (v : Byte) (ha : a < 256) (h : m.wf) : (m.write a v).wf := by
  refine ⟨?_, fun c hc => ?_⟩
  · induction m with
    | nil => simp [Memory.write]
    | cons c m ih =>
      obtain ⟨hp, hb⟩ := h
      have hm : Memory.wf m := ⟨(List.pairwise_cons.1 hp).2, fun d hd => hb d (List.mem_cons_of_mem _ hd)⟩
      have hc : ∀ d ∈ m, c.1 < d.1 := (List.pairwise_cons.1 hp).1
      unfold Memory.write
      split
      · next hlt =>
        exact List.pairwise_cons.2 ⟨fun d hd => by
          rcases List.mem_cons.1 hd with rfl | hd
          · exact hlt
          · exact lt_trans hlt (hc d hd), hp⟩
      · split
        · next heq => exact List.pairwise_cons.2 ⟨fun d hd => heq ▸ hc d hd, hm.1⟩
        · next hlt hne =>
          refine List.pairwise_cons.2 ⟨fun d hd => ?_, ih hm⟩
          rcases memory_mem_write hd with rfl | hd
          · show c.1 < a; omega
          · exact hc d hd
  · rcases memory_mem_write hc with rfl | hc
    · exact ha
    · exact h.2 c hc

/-- Two arrays in canonical form that read alike are equal data. -/
theorem memory_ext {m n : Memory} (hm : m.wf) (hn : n.wf) (h : ∀ a, m.read a = n.read a) : m = n := by
  have read_none : ∀ (m : Memory) (a : Nat), (∀ c ∈ m, a < c.1) → m.read a = none := by
    intro m a
    induction m with
    | nil => intro _; rfl
    | cons c m ih =>
      intro hlt
      have := hlt c (List.mem_cons_self ..)
      simp only [Memory.read, if_neg (show ¬ c.1 = a by omega)]
      exact ih fun d hd => hlt d (List.mem_cons_of_mem _ hd)
  induction m generalizing n with
  | nil =>
    cases n with
    | nil => rfl
    | cons c n => have := h c.1; simp [Memory.read] at this
  | cons c m ih =>
    cases n with
    | nil => have := h c.1; simp [Memory.read] at this
    | cons d n =>
      have hc := (List.pairwise_cons.1 hm.1).1
      have hd := (List.pairwise_cons.1 hn.1).1
      have hcd : c.1 = d.1 := by
        rcases lt_trichotomy c.1 d.1 with hlt | heq | hgt
        · have h1 := h c.1
          rw [read_none (d :: n) c.1 (fun e he => by
            rcases List.mem_cons.1 he with rfl | he
            · exact hlt
            · exact lt_trans hlt (hd e he))] at h1
          simp [Memory.read] at h1
        · exact heq
        · have h1 := h d.1
          rw [read_none (c :: m) d.1 (fun e he => by
            rcases List.mem_cons.1 he with rfl | he
            · exact hgt
            · exact lt_trans hgt (hc e he))] at h1
          simp [Memory.read] at h1
      have hv : c.2 = d.2 := by have := h c.1; simpa [Memory.read, hcd] using this
      have : m = n := by
        refine ih ⟨(List.pairwise_cons.1 hm.1).2, fun e he => hm.2 e (List.mem_cons_of_mem _ he)⟩
          ⟨(List.pairwise_cons.1 hn.1).2, fun e he => hn.2 e (List.mem_cons_of_mem _ he)⟩ fun a => ?_
        by_cases hca : c.1 = a
        · rw [read_none m a (fun e he => hca ▸ hc e he), read_none n a (fun e he => hca ▸ hcd ▸ hd e he)]
        · have := h a
          simpa [Memory.read, hca, hcd ▸ hca] using this
      rw [Prod.ext hcd hv, this]

end Sys2Proof.Machine
end

