-- ==== Sys2Proof/Laws/State.lean ====
section
/-! SUPPORT. One lemma per field per update of State, each true by rfl. -/

namespace Sys2Proof.Machine

variable (s : State) (e : Event) (a v : Byte) (r : Response) (p : Payload) (st : Status) (i : Instr) (w : Waiting)

@[simp] theorem log_cache : (s.log e).cache = s.cache := rfl
@[simp] theorem log_accDiv : (s.log e).accDiv = s.accDiv := rfl
@[simp] theorem log_gyrDiv : (s.log e).gyrDiv = s.gyrDiv := rfl
@[simp] theorem log_seq : (s.log e).seq = s.seq := rfl
@[simp] theorem log_cfg : (s.log e).cfg = s.cfg := rfl
@[simp] theorem log_inputs : (s.log e).inputs = s.inputs := rfl
@[simp] theorem log_trace : (s.log e).trace = e :: s.trace := rfl
@[simp] theorem log_draws : (s.log e).draws = s.draws := rfl

@[simp] theorem setEntry_cache : (s.setEntry a v).cache = s.cache.write a.toNat v := rfl
@[simp] theorem setEntry_accDiv : (s.setEntry a v).accDiv = s.accDiv := rfl
@[simp] theorem setEntry_gyrDiv : (s.setEntry a v).gyrDiv = s.gyrDiv := rfl
@[simp] theorem setEntry_seq : (s.setEntry a v).seq = s.seq := rfl
@[simp] theorem setEntry_cfg : (s.setEntry a v).cfg = s.cfg := rfl
@[simp] theorem setEntry_inputs : (s.setEntry a v).inputs = s.inputs := rfl
@[simp] theorem setEntry_trace : (s.setEntry a v).trace = s.trace := rfl
@[simp] theorem setEntry_draws : (s.setEntry a v).draws = s.draws := rfl

@[simp] theorem answerHost_cache : (s.answerHost r).cache = s.cache := rfl
@[simp] theorem answerHost_accDiv : (s.answerHost r).accDiv = s.accDiv := rfl
@[simp] theorem answerHost_gyrDiv : (s.answerHost r).gyrDiv = s.gyrDiv := rfl
@[simp] theorem answerHost_seq : (s.answerHost r).seq = .idle := rfl
@[simp] theorem answerHost_cfg : (s.answerHost r).cfg = s.cfg := rfl
@[simp] theorem answerHost_inputs : (s.answerHost r).inputs = s.inputs := rfl
@[simp] theorem answerHost_trace : (s.answerHost r).trace = .response r :: s.trace := rfl
@[simp] theorem answerHost_draws : (s.answerHost r).draws = s.draws := rfl

theorem respond_eq : s.respond p = s.answerHost ⟨.ok, p⟩ := rfl
theorem raise_eq : s.raise st p = s.answerHost ⟨st, p⟩ := rfl

@[simp] theorem respond_cache : (s.respond p).cache = s.cache := rfl
@[simp] theorem respond_accDiv : (s.respond p).accDiv = s.accDiv := rfl
@[simp] theorem respond_gyrDiv : (s.respond p).gyrDiv = s.gyrDiv := rfl
@[simp] theorem respond_seq : (s.respond p).seq = .idle := rfl
@[simp] theorem respond_cfg : (s.respond p).cfg = s.cfg := rfl
@[simp] theorem respond_inputs : (s.respond p).inputs = s.inputs := rfl
@[simp] theorem respond_trace : (s.respond p).trace = .response ⟨.ok, p⟩ :: s.trace := rfl
@[simp] theorem respond_draws : (s.respond p).draws = s.draws := rfl

@[simp] theorem raise_cache : (s.raise st p).cache = s.cache := rfl
@[simp] theorem raise_accDiv : (s.raise st p).accDiv = s.accDiv := rfl
@[simp] theorem raise_gyrDiv : (s.raise st p).gyrDiv = s.gyrDiv := rfl
@[simp] theorem raise_seq : (s.raise st p).seq = .idle := rfl
@[simp] theorem raise_cfg : (s.raise st p).cfg = s.cfg := rfl
@[simp] theorem raise_inputs : (s.raise st p).inputs = s.inputs := rfl
@[simp] theorem raise_trace : (s.raise st p).trace = .response ⟨st, p⟩ :: s.trace := rfl
@[simp] theorem raise_draws : (s.raise st p).draws = s.draws := rfl

@[simp] theorem await_cache : (s.await i w).cache = s.cache := rfl
@[simp] theorem await_accDiv : (s.await i w).accDiv = s.accDiv := rfl
@[simp] theorem await_gyrDiv : (s.await i w).gyrDiv = s.gyrDiv := rfl
@[simp] theorem await_seq : (s.await i w).seq = .busy i w := rfl
@[simp] theorem await_cfg : (s.await i w).cfg = s.cfg := rfl
@[simp] theorem await_inputs : (s.await i w).inputs = s.inputs := rfl
@[simp] theorem await_trace : (s.await i w).trace = s.trace := rfl
@[simp] theorem await_draws : (s.await i w).draws = s.draws := rfl

/-! R29's clearing changes the cache alone. -/

@[simp] theorem beginCommand_accDiv : s.beginCommand.accDiv = s.accDiv := by unfold State.beginCommand; split <;> rfl
@[simp] theorem beginCommand_gyrDiv : s.beginCommand.gyrDiv = s.gyrDiv := by unfold State.beginCommand; split <;> rfl
@[simp] theorem beginCommand_seq : s.beginCommand.seq = s.seq := by unfold State.beginCommand; split <;> rfl
@[simp] theorem beginCommand_cfg : s.beginCommand.cfg = s.cfg := by unfold State.beginCommand; split <;> rfl
@[simp] theorem beginCommand_inputs : s.beginCommand.inputs = s.inputs := by unfold State.beginCommand; split <;> rfl
@[simp] theorem beginCommand_trace : s.beginCommand.trace = s.trace := by unfold State.beginCommand; split <;> rfl
@[simp] theorem beginCommand_draws : s.beginCommand.draws = s.draws := by unfold State.beginCommand; split <;> rfl

theorem beginCommand_cache : s.beginCommand.cache = if s.cfg.cachePersist then s.cache else [] := by
  unfold State.beginCommand; split <;> rfl

theorem beginCommand_eq : s.beginCommand = { s with cache := s.beginCommand.cache } := by
  unfold State.beginCommand; split <;> rfl

/-! The divisor update changes the divisor alone. -/

variable (after : AfterWrite)

@[simp] theorem afterWrite_cache : (afterWrite after s).cache = s.cache := by cases after <;> rfl
@[simp] theorem afterWrite_seq : (afterWrite after s).seq = s.seq := by cases after <;> rfl
@[simp] theorem afterWrite_cfg : (afterWrite after s).cfg = s.cfg := by cases after <;> rfl
@[simp] theorem afterWrite_inputs : (afterWrite after s).inputs = s.inputs := by cases after <;> rfl
@[simp] theorem afterWrite_trace : (afterWrite after s).trace = s.trace := by cases after <;> rfl
@[simp] theorem afterWrite_draws : (afterWrite after s).draws = s.draws := by cases after <;> rfl
@[simp] theorem afterWrite_nothing : afterWrite .nothing s = s := rfl
@[simp] theorem afterWrite_accDiv (sc : AccScale) :
    afterWrite (.accDiv sc) s = { s with accDiv := accDivisor sc } := rfl
@[simp] theorem afterWrite_gyrDiv (sc : GyrScale) :
    afterWrite (.gyrDiv sc) s = { s with gyrDiv := gyrDivisor sc } := rfl

/-! Reset (R250, R251). -/

@[simp] theorem toReset_cache (es : List Event) : (s.toReset es).cache = [] := rfl
@[simp] theorem toReset_accDiv (es : List Event) : (s.toReset es).accDiv = 1 := rfl
@[simp] theorem toReset_gyrDiv (es : List Event) : (s.toReset es).gyrDiv = 1 := rfl
@[simp] theorem toReset_seq (es : List Event) : (s.toReset es).seq = .idle := rfl
@[simp] theorem toReset_cfg (es : List Event) : (s.toReset es).cfg = s.cfg := rfl
@[simp] theorem toReset_inputs (es : List Event) : (s.toReset es).inputs = s.inputs := rfl
@[simp] theorem toReset_draws (es : List Event) : (s.toReset es).draws = s.draws := rfl
@[simp] theorem toReset_trace (es : List Event) : (s.toReset es).trace = .reset :: es ++ s.trace := rfl

/-- Asserting reset is the reset state, the request in flight recorded if there is one. -/
theorem assertReset_cases (s : State) : ∃ es, s.assertReset = s.toReset es ∧
    ((s.seq = .idle ∧ es = []) ∨ ∃ i w, s.seq = .busy i w ∧ es = [.abandoned i (w.request s.cfg.wiring.devAddr)]) := by
  unfold State.assertReset
  split
  · next i w h => exact ⟨_, rfl, .inr ⟨i, w, h, rfl⟩⟩
  · next h => exact ⟨_, rfl, .inl ⟨h, rfl⟩⟩

@[simp] theorem assertReset_cache : s.assertReset.cache = [] := by
  obtain ⟨es, h, -⟩ := assertReset_cases s; rw [h]; rfl
@[simp] theorem assertReset_accDiv : s.assertReset.accDiv = 1 := by
  obtain ⟨es, h, -⟩ := assertReset_cases s; rw [h]; rfl
@[simp] theorem assertReset_gyrDiv : s.assertReset.gyrDiv = 1 := by
  obtain ⟨es, h, -⟩ := assertReset_cases s; rw [h]; rfl
@[simp] theorem assertReset_seq : s.assertReset.seq = .idle := by
  obtain ⟨es, h, -⟩ := assertReset_cases s; rw [h]; rfl
@[simp] theorem assertReset_cfg : s.assertReset.cfg = s.cfg := by
  obtain ⟨es, h, -⟩ := assertReset_cases s; rw [h]; rfl
@[simp] theorem assertReset_inputs : s.assertReset.inputs = s.inputs := by
  obtain ⟨es, h, -⟩ := assertReset_cases s; rw [h]; rfl
@[simp] theorem assertReset_draws : s.assertReset.draws = s.draws := by
  obtain ⟨es, h, -⟩ := assertReset_cases s; rw [h]; rfl

end Sys2Proof.Machine
end

