-- ==== Sys2Proof/Laws/Ops.lean ====
section
/-! SUPPORT. For each shared operation, once, everything it can do. -/

namespace Sys2Proof.Machine

/-! ### The cache -/

@[simp] theorem entry_setEntry_same (s : State) (a v : Byte) : (s.setEntry a v).entry a = some v :=
  memory_read_write_same s.cache a.toNat v

theorem entry_setEntry_other (s : State) {a b : Byte} (v : Byte) (h : b ≠ a) :
    (s.setEntry a v).entry b = s.entry b :=
  memory_read_write_other s.cache v fun hn => h (BitVec.eq_of_toNat_eq hn)

/-- Only the cache decides what an entry holds. -/
theorem entry_congr {s t : State} (h : t.cache = s.cache) (a : Byte) : t.entry a = s.entry a := by
  unfold State.entry; rw [h]

theorem startCache_eq (s : State) : s.startCache = if s.cfg.cachePersist then s.cache else [] := beginCommand_cache s

theorem startEntry_of_persist {s : State} (h : s.cfg.cachePersist = true) (a : Byte) : s.startEntry a = s.entry a := by
  simp [State.startEntry, State.beginCommand, h]

theorem startEntry_of_not_persist {s : State} (h : s.cfg.cachePersist = false) (a : Byte) : s.startEntry a = none := by
  simp [State.startEntry, State.beginCommand, h, State.entry]

/-! ### The use of an entry, and the fill step (R124) -/

@[simp] theorem useValue_commit (i : Instr) (a v : Byte) (s : State) :
    useValue i a v .commit s = s.await i (.commit a v .nothing) := rfl

@[simp] theorem useValue_stage (i : Instr) (a v mask bits : Byte) (s : State) :
    useValue i a v (.stage mask bits) s = (s.setEntry a (merge v mask bits)).respond .none := rfl

@[simp] theorem useValue_get (i : Instr) (a v : Byte) (d : Descriptor) (s : State) :
    useValue i a v (.get d) s = s.respond (.byte (fieldOf v d)) := rfl

@[simp] theorem useValue_put (i : Instr) (a v mask bits : Byte) (after : AfterWrite) (s : State) :
    useValue i a v (.put mask bits after) s =
      (s.setEntry a (merge v mask bits)).await i (.commit a (merge v mask bits) after) := rfl

theorem fillThen_valid {s : State} {a v : Byte} (h : s.entry a = some v) (i : Instr) (use : EntryUse) :
    fillThen i a use s = useValue i a v use s := by simp [fillThen, h]

theorem fillThen_invalid {s : State} {a : Byte} (h : s.entry a = none) (i : Instr) (use : EntryUse) :
    fillThen i a use s = s.await i (.fill a use) := by simp [fillThen, h]

/-! ### Runs -/

theorem continueRun_more {got : List Byte} {use : RunUse} (h : got.length < use.count) (i : Instr) (start : Byte)
    (s : State) : continueRun i start got use s = s.await i (.run start got use) := by simp [continueRun, h]

theorem continueRun_done {got : List Byte} {use : RunUse} (h : use.count ≤ got.length) (i : Instr) (start : Byte)
    (s : State) : continueRun i start got use s = s.respond (runPayload s use got) := by
  simp [continueRun, Nat.not_lt.2 h]

/-! ### The answer to a request -/

theorem deliver_ok (i : Instr) (w : Waiting) (d : Byte) (s : State) :
    deliver i w (.ok d) s = onOk i w d (s.log (.transaction (w.request s.cfg.wiring.devAddr) (.ok d))) := rfl

theorem deliver_err (i : Instr) (w : Waiting) (e : Nat) (s : State) :
    deliver i w (.err e) s =
      (cacheAfterFailure w (s.log (.transaction (w.request s.cfg.wiring.devAddr) (.err e)))).raise
        .transportError (.datum e) := rfl

/-- A failed request leaves every field but a BWR's drawn entry and the count of draws (R124). -/
theorem cacheAfterFailure_cases (w : Waiting) (s : State) :
    cacheAfterFailure w s = s ∨
      ∃ a v, w = .store a v ∧ (cacheAfterFailure w s = { s with draws := s.draws + 1 } ∨
        cacheAfterFailure w s = State.setEntry { s with draws := s.draws + 1 } a v) := by
  cases w with
  | store a v =>
    right
    refine ⟨a, v, rfl, ?_⟩
    unfold cacheAfterFailure
    simp only
    split
    · exact .inl rfl
    · exact .inr rfl
  | _ => exact .inl rfl

theorem sequencer_cases (s : State) : s.seq = .idle ∨ ∃ i w, s.seq = .busy i w := by
  cases h : s.seq with
  | idle => exact .inl rfl
  | busy i w => exact .inr ⟨i, w, rfl⟩

/-! ### Running on the answers that are there -/

theorem drive_idle {s : State} (h : s.seq = .idle) (ins : List Input) : drive ins s = { s with inputs := ins } := by
  cases ins with
  | nil => rfl
  | cons x xs => cases x <;> simp [drive, h]

theorem drive_noAnswer {ins : List Input} (h : noAnswerFirst ins = true) (s : State) :
    drive ins s = { s with inputs := ins } := by
  cases ins with
  | nil => rfl
  | cons x xs => cases x <;> simp_all [drive, noAnswerFirst]

theorem drive_answer {s : State} {i : Instr} {w : Waiting} (h : s.seq = .busy i w) (a : Answer) (ins : List Input) :
    drive (.answer a :: ins) s = drive ins (deliver i w a s) := by simp [drive, h]

/-- What every answer keeps, and what does not speak of the inputs, a drive keeps. -/
theorem drive_keeps (P : State → Prop) (hin : ∀ s ins, P s → P { s with inputs := ins })
    (hdel : ∀ s i w a, s.seq = .busy i w → P s → P (deliver i w a s)) :
    ∀ ins s, P s → P (drive ins s) := by
  intro ins
  induction ins with
  | nil => exact fun s h => hin s [] h
  | cons x xs ih =>
    intro s h
    cases x with
    | answer a =>
      cases hs : s.seq with
      | idle => rw [drive_idle hs]; exact hin s _ h
      | busy i w => rw [drive_answer hs]; exact ih _ (hdel s i w a hs h)
    | command w => exact hin s _ h
    | commandReset w => exact hin s _ h
    | reset => exact hin s _ h
    | answerReset a => exact hin s _ h

/-- What a command does does not depend on the moves that are left. -/
theorem deliver_inputs (i : Instr) (w : Waiting) (a : Answer) (s : State) (ins : List Input) :
    deliver i w a { s with inputs := ins } = { deliver i w a s with inputs := ins } := by
  cases a with
  | ok d =>
    cases w with
    | fill a use => cases use <;> rfl
    | commit a v after => cases after <;> rfl
    | run start got use =>
      simp only [deliver, onOk, continueRun]
      split
      · rfl
      · cases use <;> rfl
    | _ => rfl
  | err e =>
    cases w with
    | store a v =>
      cases h : Config.failedWriteKeepsEntry s.draws <;> simp only [deliver, cacheAfterFailure, State.log, h] <;> rfl
    | _ => rfl

/-- A drive replaces the moves that are left, so those it starts from make no difference. -/
theorem drive_inputs (xs : List Input) (s : State) (ins : List Input) :
    drive xs { s with inputs := ins } = drive xs s := by
  induction xs generalizing s with
  | nil => rfl
  | cons x xs ih =>
    cases x with
    | answer a =>
      rcases sequencer_cases s with hs | ⟨i, w, hs⟩
      · simp [drive, hs]
      · have h := drive_answer (s := { s with inputs := ins }) hs a xs
        rw [h, deliver_inputs, ih, drive_answer hs]
    | command w => rfl
    | commandReset w => rfl
    | reset => rfl
    | answerReset a => rfl

/-- A drive splits at any point of the answers: when they come makes no difference. -/
theorem drive_append (as : List Answer) (ins : List Input) (s : State)
    (h : ∃ i w, (drive (as.map .answer) s).seq = .busy i w) :
    drive (as.map .answer ++ ins) s = drive ins (drive (as.map .answer) s) := by
  induction as generalizing s with
  | nil => exact (drive_inputs ins s []).symm
  | cons a as ih =>
    cases hs : s.seq with
    | idle =>
      obtain ⟨i, w, h⟩ := h
      rw [drive_idle hs] at h
      simp [hs] at h
    | busy i w =>
      simp only [List.map_cons, List.cons_append]
      rw [drive_answer hs, drive_answer hs]
      refine ih _ ?_
      simpa only [List.map_cons, drive_answer hs] using h

/-! ### A command -/

theorem runCommand_idle {s : State} (h : s.seq = .idle) (body : State → State) :
    runCommand body s = .next (drive s.inputs (body s.beginCommand)) := by simp [runCommand, h]

theorem runCommand_busy {s : State} (h : s.seq ≠ .idle) (body : State → State) :
    runCommand body s = .refused .commandWhileBusy := by simp [runCommand, h]

/-- If a command answers a next state, the block was IDLE and the state is that of its body, driven. -/
theorem runCommand_next {body : State → State} {s t : State} (h : runCommand body s = .next t) :
    s.seq = .idle ∧ t = drive s.inputs (body s.beginCommand) := by
  by_cases hs : s.seq = .idle
  · rw [runCommand_idle hs] at h
    exact ⟨hs, by injection h with h; exact h.symm⟩
  · rw [runCommand_busy hs] at h
    cases h

end Sys2Proof.Machine
end

