-- ==== Sys2Proof/Laws/PerInstr.lean ====
section
/-! SUPPORT. The family EncodeOpcode: the word of a command carries its opcode in bits 31:28 (spec/30_encoding.md R60,
R61), one lemma per constructor. -/

namespace Sys2Proof.Laws.EncodeOpcode

/-- R61's opcode map. -/
def opOf : Instr → BitVec 4
  | .fspec _ _ => 0x1
  | .brd _ => 0x2
  | .bwr _ _ => 0x3
  | .bwc _ => 0x4
  | .bms _ _ _ => 0x5
  | .fget _ _ _ => 0x6
  | .fset _ _ _ _ => 0x7
  | .mrd _ _ _ => 0x8
  | .sacc _ => 0x9
  | .sgyr _ => 0xA
  | .racc _ => 0xB
  | .rgyr => 0xC
  | .mraw => 0xD
  | .mxyz => 0xE

def Statement (i : Instr) : Prop := fieldOP (encode i) = opOf i

/-- Adding a part that lies in bits 27:0 leaves the opcode. -/
theorem fieldOP_or_low {n : Nat} (x : Word) (v : BitVec n) (k : Nat) (h : k + n ≤ 28) :
    fieldOP (x ||| place v k) = fieldOP x := by
  rw [fieldOP_or, fieldOP_place_low v k h]; exact BitVec.or_zero

theorem fspec (h l : BitVec 4) : Statement (.fspec h l) :=
  (fieldOP_or_low _ _ _ (by decide)).trans <| (fieldOP_or_low _ _ _ (by decide)).trans <| fieldOP_place _

theorem brd (a : Byte) : Statement (.brd a) :=
  (fieldOP_or_low _ _ _ (by decide)).trans <| fieldOP_place _

theorem bwr (a v : Byte) : Statement (.bwr a v) :=
  (fieldOP_or_low _ _ _ (by decide)).trans <| (fieldOP_or_low _ _ _ (by decide)).trans <| fieldOP_place _

theorem bwc (a : Byte) : Statement (.bwc a) :=
  (fieldOP_or_low _ _ _ (by decide)).trans <| fieldOP_place _

theorem bms (a mask bits : Byte) : Statement (.bms a mask bits) :=
  (fieldOP_or_low _ _ _ (by decide)).trans <| (fieldOP_or_low _ _ _ (by decide)).trans <|
    (fieldOP_or_low _ _ _ (by decide)).trans <| fieldOP_place _

theorem fget (a : Byte) (h l : BitVec 4) : Statement (.fget a h l) :=
  (fieldOP_or_low _ _ _ (by decide)).trans <| (fieldOP_or_low _ _ _ (by decide)).trans <|
    (fieldOP_or_low _ _ _ (by decide)).trans <| fieldOP_place _

theorem fset (a : Byte) (h l : BitVec 4) (v : Byte) : Statement (.fset a h l v) :=
  (fieldOP_or_low _ _ _ (by decide)).trans <| (fieldOP_or_low _ _ _ (by decide)).trans <|
    (fieldOP_or_low _ _ _ (by decide)).trans <| (fieldOP_or_low _ _ _ (by decide)).trans <| fieldOP_place _

theorem mrd (a : Byte) (n : BitVec 4) (layout : List Entry) : Statement (.mrd a n layout) :=
  (fieldOP_or_low _ _ _ (by decide)).trans <| (fieldOP_or_low _ _ _ (by decide)).trans <|
    (fieldOP_or_low _ _ _ (by decide)).trans <| (fieldOP_or_low _ _ _ (by decide)).trans <|
    (fieldOP_or_low _ _ _ (by decide)).trans <| (fieldOP_or_low _ _ _ (by decide)).trans <|
    (fieldOP_or_low _ _ _ (by decide)).trans <| fieldOP_place _

theorem sacc (v : BitVec 16) : Statement (.sacc v) :=
  (fieldOP_or_low _ _ _ (by decide)).trans <| fieldOP_place _

theorem sgyr (v : BitVec 16) : Statement (.sgyr v) :=
  (fieldOP_or_low _ _ _ (by decide)).trans <| fieldOP_place _

theorem racc (m : Bool) : Statement (.racc m) :=
  (fieldOP_or_low _ _ _ (by decide)).trans <| fieldOP_place _

theorem rgyr : Statement .rgyr := fieldOP_place _

theorem mraw : Statement .mraw := fieldOP_place _

theorem mxyz : Statement .mxyz := fieldOP_place _

end Sys2Proof.Laws.EncodeOpcode
end

