-- ==== Sys2Proof/Laws/Runs.lean ====
section
/-! SUPPORT. A run of READs (spec/20_memory.md R48): what it does on a prefix of its answers, on all of them, and when
one of them fails. -/

namespace Sys2Proof.Machine

/-- Only the divisors and the configuration decide what a run's bytes are turned into. -/
theorem runPayload_congr {s t : State} (ha : t.accDiv = s.accDiv) (hg : t.gyrDiv = s.gyrDiv) (hc : t.cfg = s.cfg)
    (use : RunUse) (buf : List Byte) : runPayload t use buf = runPayload s use buf := by
  cases use <;> simp only [runPayload, ha, hg, hc]

/-- A run that has not read all its bytes goes on waiting, its bytes and transactions recorded. -/
theorem drive_run_prefix (i : Instr) (start : Byte) (use : RunUse) (bs : List Byte) (rest : List Input) :
    ∀ (got : List Byte) (s : State), s.seq = .busy i (.run start got use) → got.length + bs.length < use.count →
      drive (okAnswers bs ++ rest) s =
        drive rest { s with
          seq := .busy i (.run start (got ++ bs) use),
          trace := readEvents s.dev start got.length bs ++ s.trace } := by
  induction bs with
  | nil =>
    intro got s hs _
    have : ({ s with seq := .busy i (.run start (got ++ []) use), trace := [] ++ s.trace } : State) = s := by
      rw [List.append_nil, List.nil_append, ← hs]
    simp only [okAnswers, List.map_nil, List.nil_append, readEvents]
    rw [List.nil_append] at this
    rw [this]
  | cons b bs ih =>
    intro got s hs hlt
    have hlen : (got ++ [b]).length + bs.length < use.count := by simp at hlt ⊢; omega
    simp only [okAnswers, List.map_cons, List.cons_append]
    rw [drive_answer hs, deliver_ok]
    simp only [onOk]
    rw [continueRun_more (by simp at hlen ⊢; omega)]
    have := ih (got ++ [b]) (State.await (s.log (.transaction ((Waiting.run start got use).request s.cfg.wiring.devAddr)
      (.ok b))) i (.run start (got ++ [b]) use)) rfl hlen
    rw [okAnswers] at this
    rw [this]
    simp [State.await, State.log, State.dev, Waiting.request, readEvents]

/-- A run whose bytes are all answered OK responds what they are turned into. -/
theorem drive_run_all (i : Instr) (start : Byte) (use : RunUse) (bs : List Byte) (rest : List Input)
    (got : List Byte) (s : State) (hs : s.seq = .busy i (.run start got use)) (hbs : bs ≠ [])
    (hlen : got.length + bs.length = use.count) :
    drive (okAnswers bs ++ rest) s =
      { s with
        seq := .idle, inputs := rest,
        trace := .response ⟨.ok, runPayload s use (got ++ bs)⟩ :: readEvents s.dev start got.length bs ++ s.trace } := by
  obtain ⟨init, b, rfl⟩ : ∃ init b, bs = init ++ [b] :=
    ⟨bs.dropLast, bs.getLast hbs, (List.dropLast_append_getLast hbs).symm⟩
  have hsplit : okAnswers (init ++ [b]) ++ rest = okAnswers init ++ (.answer (.ok b) :: rest) := by
    simp [okAnswers]
  have hev : ∀ (l : List Byte) (k : Nat), readEvents s.dev start k (l ++ [b]) =
      .transaction (.read s.dev (start + BitVec.ofNat 8 (k + l.length))) (.ok b) :: readEvents s.dev start k l := by
    intro l
    induction l with
    | nil => intro k; simp [readEvents]
    | cons c l ih => intro k; simp [readEvents, ih, Nat.add_assoc, Nat.add_comm 1]
  rw [hsplit, drive_run_prefix i start use init _ got s hs (by simp at hlen; omega)]
  rw [drive_answer (i := i) (w := .run start (got ++ init) use) rfl, deliver_ok]
  simp only [onOk]
  rw [continueRun_done (by simp at hlen ⊢; omega), drive_idle (by rfl), hev]
  simp [State.respond, State.answerHost, State.log, okResponse, State.dev, Waiting.request]
  exact runPayload_congr rfl rfl rfl _ _

/-- A run one of whose READs fails ends with the transport's error. -/
theorem drive_run_fails (i : Instr) (start : Byte) (use : RunUse) (bs : List Byte) (e : Nat) (rest : List Input)
    (got : List Byte) (s : State) (hs : s.seq = .busy i (.run start got use))
    (hlen : got.length + bs.length < use.count) :
    drive (okAnswers bs ++ .answer (.err e) :: rest) s =
      { s with
        seq := .idle, inputs := rest,
        trace := .response ⟨.transportError, .datum e⟩
          :: .transaction (.read s.dev (start + BitVec.ofNat 8 (got.length + bs.length))) (.err e)
          :: readEvents s.dev start got.length bs ++ s.trace } := by
  rw [drive_run_prefix i start use bs _ got s hs hlen,
    drive_answer (i := i) (w := .run start (got ++ bs) use) rfl, deliver_err, drive_idle (by rfl)]
  simp [State.raise, State.answerHost, State.log, State.dev, Waiting.request, cacheAfterFailure]

end Sys2Proof.Machine
end

