-- ==== Sys2Proof/Laws/Step.lean ====
section
/-! SUPPORT. Once, everything a step can do, and the shape of every command. -/

namespace Sys2Proof.Machine

/-- If a step answers next t: the block waits; or takes a word (a legal one, or an illegal one while IDLE); or is
reset; or goes on with an answer while BUSY; or is reset upon a word just issued, or upon an answer while BUSY. -/
theorem step_cases {s t : State} (h : step s = .next t) :
    (s.inputs = [] ∧ t = s) ∨
    (∃ w rest i, s.inputs = .command w :: rest ∧ decode w = .ok i ∧
      exec i (State.log { s with inputs := rest } (.command w)) = .next t) ∨
    (∃ w rest e, s.inputs = .command w :: rest ∧ decode w = .error e ∧ s.seq = .idle ∧
      t = (State.log { s with inputs := rest } (.command w)).raise .illegalCommand (.word w)) ∨
    (∃ rest, s.inputs = .reset :: rest ∧ t = State.assertReset { s with inputs := rest }) ∨
    (∃ a rest i w, s.inputs = .answer a :: rest ∧ s.seq = .busy i w ∧ t = drive rest (deliver i w a s)) ∨
    (∃ w rest, s.inputs = .commandReset w :: rest ∧ s.seq = .idle ∧
      t = State.toReset { s with inputs := rest } [.command w]) ∨
    (∃ a rest i w, s.inputs = .answerReset a :: rest ∧ s.seq = .busy i w ∧
      t = State.toReset { s with inputs := rest } [.transaction (w.request s.cfg.wiring.devAddr) a]) := by
  unfold step stepOnce at h
  split at h
  · next hi => injection h with h; exact .inl ⟨hi, h.symm⟩
  · next w rest hi =>
    unfold takeCommand at h
    split at h
    · next i hd => exact .inr (.inl ⟨w, rest, i, hi, hd, h⟩)
    · next e hd =>
      unfold answerIllegal at h
      split at h
      · next hs => injection h with h; exact .inr (.inr (.inl ⟨w, rest, e, hi, hd, hs, h.symm⟩))
      · cases h
  · next w rest hi =>
    unfold resetAfterCommand at h
    split at h
    · next hs => injection h with h; exact .inr (.inr (.inr (.inr (.inr (.inl ⟨w, rest, hi, hs, h.symm⟩)))))
    · cases h
  · next rest hi => injection h with h; exact .inr (.inr (.inr (.inl ⟨rest, hi, h.symm⟩)))
  · next a rest hi =>
    unfold takeAnswer at h
    split at h
    · next i w hs => injection h with h; exact .inr (.inr (.inr (.inr (.inl ⟨a, rest, i, w, hi, hs, h.symm⟩))))
    · cases h
  · next a rest hi =>
    unfold resetAfterAnswer at h
    split at h
    · next i w hs => injection h with h; exact .inr (.inr (.inr (.inr (.inr (.inr ⟨a, rest, i, w, hi, hs, h.symm⟩)))))
    · cases h

/-- The body of each command. -/
def bodyOf : Instr → State → State
  | .fspec h l => fspecBody h l
  | .brd a => brdBody a
  | .bwr a v => bwrBody a v
  | .bwc a => bwcBody a
  | .bms a mask bits => bmsBody a mask bits
  | .fget a h l => fgetBody a h l
  | .fset a h l v => fsetBody a h l v
  | .mrd a n layout => mrdBody a n layout
  | .sacc v => saccBody v
  | .sgyr v => sgyrBody v
  | .racc mps2 => raccBody mps2
  | .rgyr => rgyrBody
  | .mraw => mrawBody
  | .mxyz => mxyzBody

theorem exec_eq_runCommand (i : Instr) (s : State) : exec i s = runCommand (bodyOf i) s := by cases i <;> rfl

/-- If a command answers a next state, the block was IDLE and the state is that of the command's body, driven. -/
theorem exec_next {i : Instr} {s t : State} (h : exec i s = .next t) :
    s.seq = .idle ∧ t = drive s.inputs (bodyOf i s.beginCommand) := by
  rw [exec_eq_runCommand] at h
  exact runCommand_next h

theorem exec_idle {s : State} (h : s.seq = .idle) (i : Instr) :
    exec i s = .next (drive s.inputs (bodyOf i s.beginCommand)) := by
  rw [exec_eq_runCommand, runCommand_idle h]

theorem exec_busy {s : State} (h : s.seq ≠ .idle) (i : Instr) : exec i s = .refused .commandWhileBusy := by
  rw [exec_eq_runCommand, runCommand_busy h]

end Sys2Proof.Machine
end

