-- ==== Sys2Proof/Tests/Slice0.lean ====
section
/-! SUPPORT. The writer's own tests. Words and expected results are those of spec/95_test_vectors.md, in its test
configuration (its section 0), or are written out from the encodings of spec/30_encoding.md; V1 to V12 and P1 to P5
name the vectors. A theorem witness_<statement> shows values that meet the hypotheses of the statement of that name,
clause by clause, at the clauses' boundaries. -/

namespace Sys2Proof.Tests

open Sys2Proof Sys2Proof.Machine

/-! ### Helpers -/

def nextOf {σ φ ρ : Type} : Host.Outcome σ φ ρ → Option σ
  | .next s => some s
  | .fault _ => none
  | .refused _ => none

theorem eq_next {σ φ ρ : Type} {o : Host.Outcome σ φ ρ} {s : σ} (h : nextOf o = some s) : o = .next s := by
  cases o with
  | next t => exact congrArg _ (Option.some.inj h)
  | fault f => cases h
  | refused r => cases h

/-- The block in the vectors' test configuration, with these cache entries and these moves to come. -/
def block (cells : Memory) (ins : List Input) : State :=
  { State.resetWith { wiring := {} } with cache := cells, inputs := ins }

/-- The same with P_CACHE_PERSIST = false. -/
def forgetful (cells : Memory) (ins : List Input) : State :=
  { State.resetWith { wiring := {}, cachePersist := false } with cache := cells, inputs := ins }

/-- What the step that takes this word leaves: the cache, both divisors and the observation, newest first, without the
word itself. -/
def ran (w : Word) (s : State) : Option (Memory × BitVec 16 × BitVec 16 × List Event) :=
  (nextOf (step { s with inputs := .command w :: s.inputs })).map fun t =>
    (t.cache, t.accDiv, t.gyrDiv, t.trace.take (t.trace.length - 1))

/-- A transaction answered OK, and one answered ERR with datum 9. -/
def rd (a d : Byte) : Event := .transaction (.read 0 a) (.ok d)
def wr (a v : Byte) : Event := .transaction (.write 0 a v) (.ok 0)
def rdErr (a : Byte) : Event := .transaction (.read 0 a) (.err 9)
def wrErr (a v : Byte) : Event := .transaction (.write 0 a v) (.err 9)

def ok (p : Payload) : Event := .response ⟨.ok, p⟩
def failed : Event := .response ⟨.transportError, .datum 9⟩

/-- The transport's answers: a byte, the OK of a WRITE, and ERR with datum 9. -/
def okByte (d : Byte) : Input := .answer (.ok d)
def done : Input := .answer (.ok 0)
def err9 : Input := .answer (.err 9)

/-! ### WellFormed: an ill-formed term for each check -/

theorem test_wf_mrd_length_zero : (Instr.mrd 0x20 0 [.u8]).wf = false := by decide
theorem test_wf_mrd_no_entry : (Instr.mrd 0x20 1 []).wf = false := by decide
theorem test_wf_mrd_five_entries : (Instr.mrd 0x20 5 [.u8, .u8, .u8, .u8, .u8]).wf = false := by decide
theorem test_wf_mrd_mismatch_is_well_formed : (Instr.mrd 0x20 6 [.s16, .s16]).wf = true := by decide

/-! ### Decoding: words written out bit by bit from R62 to R66 -/

theorem test_decode_fspec : decode 0b00010000000000000101001100000000 = .ok (.fspec 5 3) := by decide
theorem test_decode_brd : decode 0b00100000000100000000000000000000 = .ok (.brd 0x10) := by decide
theorem test_decode_bwr : decode 0b00110000000100000000000001011010 = .ok (.bwr 0x10 0x5A) := by decide
theorem test_decode_bwc : decode 0b01000000000100000000000000000000 = .ok (.bwc 0x10) := by decide
theorem test_decode_bms : decode 0b01010000000100000011100000010000 = .ok (.bms 0x10 0x38 0x10) := by decide
theorem test_decode_fget : decode 0b01100000000100000101001100000000 = .ok (.fget 0x10 5 3) := by decide
theorem test_decode_fset : decode 0b01110000000100000101001100000010 = .ok (.fset 0x10 5 3 2) := by decide
theorem test_decode_mrd : decode 0b10000110001000001001101101100000 = .ok (.mrd 0x20 6 [.s16, .s16, .s16]) := by decide
theorem test_decode_mrd_mixed : decode 0b10000100010000001000001100100000 = .ok (.mrd 0x40 4 [.u8, .s16, .s8]) := by decide
theorem test_decode_mrd_wide : decode 0b10001000010100000110010100000000 = .ok (.mrd 0x50 8 [.u32, .s32]) := by decide
theorem test_decode_sacc : decode 0b10010000000000000000000000000100 = .ok (.sacc 4) := by decide
theorem test_decode_sgyr : decode 0b10100000000000000000010000000000 = .ok (.sgyr 1024) := by decide
theorem test_decode_racc : decode 0b10110000000000000000000000000000 = .ok (.racc false) := by decide
theorem test_decode_racc_mps2 : decode 0b10110001000000000000000000000000 = .ok (.racc true) := by decide
theorem test_decode_rgyr : decode 0b11000000000000000000000000000000 = .ok .rgyr := by decide
theorem test_decode_mraw : decode 0b11010000000000000000000000000000 = .ok .mraw := by decide
theorem test_decode_mxyz : decode 0b11100000000000000000000000000000 = .ok .mxyz := by decide

/-- The words of V2, V3, V5, V7 to V12 that are IllegalCommand. -/
def illegalWords : List Word :=
  [0x00000000, 0xF0000000, 0xFFFFFFFF, 0x10015300, 0x10005301, 0x20100001, 0x20100100, 0x21100000, 0x40100100, 0x60105301,
   0x80209B60, 0x86209B61, 0x8620BB60, 0x86209B64, 0x90010004, 0xB2000000, 0xB0000001, 0xC1000000, 0xD0000001, 0xE1000000]

theorem test_illegal_words : illegalWords.all (fun w => (decode w).toOption == none) = true := rfl

theorem test_illegal_reasons :
    decode 0x00000000 = .error .illegalOpcode ∧ decode 0x21100000 = .error .reservedNotZero ∧
    decode 0x80209B60 = .error .lengthZero ∧ decode 0x8620BB60 = .error .reservedWidthCode ∧
    decode 0x86209B64 = .error .unusedEntryNotZero := by decide

theorem test_table_word : decodeTableWord 32 0x70105302 = some (.fset 0x10 5 3 2) := by decide

/-! ### One step of each command -/

/-- V1 5:3 and V2 3:4. -/
theorem test_fspec : ran 0x10005300 (block [(0x10, 1)] []) =
    some ([(0x10, 1)], 1, 1, [ok (.descriptor ⟨3, 0x38, 3⟩)]) := by decide
theorem test_fspec_bad : ran 0x10003400 (block [] []) = some ([], 1, 1, [.response ⟨.invalidFieldSpec, .bounds 3 4⟩]) := by
  decide

/-- V3 rows 1 and 2. -/
theorem test_brd : ran 0x20100000 (block [(0x10, 0x11)] [okByte 0xA5]) =
    some ([(0x10, 0xA5)], 1, 1, [ok (.byte 0xA5), rd 0x10 0xA5]) := by decide
theorem test_brd_failed : ran 0x20100000 (block [(0x10, 0x11)] [err9]) =
    some ([(0x10, 0x11)], 1, 1, [failed, rdErr 0x10]) := by decide

/-- V3 rows 3 and 4: after the failure the entry is invalid or 0x5A, whatever the draw. -/
theorem test_bwr : ran 0x3010005A (block [] [done]) = some ([(0x10, 0x5A)], 1, 1, [ok .none, wr 0x10 0x5A]) := by decide
theorem test_bwr_failed : ∃ t, execBwr 0x10 0x5A (block [] [err9]) = .next t ∧
    (t.cache = [] ∨ t.cache = [(0x10, 0x5A)]) ∧ t.trace = [failed, wrErr 0x10 0x5A] := by
  refine ⟨_, rfl, ?_⟩
  cases h : Config.failedWriteKeepsEntry 0 <;>
    simp [bwrBody, State.await, drive, deliver, cacheAfterFailure, h, block, State.resetWith, State.log,
      State.beginCommand, State.raise, State.answerHost, failed, wrErr, err9, Waiting.request, State.setEntry, Memory.write]

/-- V3 rows 6 and 7. -/
theorem test_bwc : ran 0x40100000 (block [] [okByte 0xA5, done]) =
    some ([(0x10, 0xA5)], 1, 1, [ok .none, wr 0x10 0xA5, rd 0x10 0xA5]) := by decide
theorem test_bwc_failed : ran 0x40100000 (block [] [err9]) = some ([], 1, 1, [failed, rdErr 0x10]) := by decide

/-- V3 rows 8 and 9: staged, nothing written. -/
theorem test_bms_invalid : ran 0x50103810 (block [] [okByte 0xA5]) =
    some ([(0x10, 0x95)], 1, 1, [ok .none, rd 0x10 0xA5]) := by decide
theorem test_bms_valid : ran 0x50103810 (block [(0x10, 0xA5)] []) = some ([(0x10, 0x95)], 1, 1, [ok .none]) := by decide

/-- V5 rows 2 and 5. -/
theorem test_fget : ran 0x60105300 (block [] [okByte 0x95]) =
    some ([(0x10, 0x95)], 1, 1, [ok (.byte 2), rd 0x10 0x95]) := by decide
theorem test_fget_bad : ran 0x60103400 (block [(0x10, 0x95)] []) =
    some ([(0x10, 0x95)], 1, 1, [.response ⟨.invalidFieldSpec, .bounds 3 4⟩]) := by decide

/-- V6 rows 2 and 6. -/
theorem test_fset : ran 0x70105302 (block [] [okByte 0xA5, done]) =
    some ([(0x10, 0x95)], 1, 1, [ok .none, wr 0x10 0x95, rd 0x10 0xA5]) := by decide
theorem test_fset_failed : ran 0x70105302 (block [(0x10, 0xA5)] [err9]) =
    some ([(0x10, 0x95)], 1, 1, [failed, wrErr 0x10 0x95]) := by decide

/-- V7 rows 1 and 15. -/
theorem test_mrd : ran 0x86209B60 (block [] (okAnswers [0x00, 0x20, 0xFF, 0xFF, 0x00, 0x80])) =
    some ([], 1, 1, [ok (.ints [8192, -1, -32768]), rd 0x25 0x80, rd 0x24 0, rd 0x23 0xFF, rd 0x22 0xFF, rd 0x21 0x20,
      rd 0x20 0]) := by decide
theorem test_mrd_failed : ran 0x86209B60 (block [] [okByte 0x00, okByte 0x20, okByte 0xFF, err9]) =
    some ([], 1, 1, [failed, rdErr 0x23, rd 0x22 0xFF, rd 0x21 0x20, rd 0x20 0]) := by decide

/-- V7 rows 3, 6 and 8. -/
theorem test_layouts :
    decodeLayout [.u8, .s16, .s8] [0x80, 0xFF, 0x7F, 0x80] = [128, 32767, -128] ∧
    decodeLayout [.u32, .s32] [0x78, 0x56, 0x34, 0x12, 0xFE, 0xFF, 0xFF, 0xFF] = [305419896, -2] ∧
    decodeLayout [.u32] [0, 0, 0, 0x80] = [2147483648] := by decide

/-- V7 rows 9 to 12: the last legal start, the range before the layout, the layout. -/
theorem test_mrd_checks :
    ran 0x86FA9B60 (block [] (okAnswers [0, 0, 0, 0, 0, 0])) = some ([], 1, 1, [ok (.ints [0, 0, 0]), rd 0xFF 0, rd 0xFE 0,
      rd 0xFD 0, rd 0xFC 0, rd 0xFB 0, rd 0xFA 0]) ∧
    ran 0x86FB9B60 (block [] []) = some ([], 1, 1, [.response ⟨.addressRange, .range 0xFB 6⟩]) ∧
    ran 0x86FB5B00 (block [] []) = some ([], 1, 1, [.response ⟨.addressRange, .range 0xFB 6⟩]) ∧
    ran 0x86205B00 (block [] []) = some ([], 1, 1, [.response ⟨.layoutMismatch, .lengths 6 4⟩]) := by
  and_intros <;> decide

/-- V8: SACC 16 on 0xC3, and the failed write of SACC 4 with ACC_DIV = 16384. -/
theorem test_sacc : ran 0x90000010 (block [] [okByte 0xC3, done]) =
    some ([(0x03, 0xF3)], 2048, 1, [ok .none, wr 0x03 0xF3, rd 0x03 0xC3]) := by decide
theorem test_sacc_failed : ran 0x90000004 { block [(0x03, 0x00)] [err9] with accDiv := 16384 } =
    some ([(0x03, 0x10)], 16384, 1, [failed, wrErr 0x03 0x10]) := by decide

/-- V8: SGYR 1024 on 0x8F, and SGYR 2 (an accelerometer scale). -/
theorem test_sgyr : ran 0xA0000400 (block [] [okByte 0x8F, done]) =
    some ([(0x04, 0xEF)], 1, 32, [ok .none, wr 0x04 0xEF, rd 0x04 0x8F]) := by decide
theorem test_sgyr_bad : ran 0xA0000002 (block [] []) = some ([], 1, 1, [.response ⟨.unsupportedScale, .scale 2⟩]) := by
  decide

/-- The newest item of the observation after the step that takes this word. -/
def answered (w : Word) (s : State) : Option Event := (ran w s).bind fun r => r.2.2.2.head?

/-- V9: ACC_DIV = 16384, and mps2 with ACC_DIV = 2048, where the multiplication rounds. -/
theorem test_racc : answered 0xB0000000 { block [] (okAnswers [0xFF, 0x7F, 0x00, 0x80, 0x01, 0x00]) with accDiv := 16384 } =
    some (ok (.f64s ⟨0x3FFFFFC000000000, 0xC000000000000000, 0x3F10000000000000⟩)) := by decide
theorem test_racc_mps2 : answered 0xB1000000 { block [] (okAnswers [1, 0, 0xFF, 0xFF, 0xFF, 0x7F]) with accDiv := 2048 } =
    some (ok (.f64s ⟨0x3F739D013A92A305, 0xBF739D013A92A305, 0x40639CDA00902DE0⟩)) := by decide

/-- V10: GYR_DIV = 32, and the reset divisor. -/
theorem test_rgyr : answered 0xC0000000 { block [] (okAnswers [0xFF, 0x7F, 0x00, 0x80, 0x64, 0x00]) with gyrDiv := 32 } =
    some (ok (.f64s ⟨0x4031DF22B87ADB3D, 0xC031DF467707C94D, 0x3FABECDE19FC2A88⟩)) := by decide
theorem test_rgyr_reset : answered 0xC0000000 (block [] (okAnswers [1, 0, 0, 0, 0xFF, 0xFF])) =
    some (ok (.f64s ⟨0x3F91DF467707C94D, 0, 0xBF91DF467707C94D⟩)) := by decide

/-- V11 row 4, MRAW; row 3, MXYZ; and ERR@READ 0x06. -/
theorem test_mraw : answered 0xD0000000 (block [] (okAnswers [0x00, 0x01, 0x7F, 0xFF, 0x12, 0x34, 0x6C])) =
    some (ok (.u18s ⟨5, 131070, 18643⟩)) := by decide
theorem test_mxyz : answered 0xE0000000 (block [] (okAnswers [0xFF, 0xFF, 0x80, 0x00, 0x00, 0x00, 0xFC])) =
    some (ok (.f64s ⟨0x3FEFFFF000000000, 0x3EF8000000000000, 0xBFEFFFD000000000⟩)) := by decide
theorem test_mraw_failed : ran 0xD0000000 (block [] (okAnswers [0, 0, 0, 0, 0, 0] ++ [err9])) =
    some ([], 1, 1, [failed, rdErr 6, rd 5 0, rd 4 0, rd 3 0, rd 2 0, rd 1 0, rd 0 0]) := by decide

/-! ### The rest of the machine -/

/-- R29, V12: with P_CACHE_PERSIST = false a command that decodes starts from an empty cache, an illegal word clears
nothing. -/
theorem test_forgetful : ran 0x60107000 (forgetful [(0x10, 0x11), (0x20, 0x22)] [okByte 0x97]) =
    some ([(0x10, 0x97)], 1, 1, [ok (.byte 0x97), rd 0x10 0x97]) := by decide
theorem test_forgetful_illegal : ran 0x00000000 (forgetful [(0x10, 0x11)] []) =
    some ([(0x10, 0x11)], 1, 1, [.response ⟨.illegalCommand, .word 0⟩]) := by decide

/-- R30. -/
theorem test_reset_state : (State.reset.cache, State.reset.accDiv, State.reset.gyrDiv, State.reset.seq) =
    (([] : Memory), (1 : BitVec 16), (1 : BitVec 16), Sequencer.idle) := rfl

/-- R221's numbers. -/
theorem test_status_codes : [Status.ok, .illegalCommand, .invalidFieldSpec, .addressRange, .layoutMismatch,
    .unsupportedScale, .transportError].map statusCode = [0, 1, 2, 3, 4, 5, 6] := by decide

/-- R251: reset while BRD waits. -/
theorem test_reset_while_busy :
    (nextOf (step { block [(0x10, 1)] [.reset] with accDiv := 2048, seq := .busy (.brd 0x10) (.byte 0x10) })).map
      (fun t => (t.cache, t.accDiv, t.seq, t.trace)) =
    some ([], 1, .idle, [.reset, .abandoned (.brd 0x10) (.read 0 0x10)]) := by decide

/-- R251: reset upon FSPEC before its response, and upon BRD before its READ. -/
theorem test_reset_before_response : step (block [(0x10, 1)] [.commandReset 0x10005300, okByte 1]) =
    .next { block [] [okByte 1] with trace := [.reset, .command 0x10005300] } := rfl
theorem test_reset_before_request : step (block [(0x10, 1)] [.commandReset 0x20100000, okByte 1]) =
    .next { block [] [okByte 1] with trace := [.reset, .command 0x20100000] } := rfl

/-- R251: reset upon the answer of BWC's fill, before its WRITE: the transaction stands, nothing is in flight. -/
theorem test_reset_between_requests :
    (nextOf (step { block [] [.answerReset (.ok 7)] with seq := .busy (.bwc 0x10) (.fill 0x10 .commit) })).map
      (fun t => (t.cache, t.seq, t.trace)) = some ([], .idle, [.reset, rd 0x10 7]) := by decide

/-- The host's placed word is the one the next step takes. -/
theorem test_with_fetch_word : (nextOf (step (State.reset.withFetchWord 32 0x10005300))).map (·.trace) =
    some [ok (.descriptor ⟨3, 0x38, 3⟩), .command 0x10005300] := rfl

/-! ### Witnesses: the encoding and the step -/

/-- The state after a command, and after a step. -/
def after (i : Instr) (s : State) : State := (nextOf (exec i s)).getD s
def stepped (s : State) : State := (nextOf (step s)).getD s

theorem exec_after {i : Instr} {s : State} (h : s.seq = .idle) : exec i s = .next (after i s) := by
  unfold after
  rw [exec_idle h]
  rfl

theorem step_stepped {s : State} (h : (nextOf (step s)).isSome = true) : step s = .next (stepped s) := by
  obtain ⟨t, ht⟩ := Option.isSome_iff_exists.mp h
  rw [stepped, ht]
  exact eq_next ht

theorem witness_DecodeOfEncodeIsTheCommand :
    (Instr.mrd 0 1 [.u8]).wf = true ∧ (Instr.mrd 0xFF 15 [.u32, .u32, .u32, .s32]).wf = true ∧
    (Instr.fset 0xFF 15 15 0xFF).wf = true := by decide

theorem witness_EncodeOfDecodeIsTheWord :
    decode 0x8F00E48C = .ok (.mrd 0x00 15 [.u32, .u32, .u32, .s16]) ∧ decode 0x7FFF0000 = .error .reservedNotZero ∧
    decode 0x70FFFFFF = .ok (.fset 0xFF 15 15 0xFF) := by decide

/-- Each alternative of encodingBroken, and an IDLE block that is handed the word. -/
theorem witness_IllegalEncodingsAreExactlyThese :
    fieldOP 0x00000000 = 0x0 ∧ fieldOP 0xFFFFFFFF = 0xF ∧ encodingBroken 0x10005301 ∧ encodingBroken 0x21100000 ∧
    encodingBroken 0x30000100 ∧ encodingBroken 0x40100100 ∧ encodingBroken 0x51000000 ∧ encodingBroken 0x60105301 ∧
    encodingBroken 0x78000000 ∧ encodingBroken 0x80209B60 ∧ encodingBroken 0x86209B61 ∧ encodingBroken 0x8620BB60 ∧
    encodingBroken 0x86209B64 ∧ encodingBroken 0x90010004 ∧ encodingBroken 0xA1000010 ∧ encodingBroken 0xB2000000 ∧
    encodingBroken 0xC1000000 ∧ encodingBroken 0xD0000001 ∧ encodingBroken 0xE1000000 ∧
    (block [] [.command 0xB2000000]).seq = .idle ∧ (block [] [.command 0xB2000000]).inputs = [.command 0xB2000000] := by
  refine ⟨by decide, by decide, .inr (.inr (by decide)), .inl (by decide), .inr (by decide), .inr (.inl (by decide)),
    (by decide : fieldN 0x51000000 ≠ 0), .inr (by decide), (by decide : fieldN 0x78000000 ≠ 0), .inr (.inl (by decide)),
    .inl (by decide), .inr (.inr (.inl ⟨0, 7, by decide, by decide, by decide⟩)),
    .inr (.inr (.inr ⟨3, 1, by decide, by decide, by decide⟩)), ?_, ?_, .inl (by decide), ?_, ?_, ?_, rfl, rfl⟩
  · exact (by decide : (0x90010004 : Word).extractLsb' 16 12 ≠ 0)
  · exact (by decide : (0xA1000010 : Word).extractLsb' 16 12 ≠ 0)
  · exact (by decide : (0xC1000000 : Word).extractLsb' 0 28 ≠ 0)
  · exact (by decide : (0xD0000001 : Word).extractLsb' 0 28 ≠ 0)
  · exact (by decide : (0xE1000000 : Word).extractLsb' 0 28 ≠ 0)

theorem witness_OpcodeRowsNeverOverlap :
    (⟨.BRD, 0xFF00FFFF, 0x20000000⟩ : OpcodeRow) ∈ opcodeTable ∧
    OpcodeRow.matches 0x20FF0000 ⟨.BRD, 0xFF00FFFF, 0x20000000⟩ = true := by decide

theorem witness_StepRunsTheDecodedCommand :
    (block [] [.command 0x20100000, okByte 1]).inputs = .command 0x20100000 :: [okByte 1] ∧
    decode 0x20100000 = .ok (.brd 0x10) := by decide

theorem witness_IllegalWordIsAnsweredAtOnce :
    (block [(1, 2)] [.command 0]).seq = .idle ∧ (block [(1, 2)] [.command 0]).inputs = .command 0 :: [] ∧
    decode 0 = .error .illegalOpcode := by decide

/-- A block that waits for BRD's READ. -/
def busyBrd (ins : List Input) : State := { block [] ins with seq := .busy (.brd 0x10) (.byte 0x10) }

theorem witness_StepStopsOnlyOnForbiddenMoves :
    (busyBrd [.command 0x20100000]).inputs = [.command 0x20100000] ∧ (busyBrd [.command 0x20100000]).seq ≠ .idle ∧
    (busyBrd [.commandReset 0]).inputs = [.commandReset 0] ∧ (busyBrd [.commandReset 0]).seq ≠ .idle ∧
    (block [] [err9]).inputs = [err9] ∧ (block [] [err9]).seq = .idle ∧
    (block [] [.answerReset (.ok 0)]).inputs = [.answerReset (.ok 0)] := by decide

theorem witness_BlockWaitsForItsEnvironment : (block [] []).inputs = [] ∧ (busyBrd []).inputs = [] := by decide

theorem witness_ResetInputRestoresTheResetState :
    (block [(1, 2)] [.reset]).inputs = [.reset] ∧ (block [(1, 2)] [.reset]).seq = .idle ∧
    (busyBrd [.reset, okByte 1]).inputs = .reset :: [okByte 1] ∧
    (busyBrd [.reset, okByte 1]).seq = .busy (.brd 0x10) (.byte 0x10) := by decide

theorem witness_CachePersistenceParameter :
    (block [(0x10, 1)] []).cfg.cachePersist = true ∧ (forgetful [(0x10, 1)] []).cfg.cachePersist = false := by decide

/-! ### Witnesses: the commands -/

/-- Bounds that name a field, and bounds that do not: the corners of R101. -/
def goodBounds : List (BitVec 4 × BitVec 4) := [(7, 0), (0, 0), (7, 7), (5, 3)]
def badBounds : List (BitVec 4 × BitVec 4) := [(8, 0), (7, 8), (3, 4), (15, 15)]

theorem witness_bounds :
    (∀ b ∈ goodBounds, b.2.toNat ≤ b.1.toNat ∧ b.1.toNat ≤ 7) ∧
    (∀ b ∈ badBounds, ¬ (b.2.toNat ≤ b.1.toNat ∧ b.1.toNat ≤ 7)) := by
  simp [goodBounds, badBounds]

/-- Nothing answers: no move, a word or a reset next. -/
theorem witness_no_answer : noAnswerFirst [] = true ∧ noAnswerFirst [.command 0] = true ∧ noAnswerFirst [.reset] = true ∧
    noAnswerFirst [.answerReset (.ok 0)] = true := by decide

theorem witness_FspecFollowsItsRule :
    (block [] []).seq = .idle ∧ (0 : BitVec 4).toNat ≤ (7 : BitVec 4).toNat ∧ (7 : BitVec 4).toNat ≤ 7 ∧
    ¬ ((0 : BitVec 4).toNat ≤ (8 : BitVec 4).toNat ∧ (8 : BitVec 4).toNat ≤ 7) ∧
    fieldOP 0x10015300 = 0x1 ∧ fieldA 0x10015300 ≠ 0 ∧ fieldOP 0x10005301 = 0x1 ∧ fieldC 0x10005301 ≠ 0 := by decide

theorem witness_DescriptorMaskProperties :
    (7 : BitVec 4).toNat ≤ (7 : BitVec 4).toNat ∧ (7 : BitVec 4).toNat ≤ 7 ∧
    ¬ ((4 : BitVec 4).toNat ≤ (3 : BitVec 4).toNat ∧ (3 : BitVec 4).toNat ≤ 7) := by decide

theorem witness_BrdFollowsItsRule :
    (block [] [okByte 0xA5]).seq = .idle ∧ (block [] [okByte 0xA5]).inputs = .answer (.ok 0xA5) :: [] ∧
    (block [] [err9]).inputs = .answer (.err 9) :: [] ∧ noAnswerFirst (block [] [.reset]).inputs = true ∧
    fieldOP 0x20100100 = 0x2 ∧ fieldB 0x20100100 ≠ 0 ∧ fieldOP 0x20100001 = 0x2 ∧ fieldC 0x20100001 ≠ 0 := by decide

theorem witness_BwrFollowsItsRule :
    (block [] [done]).seq = .idle ∧ (block [] [done]).inputs = .answer (.ok 0) :: [] ∧
    (block [] [err9]).inputs = .answer (.err 9) :: [] ∧ noAnswerFirst (block [] []).inputs = true ∧
    fieldOP 0x30000100 = 0x3 ∧ fieldB 0x30000100 ≠ 0 := by decide

/-- A valid entry and an invalid one, for every command that uses one; and one that is invalid because it was cleared. -/
theorem witness_entries :
    (block [(0x10, 0x95)] []).startEntry 0x10 = some 0x95 ∧ (block [(0xFF, 0)] []).startEntry 0xFF = some 0 ∧
    (block [(0x10, 0x95)] []).startEntry 0x11 = none ∧ (forgetful [(0x10, 0x95)] []).startEntry 0x10 = none := by decide

theorem witness_BwcFollowsItsRule :
    (block [(0x10, 0x95)] [done]).seq = .idle ∧ (block [(0x10, 0x95)] [done]).startEntry 0x10 = some 0x95 ∧
    (block [(0x10, 0x95)] [done]).inputs = .answer (.ok 0) :: [] ∧
    (block [(0x10, 0x95)] [err9]).inputs = .answer (.err 9) :: [] ∧
    noAnswerFirst (block [(0x10, 0x95)] []).inputs = true ∧ (block [] [okByte 1, done]).startEntry 0x10 = none ∧
    (block [] [okByte 1, done]).inputs = .answer (.ok 1) :: .answer (.ok 0) :: [] ∧
    (block [] [okByte 1, err9]).inputs = .answer (.ok 1) :: .answer (.err 9) :: [] ∧
    (block [] [okByte 1, .reset]).inputs = .answer (.ok 1) :: [.reset] ∧ noAnswerFirst [.reset] = true ∧
    (block [] [err9]).inputs = .answer (.err 9) :: [] ∧ noAnswerFirst (block [] []).inputs = true ∧
    fieldOP 0x40100100 = 0x4 ∧ fieldB 0x40100100 ≠ 0 ∧ fieldC 0x40100001 ≠ 0 := by
  and_intros <;> decide

theorem witness_BmsFollowsItsRule :
    (block [(0x10, 0xA5)] []).seq = .idle ∧ (block [(0x10, 0xA5)] []).startEntry 0x10 = some 0xA5 ∧
    (block [] [okByte 0xA5]).startEntry 0x10 = none ∧ (block [] [okByte 0xA5]).inputs = .answer (.ok 0xA5) :: [] ∧
    (block [] [err9]).inputs = .answer (.err 9) :: [] ∧ noAnswerFirst (block [] [.command 0]).inputs = true ∧
    (0x11 : Byte) ≠ 0x10 := by decide

theorem witness_FgetFollowsItsRule :
    (block [(0x10, 0x95)] []).seq = .idle ∧
    ¬ ((4 : BitVec 4).toNat ≤ (3 : BitVec 4).toNat ∧ (3 : BitVec 4).toNat ≤ 7) ∧
    (0 : BitVec 4).toNat ≤ (7 : BitVec 4).toNat ∧ (7 : BitVec 4).toNat ≤ 7 ∧
    (block [(0x10, 0x95)] []).startEntry 0x10 = some 0x95 ∧ (block [] [okByte 0x95]).startEntry 0x10 = none ∧
    (block [] [okByte 0x95]).inputs = .answer (.ok 0x95) :: [] ∧ (block [] [err9]).inputs = .answer (.err 9) :: [] ∧
    noAnswerFirst (block [] []).inputs = true ∧ fieldOP 0x60105301 = 0x6 ∧ fieldC 0x60105301 ≠ 0 := by decide

theorem witness_FsetFollowsItsRule :
    (block [(0x10, 0xA5)] [done]).seq = .idle ∧
    ¬ ((0 : BitVec 4).toNat ≤ (8 : BitVec 4).toNat ∧ (8 : BitVec 4).toNat ≤ 7) ∧
    (7 : BitVec 4).toNat ≤ (7 : BitVec 4).toNat ∧ (7 : BitVec 4).toNat ≤ 7 ∧
    (block [(0x10, 0xA5)] [done]).startEntry 0x10 = some 0xA5 ∧
    (block [(0x10, 0xA5)] [done]).inputs = .answer (.ok 0) :: [] ∧
    (block [(0x10, 0xA5)] [err9]).inputs = .answer (.err 9) :: [] ∧ noAnswerFirst (block [(0x10, 0xA5)] []).inputs = true ∧
    (block [] [okByte 1, done]).startEntry 0x10 = none ∧
    (block [] [okByte 1, done]).inputs = .answer (.ok 1) :: .answer (.ok 0) :: [] ∧
    (block [] [okByte 1, err9]).inputs = .answer (.ok 1) :: .answer (.err 9) :: [] ∧
    (block [] [err9]).inputs = .answer (.err 9) :: [] ∧ noAnswerFirst (block [] []).inputs = true := by decide

/-- The boundaries of R161: a run that ends at 255, and one that would end at 256. -/
theorem witness_MrdFollowsItsRule :
    (block [] []).seq = .idle ∧ (0xFB : Byte).toNat + (6 : BitVec 4).toNat > 256 ∧
    (0xFA : Byte).toNat + (6 : BitVec 4).toNat ≤ 256 ∧ layoutBytes [.s16, .s16] ≠ (6 : BitVec 4).toNat ∧
    layoutBytes [.s16, .s16, .s16] = (6 : BitVec 4).toNat ∧ ([1, 2, 3, 4, 5, 6] : List Byte).length = (6 : BitVec 4).toNat ∧
    (block [] (okAnswers [1, 2, 3, 4, 5, 6])).inputs = okAnswers [1, 2, 3, 4, 5, 6] ++ [] ∧
    ([1, 2, 3, 4, 5] : List Byte).length < (6 : BitVec 4).toNat ∧
    (block [] (okAnswers [1, 2, 3, 4, 5] ++ [err9])).inputs = okAnswers [1, 2, 3, 4, 5] ++ .answer (.err 9) :: [] ∧
    (block [] (okAnswers [1, 2, 3, 4, 5])).inputs = okAnswers [1, 2, 3, 4, 5] ++ [] ∧ noAnswerFirst [] = true ∧
    (6 : BitVec 4) ≠ 0 ∧ 1 ≤ ([.s32] : List Entry).length ∧ ([.u8, .u8, .u8, .u8] : List Entry).length ≤ 4 ∧
    fieldOP 0x80209B60 = 0x8 := by decide
theorem witness_MrdFollowsItsRule_illegal : fieldOP 0x80209B60 = 0x8 ∧ encodingBroken 0x80209B60 :=
  ⟨by decide, .inr (.inl (by decide))⟩

theorem witness_LayoutDecodesLittleEndian :
    ([0x80, 0xFF, 0x7F, 0x80] : List Byte).length = layoutBytes ([.u8] ++ .s16 :: [.s8]) ∧
    entrySigned .u8 = false ∧ entrySigned .s16 = true ∧
    ([1, 2, 3, 4] : List Byte).length = layoutBytes ([] ++ .u32 :: []) := by decide

theorem witness_ThreeSigned16Layout : ([0x00, 0x20, 0xFF, 0xFF, 0x00, 0x80] : List Byte).length = 6 := by decide

theorem witness_SaccFollowsItsRule :
    (block [(0x03, 0)] [done]).seq = .idle ∧ (3 : BitVec 16).toNat ∉ [2, 4, 8, 16] ∧
    [2, 4, 8, 16][0]? = some (2 : BitVec 16).toNat ∧ [2, 4, 8, 16][3]? = some (16 : BitVec 16).toNat ∧
    (block [(0x03, 0)] [done]).startEntry (block [(0x03, 0)] [done]).cfg.wiring.accFs.reg = some 0 ∧
    (block [(0x03, 0)] [done]).inputs = .answer (.ok 0) :: [] ∧
    (block [(0x03, 0)] [err9]).inputs = .answer (.err 9) :: [] ∧
    (block [] [okByte 1, done]).startEntry (block [] [okByte 1, done]).cfg.wiring.accFs.reg = none ∧
    (block [] [okByte 1, done]).inputs = .answer (.ok 1) :: .answer (.ok 0) :: [] ∧
    (block [] [okByte 1, err9]).inputs = .answer (.ok 1) :: .answer (.err 9) :: [] ∧
    (block [] [err9]).inputs = .answer (.err 9) :: [] ∧
    fieldOP 0x90010004 = 0x9 ∧ (0x90010004 : Word).extractLsb' 16 12 ≠ 0 := by decide

theorem witness_SgyrFollowsItsRule :
    (block [(0x04, 0)] [done]).seq = .idle ∧ (2048 : BitVec 16).toNat ∉ [16, 32, 64, 128, 256, 512, 1024] ∧
    [16, 32, 64, 128, 256, 512, 1024][0]? = some (16 : BitVec 16).toNat ∧
    [16, 32, 64, 128, 256, 512, 1024][6]? = some (1024 : BitVec 16).toNat ∧
    (block [(0x04, 0)] [done]).startEntry (block [(0x04, 0)] [done]).cfg.wiring.gyrFs.reg = some 0 ∧
    (block [(0x04, 0)] [done]).inputs = .answer (.ok 0) :: [] ∧
    (block [(0x04, 0)] [err9]).inputs = .answer (.err 9) :: [] ∧
    (block [] [okByte 1, done]).startEntry (block [] [okByte 1, done]).cfg.wiring.gyrFs.reg = none ∧
    (block [] [okByte 1, done]).inputs = .answer (.ok 1) :: .answer (.ok 0) :: [] ∧
    (block [] [okByte 1, err9]).inputs = .answer (.ok 1) :: .answer (.err 9) :: [] ∧
    (block [] [err9]).inputs = .answer (.err 9) :: [] ∧
    fieldOP 0xA1000010 = 0xA ∧ (0xA1000010 : Word).extractLsb' 16 12 ≠ 0 := by decide

/-- For RACC and RGYR: six bytes, and an error at the first and at the sixth READ. -/
theorem witness_RaccFollowsItsRule :
    (block [] (okAnswers [1, 2, 3, 4, 5, 6])).seq = .idle ∧ ([1, 2, 3, 4, 5, 6] : List Byte).length = 6 ∧
    (block [] (okAnswers [1, 2, 3, 4, 5, 6])).inputs = okAnswers [1, 2, 3, 4, 5, 6] ++ [] ∧
    ([1, 2, 3, 4, 5] : List Byte).length < 6 ∧
    (block [] (okAnswers [1, 2, 3, 4, 5] ++ [err9])).inputs = okAnswers [1, 2, 3, 4, 5] ++ .answer (.err 9) :: [] ∧
    (block [] [err9]).inputs = okAnswers [] ++ .answer (.err 9) :: [] ∧
    fieldOP 0xB2000000 = 0xB ∧ (0xB2000000 : Word).extractLsb' 25 3 ≠ 0 ∧ (0xB0000001 : Word).extractLsb' 0 24 ≠ 0 := by
  decide

theorem witness_RgyrFollowsItsRule :
    (block [] (okAnswers [1, 2, 3, 4, 5, 6])).seq = .idle ∧ ([1, 2, 3, 4, 5, 6] : List Byte).length = 6 ∧
    (block [] (okAnswers [1, 2, 3, 4, 5, 6])).inputs = okAnswers [1, 2, 3, 4, 5, 6] ++ [] ∧
    (block [] (okAnswers [1, 2, 3, 4, 5] ++ [err9])).inputs = okAnswers [1, 2, 3, 4, 5] ++ .answer (.err 9) :: [] ∧
    fieldOP 0xC1000000 = 0xC ∧ (0xC1000000 : Word).extractLsb' 0 28 ≠ 0 := by decide

theorem witness_MrawFollowsItsRule :
    (block [] (okAnswers [1, 2, 3, 4, 5, 6, 7])).seq = .idle ∧ ([1, 2, 3, 4, 5, 6, 7] : List Byte).length = 7 ∧
    (block [] (okAnswers [1, 2, 3, 4, 5, 6, 7])).inputs = okAnswers [1, 2, 3, 4, 5, 6, 7] ++ [] ∧
    (block [] (okAnswers [1, 2, 3, 4, 5, 6] ++ [err9])).inputs = okAnswers [1, 2, 3, 4, 5, 6] ++ .answer (.err 9) :: [] ∧
    fieldOP 0xD0000001 = 0xD ∧ (0xD0000001 : Word).extractLsb' 0 28 ≠ 0 := by decide

theorem witness_MxyzFollowsItsRule :
    (block [] (okAnswers [1, 2, 3, 4, 5, 6, 7])).seq = .idle ∧ ([1, 2, 3, 4, 5, 6, 7] : List Byte).length = 7 ∧
    (block [] (okAnswers [1, 2, 3, 4, 5, 6, 7])).inputs = okAnswers [1, 2, 3, 4, 5, 6, 7] ++ [] ∧
    (block [] [err9]).inputs = okAnswers [] ++ .answer (.err 9) :: [] ∧
    fieldOP 0xE1000000 = 0xE ∧ (0xE1000000 : Word).extractLsb' 0 28 ≠ 0 := by decide

/-! ### Witnesses: every command, in states after it -/

theorem witness_CommandEndsInOneResponse :
    exec (.brd 1) (block [] [okByte 7]) = .next (after (.brd 1) (block [] [okByte 7])) ∧
    (after (.brd 1) (block [] [okByte 7])).seq = .idle ∧
    exec (.brd 1) (block [] []) = .next (after (.brd 1) (block [] [])) ∧ (after (.brd 1) (block [] [])).seq ≠ .idle :=
  ⟨exec_after rfl, by decide, exec_after rfl, by decide⟩

theorem witness_CommandEndsIfTheTransportAnswers :
    (block [] ((List.replicate 15 (Answer.ok 0)).map .answer ++ [.reset])).seq = .idle ∧
    (block [] ((List.replicate 15 (Answer.ok 0)).map .answer ++ [.reset])).inputs =
      (List.replicate 15 (Answer.ok 0)).map .answer ++ [.reset] ∧ 15 ≤ (List.replicate 15 (Answer.ok 0)).length := by
  and_intros <;> decide

theorem witness_AnswersMayComeLater :
    exec (.bwc 1) { block [] [.reset] with inputs := [Answer.ok 7].map .answer } = .next (after (.bwc 1) (block [] [okByte 7])) ∧
    (after (.bwc 1) (block [] [okByte 7])).seq ≠ .idle :=
  ⟨exec_after rfl, by decide⟩

theorem witness_BusyCommandWaitsForItsOwnRequest :
    exec (.bwc 1) (block [] [okByte 7]) = .next (after (.bwc 1) (block [] [okByte 7])) ∧
    (after (.bwc 1) (block [] [okByte 7])).seq = .busy (.bwc 1) (.commit 1 7 .nothing) :=
  ⟨exec_after rfl, by decide⟩

theorem witness_CommandsWriteOnlyTheirEntry :
    exec (.brd 1) (block [] [okByte 7]) = .next (after (.brd 1) (block [] [okByte 7])) ∧
    entryOf (block [] [okByte 7]).cfg (.brd 1) ≠ some 2 ∧
    exec .mraw (block [(1, 1)] [err9]) = .next (after .mraw (block [(1, 1)] [err9])) ∧
    entryOf (block [(1, 1)] [err9]).cfg .mraw = none :=
  ⟨exec_after rfl, by decide, exec_after rfl, by decide⟩

theorem witness_OnlyScaleSettersWriteDivisors :
    exec (.sacc 2) (block [] [okByte 7, done]) = .next (after (.sacc 2) (block [] [okByte 7, done])) ∧
    (after (.sacc 2) (block [] [okByte 7, done])).accDiv = 16384 ∧
    exec (.sgyr 1024) (block [] [okByte 7, done]) = .next (after (.sgyr 1024) (block [] [okByte 7, done])) ∧
    (after (.sgyr 1024) (block [] [okByte 7, done])).gyrDiv = 32 :=
  ⟨exec_after rfl, by decide, exec_after rfl, by decide⟩

/-- A command that ends with no failure, and one whose last request fails; the other commands of the statement end as
test_brd to test_fset show. -/
theorem witness_RequestCountsOfCacheCommands :
    exec (.fset 1 3 0 5) (block [] [okByte 7, done]) = .next (after (.fset 1 3 0 5) (block [] [okByte 7, done])) ∧
    (after (.fset 1 3 0 5) (block [] [okByte 7, done])).seq = .idle ∧
    (after (.fset 1 3 0 5) (block [] [okByte 7, done])).trace =
      [ok .none, wr 1 5, rd 1 7] ++ (block [] [okByte 7, done]).trace ∧
    exec (.fset 1 3 0 5) (block [] [okByte 7, err9]) = .next (after (.fset 1 3 0 5) (block [] [okByte 7, err9])) ∧
    (after (.fset 1 3 0 5) (block [] [okByte 7, err9])).seq = .idle ∧
    (after (.fset 1 3 0 5) (block [] [okByte 7, err9])).trace =
      [failed, wrErr 1 5, rd 1 7] ++ (block [] [okByte 7, err9]).trace ∧
    Event.transaction (.write 0 1 5) (.err 9) ∈ [failed, wrErr 1 5, rd 1 7] :=
  ⟨exec_after rfl, by decide, by decide, exec_after rfl, by decide, by decide, by decide⟩
theorem witness_RequestCountsOfCacheCommands_noFailure (r : Request) (e : Nat) :
    Event.transaction r (.err e) ∉ [ok .none, wr 1 5, rd 1 7] := by simp [ok, wr, rd]

theorem witness_ValidEntryIsNotReadAgain :
    usesEntry (.sacc 4) = true ∧ entryOf (block [(3, 0)] [done]).cfg (.sacc 4) = some 3 ∧
    ((block [(3, 0)] [done]).startEntry 3).isSome = true ∧
    exec (.sacc 4) (block [(3, 0)] [done]) = .next (after (.sacc 4) (block [(3, 0)] [done])) ∧
    (after (.sacc 4) (block [(3, 0)] [done])).trace = [ok .none, wr 3 0x10] ++ (block [(3, 0)] [done]).trace :=
  ⟨by decide, by decide, by decide, exec_after rfl, by decide⟩

theorem witness_EntryAfterSuccess :
    entryOf (block [] [done]).cfg (.bwr 1 7) = some 1 ∧
    exec (.bwr 1 7) (block [] [done]) = .next (after (.bwr 1 7) (block [] [done])) ∧
    (after (.bwr 1 7) (block [] [done])).trace = ok .none :: wr 1 7 :: [] ++ (block [] [done]).trace ∧
    exec (.fget 1 3 0) (block [] [okByte 7]) = .next (after (.fget 1 3 0) (block [] [okByte 7])) ∧
    (after (.fget 1 3 0) (block [] [okByte 7])).trace = ok (.byte 7) :: rd 1 7 :: [] ++ (block [] [okByte 7]).trace ∧
    exec (.bms 1 3 0) (block [] [okByte 7]) = .next (after (.bms 1 3 0) (block [] [okByte 7])) ∧
    (after (.bms 1 3 0) (block [] [okByte 7])).trace = ok .none :: [rd 1 7] ++ (block [] [okByte 7]).trace :=
  ⟨by decide, exec_after rfl, by decide, exec_after rfl, by decide, exec_after rfl, by decide⟩

theorem witness_EntryAfterTransportFailure :
    entryOf (block [] [err9]).cfg (.brd 1) = some 1 ∧
    exec (.brd 1) (block [] [err9]) = .next (after (.brd 1) (block [] [err9])) ∧
    (after (.brd 1) (block [] [err9])).trace = failed :: rdErr 1 :: [] ++ (block [] [err9]).trace ∧
    exec (.fset 1 3 0 5) (block [(1, 7)] [err9]) = .next (after (.fset 1 3 0 5) (block [(1, 7)] [err9])) ∧
    (after (.fset 1 3 0 5) (block [(1, 7)] [err9])).trace = failed :: wrErr 1 5 :: [] ++ (block [(1, 7)] [err9]).trace :=
  ⟨by decide, exec_after rfl, by decide, exec_after rfl, by decide⟩

theorem witness_MultiByteCommandsIgnoreTheCache :
    isMultiByte .rgyr = true ∧ exec .rgyr (block [(0x3B, 1)] [okByte 2]) = .next (after .rgyr (block [(0x3B, 1)] [okByte 2])) :=
  ⟨by decide, exec_after rfl⟩

/-- P1: FSET 5:3 of 0xA5, as BMS of the mask and BWC, from an invalid entry, where both requests are answered OK. -/
theorem witness_FsetIsBmsThenBwc :
    (block [] [okByte 0xA5, done]).cfg.cachePersist = true ∧ (3 : BitVec 4).toNat ≤ (5 : BitVec 4).toNat ∧
    (5 : BitVec 4).toNat ≤ 7 ∧
    exec (.bms 0x10 (maskOf 5 3) (2 <<< (3 : BitVec 4).toNat)) (block [] [okByte 0xA5, done]) =
      .next { block [(0x10, 0x95)] [done] with trace := [ok .none, rd 0x10 0xA5] } ∧
    (ok .none :: [rd 0x10 0xA5] ++ (block [] [okByte 0xA5, done]).trace) = [ok .none, rd 0x10 0xA5] ∧
    exec (.bwc 0x10) { block [(0x10, 0x95)] [done] with trace := [ok .none, rd 0x10 0xA5] } =
      .next { block [(0x10, 0x95)] [] with trace := [ok .none, wr 0x10 0x95] ++ [ok .none, rd 0x10 0xA5] } :=
  ⟨by decide, by decide, by decide, eq_next (by decide), by decide, eq_next (by decide)⟩

/-- The first and the last scale, the WRITE answered OK and ERR. -/
theorem witness_SaccIsFsetThenDivisor :
    [2, 4, 8, 16][0]? = some (2 : BitVec 16).toNat ∧ [2, 4, 8, 16][3]? = some (16 : BitVec 16).toNat ∧
    exec (.fset (block [(3, 0)] [done]).cfg.wiring.accFs.reg (block [(3, 0)] [done]).cfg.wiring.accFs.field.hi
        (block [(3, 0)] [done]).cfg.wiring.accFs.field.lo (BitVec.ofNat 8 3)) (block [(3, 0)] [done]) =
      .next { block [(3, 0x30)] [] with trace := ok .none :: [wr 3 0x30] } ∧
    exec (.fset (block [(3, 0)] [err9]).cfg.wiring.accFs.reg (block [(3, 0)] [err9]).cfg.wiring.accFs.field.hi
        (block [(3, 0)] [err9]).cfg.wiring.accFs.field.lo (BitVec.ofNat 8 0)) (block [(3, 0)] [err9]) =
      .next { block [(3, 0)] [] with trace := failed :: [wrErr 3 0] } :=
  ⟨by decide, by decide, eq_next (by decide), eq_next (by decide)⟩

theorem witness_SgyrIsFsetThenDivisor :
    [16, 32, 64, 128, 256, 512, 1024][0]? = some (16 : BitVec 16).toNat ∧
    [16, 32, 64, 128, 256, 512, 1024][6]? = some (1024 : BitVec 16).toNat ∧
    exec (.fset (block [(4, 0)] [done]).cfg.wiring.gyrFs.reg (block [(4, 0)] [done]).cfg.wiring.gyrFs.field.hi
        (block [(4, 0)] [done]).cfg.wiring.gyrFs.field.lo (BitVec.ofNat 8 6)) (block [(4, 0)] [done]) =
      .next { block [(4, 0x60)] [] with trace := ok .none :: [wr 4 0x60] } ∧
    exec (.fset (block [(4, 0)] [err9]).cfg.wiring.gyrFs.reg (block [(4, 0)] [err9]).cfg.wiring.gyrFs.field.hi
        (block [(4, 0)] [err9]).cfg.wiring.gyrFs.field.lo (BitVec.ofNat 8 0)) (block [(4, 0)] [err9]) =
      .next { block [(4, 0)] [] with trace := failed :: [wrErr 4 0] } :=
  ⟨by decide, by decide, eq_next (by decide), eq_next (by decide)⟩

theorem witness_FieldRoundTrip :
    (block [(0x10, 0xA5)] [done]).seq = .idle ∧ (block [(0x10, 0xA5)] [done]).cfg.cachePersist = true ∧
    (3 : BitVec 4).toNat ≤ (5 : BitVec 4).toNat ∧ (5 : BitVec 4).toNat ≤ 7 ∧
    (block [(0x10, 0xA5)] [done]).entry 0x10 = some 0xA5 ∧ (block [(0x10, 0xA5)] [done]).inputs = .answer (.ok 0) :: [] ∧
    (block [] [okByte 0xA5, done]).entry 0x10 = none ∧
    (block [] [okByte 0xA5, done]).inputs = .answer (.ok 0xA5) :: .answer (.ok 0) :: [] := by decide

/-! ### Witnesses: invariants of every step -/

/-- BWC waits for the WRITE of 0x95, which its entry holds. -/
def busyCommit (ins : List Input) : State :=
  { block [(0x10, 0x95)] ins with seq := .busy (.bwc 0x10) (.commit 0x10 0x95 .nothing) }

theorem inv_block : (block [(0x10, 0x95)] [.command 0x40100000]).Inv :=
  ⟨by decide, ⟨by decide, by decide⟩, trivial⟩

theorem inv_busyCommit : (busyCommit [done]).Inv :=
  ⟨by decide, ⟨by decide, by decide⟩, ⟨.inr ⟨0x95, rfl⟩, (by decide : (busyCommit [done]).entry 0x10 = some 0x95)⟩⟩

/-- An IDLE block that takes a word, and a BUSY one that takes an answer. -/
theorem witness_StepKeepsTheInvariant :
    (block [(0x10, 0x95)] [.command 0x40100000]).Inv ∧
    step (block [(0x10, 0x95)] [.command 0x40100000]) = .next (stepped (block [(0x10, 0x95)] [.command 0x40100000])) ∧
    (busyCommit [done]).Inv ∧ step (busyCommit [done]) = .next (stepped (busyCommit [done])) :=
  ⟨inv_block, step_stepped (by decide), inv_busyCommit, step_stepped (by decide)⟩

theorem witness_DivisorsStayLegal :
    (block [] [.command 0x90000010, okByte 0, done]).divisorsLegal ∧
    step (block [] [.command 0x90000010, okByte 0, done]) = .next (stepped (block [] [.command 0x90000010, okByte 0, done])) ∧
    (stepped (block [] [.command 0x90000010, okByte 0, done])).accDiv = 2048 :=
  ⟨⟨by decide, by decide⟩, step_stepped (by decide), by decide⟩

theorem witness_ConfigurationIsFixed : step (busyCommit [.reset]) = .next (stepped (busyCommit [.reset])) :=
  step_stepped (by decide)

theorem witness_ObservationOnlyGrows :
    step (busyCommit [done, .reset]) = .next (stepped (busyCommit [done, .reset])) ∧
    (stepped (busyCommit [done, .reset])).trace = [ok .none, wr 0x10 0x95] :=
  ⟨step_stepped (by decide), by decide⟩

/-! ### Witnesses: scales and numbers -/

theorem witness_ScaleTables :
    accScaleOf 2 = some .g2 ∧ accScaleOf 16 = some .g16 ∧ accScaleOf 32 = none ∧ gyrScaleOf 16 = some .dps16 ∧
    gyrScaleOf 1024 = some .dps1024 ∧ gyrScaleOf 2048 = none := by decide

/-- 2^53 + 1 lies half-way between its neighbours 2^53 (even) and 2^53 + 2. -/
theorem witness_RoundingIsToNearestEven :
    0 < 1 ∧ rne64 false (2 ^ 53 + 1) 1 = 0x4340000000000000 ∧ f64IsFinite (rne64 false (2 ^ 53 + 1) 1) = true ∧
    f64IsFinite 0x4340000000000001 = true ∧ f64Value 0x4340000000000000 = 2 ^ 53 ∧
    f64Value 0x4340000000000001 = 2 ^ 53 + 2 := by
  refine ⟨by decide, by decide, by decide, by decide, ?_, ?_⟩
  · have n : f64Neg 0x4340000000000000 = false := by decide
    have p : f64Num 0x4340000000000000 = 2 ^ 53 := by decide
    have q : f64Den 0x4340000000000000 = 1 := by decide
    rw [f64Value, n, p, q]
    norm_num
  · have n : f64Neg 0x4340000000000001 = false := by decide
    have p : f64Num 0x4340000000000001 = 2 ^ 53 + 2 := by decide
    have q : f64Den 0x4340000000000001 = 1 := by decide
    rw [f64Value, n, p, q]
    norm_num

theorem witness_OperationsRoundTheExactResult :
    f64IsFinite gStd = true ∧ f64IsFinite (f64OfInt (-32768)) = true ∧ f64IsZero (f64OfInt (-32768)) = false ∧
    f64IsFinite (f64Zero true) = true := by decide

theorem witness_IntegersConvertExactly : (-2 ^ 53 : Int).natAbs ≤ 2 ^ 53 ∧ (0 : Int).natAbs ≤ 2 ^ 53 := by decide

theorem witness_DivisionsAreExact :
    (2 ^ 18 - 1 : Int).natAbs < 2 ^ 18 ∧ (-131072 : Int).natAbs < 2 ^ 18 ∧ 17 ≤ 17 := by decide

theorem witness_OnlyTheMultiplicationRounds : (-32768 : Int).natAbs < 2 ^ 18 ∧ 14 ≤ 17 ∧ (gStd = gStd ∨ gStd = kGyr) := by
  decide

theorem witness_ReadoutsArePlainNumbers : 1 ∈ accDivisors ∧ 2048 ∈ accDivisors ∧ 1 ∈ gyrDivisors ∧ 32 ∈ gyrDivisors := by
  decide

/-! ### Witnesses: reset inside a command -/

theorem witness_ResetStrikesInsideACommand :
    (block [(1, 2)] [.commandReset 0x20100000]).seq = .idle ∧
    (block [(1, 2)] [.commandReset 0x20100000]).inputs = .commandReset 0x20100000 :: [] ∧
    (busyBrd [.answerReset (.err 9)]).seq = .busy (.brd 0x10) (.byte 0x10) ∧
    (busyBrd [.answerReset (.err 9)]).inputs = .answerReset (.err 9) :: [] := by decide

/-- BWC whose fill has been answered waits for the answer to its WRITE. -/
theorem witness_ResetAfterAnyAnswer :
    exec (.bwc 1) { block [] [] with inputs := [Answer.ok 7].map .answer } = .next (after (.bwc 1) (block [] [okByte 7])) ∧
    (after (.bwc 1) (block [] [okByte 7])).seq ≠ .idle :=
  ⟨exec_after rfl, by decide⟩

end Sys2Proof.Tests
end

section
/-! PROOFS of the statements about binary64 (spec/00_scope.md R11): the bits of a pattern built from a sign and a
magnitude, the exponent and the significand rne64 chooses, the grid of finite numbers they lie on, and from these
rounding, the two operations and the conversion of integers. -/

namespace Sys2Proof.Proofs.Float64

open Sys2Proof Sys2Proof.Machine

/-! ### Signs -/

/-- The factor a sign bit stands for, as f64Value writes it. -/
def signOf (neg : Bool) : ℚ := if neg then -1 else 1

theorem signOf_bne (a b : Bool) : signOf (a != b) = signOf a * signOf b := by
  cases a <;> cases b <;> norm_num [signOf]

theorem signOf_mul_self (neg : Bool) : signOf neg * signOf neg = 1 := by
  cases neg <;> norm_num [signOf]

theorem abs_signOf (neg : Bool) : |signOf neg| = 1 := by
  cases neg <;> norm_num [signOf]

theorem signOf_div (neg : Bool) (a : ℚ) : a / signOf neg = signOf neg * a := by
  cases neg <;> simp [signOf, div_neg]

/-- A sign is its own inverse, so it can be moved from one side of a difference to the other. -/
theorem abs_sub_signOf_mul (neg : Bool) (v x : ℚ) : |v - signOf neg * x| = |signOf neg * v - x| := by
  have pulled : signOf neg * v - x = signOf neg * (v - signOf neg * x) := by
    linear_combination x * signOf_mul_self neg
  rw [pulled, abs_mul, abs_signOf, one_mul]

/-! ### Powers of two -/

/-- A shift by an integer amount, made of a shift up and a shift down of which one is none. -/
theorem two_pow_toNat_eq (k : ℤ) : (2 : ℚ) ^ k.toNat = 2 ^ k * 2 ^ (-k).toNat := by
  rw [← zpow_natCast, ← zpow_natCast, ← zpow_add₀ two_ne_zero]
  congr 1
  omega

theorem two_zpow_mul (a b : ℤ) : (2 : ℚ) ^ a * 2 ^ b = 2 ^ (a + b) := (zpow_add₀ two_ne_zero a b).symm

theorem two_pow_mul_zpow (n : ℕ) (b : ℤ) : (2 : ℚ) ^ n * 2 ^ b = 2 ^ (n + b) := by
  rw [← zpow_natCast, two_zpow_mul]

theorem two_zpow_lt_iff {a b : ℤ} : (2 : ℚ) ^ a < 2 ^ b ↔ a < b := zpow_lt_zpow_iff_right₀ one_lt_two

/-- A multiple of a power of two is one of every smaller power of two. -/
theorem exists_int_mul_zpow (m : ℤ) {g j : ℤ} (h : g ≤ j) : ∃ k : ℤ, (m * 2 ^ j : ℚ) = k * 2 ^ g := by
  refine ⟨m * 2 ^ (j - g).toNat, ?_⟩
  have up : ((2 : ℚ) ^ (j - g).toNat) * 2 ^ g = 2 ^ j := by
    rw [two_pow_mul_zpow]
    congr 1
    omega
  push_cast
  rw [mul_assoc, up]

/-! ### The fields of a bit pattern -/

/-- The pattern of a sign and a magnitude, as rne64 builds it. -/
def pack (neg : Bool) (mag : Nat) : F64 := BitVec.ofNat 64 ((if neg then 2 ^ 63 else 0) + mag)

theorem f64Zero_eq_pack (neg : Bool) : f64Zero neg = pack neg 0 := rfl

theorem toNat_pack (neg : Bool) {mag : Nat} (h : mag < 2 ^ 63) :
    (pack neg mag).toNat = (if neg then 2 ^ 63 else 0) + mag := by
  rw [pack, BitVec.toNat_ofNat]
  apply Nat.mod_eq_of_lt
  split <;> omega

theorem f64Neg_pack (neg : Bool) {mag : Nat} (h : mag < 2 ^ 63) : f64Neg (pack neg mag) = neg := by
  rw [f64Neg, BitVec.getLsbD, toNat_pack neg h, Nat.testBit_eq_decide_div_mod_eq]
  cases neg <;> simp <;> omega

theorem f64Exp_pack (neg : Bool) {mag : Nat} (h : mag < 2 ^ 63) : f64Exp (pack neg mag) = mag / 2 ^ 52 := by
  rw [f64Exp, BitVec.extractLsb'_toNat, toNat_pack neg h, Nat.shiftRight_eq_div_pow]
  cases neg <;> simp <;> omega

theorem f64Frac_pack (neg : Bool) {mag : Nat} (h : mag < 2 ^ 63) : f64Frac (pack neg mag) = mag % 2 ^ 52 := by
  rw [f64Frac, BitVec.extractLsb'_toNat, toNat_pack neg h, Nat.shiftRight_eq_div_pow]
  cases neg <;> simp
  omega

theorem lowBit_pack (neg : Bool) {mag : Nat} (h : mag < 2 ^ 63) (even : mag % 2 = 0) :
    (pack neg mag).getLsbD 0 = false := by
  rw [BitVec.getLsbD, toNat_pack neg h, Nat.testBit_eq_decide_div_mod_eq]
  cases neg <;> simp <;> omega

theorem f64IsFinite_pack (neg : Bool) {mag : Nat} (h : mag < 2 ^ 63) :
    f64IsFinite (pack neg mag) = true ↔ mag / 2 ^ 52 ≠ 2047 := by
  simp [f64IsFinite, f64Exp_pack neg h]

/-! ### The value of a bit pattern -/

theorem f64Mant_lt (x : F64) : f64Mant x < 2 ^ 53 := by
  have frac : f64Frac x < 2 ^ 52 := BitVec.isLt _
  unfold f64Mant
  split <;> omega

theorem f64Num_div_f64Den (x : F64) :
    (f64Num x / f64Den x : ℚ) = f64Mant x * 2 ^ ((f64Scale x : ℤ) - 1075) := by
  have shift := two_pow_toNat_eq ((f64Scale x : ℤ) - 1075)
  rw [show ((f64Scale x : ℤ) - 1075).toNat = f64Scale x - 1075 by omega,
    show (-((f64Scale x : ℤ) - 1075)).toNat = 1075 - f64Scale x by omega] at shift
  rw [f64Num, f64Den]
  push_cast
  rw [shift, ← mul_assoc, mul_div_cancel_right₀ _ (by positivity)]

theorem f64Den_pos (x : F64) : 0 < f64Den x := Nat.two_pow_pos _

/-- Only the two zeros have magnitude zero. -/
theorem f64Num_pos {x : F64} (h : f64IsZero x = false) : 0 < f64Num x := by
  refine Nat.mul_pos ?_ (Nat.two_pow_pos _)
  simp only [f64IsZero, Bool.and_eq_false_iff, beq_eq_false_iff_ne] at h
  unfold f64Mant
  split <;> omega

theorem f64Value_eq (x : F64) : f64Value x = signOf (f64Neg x) * (f64Num x / f64Den x) := rfl

theorem f64Value_eq_mant (x : F64) :
    f64Value x = signOf (f64Neg x) * (f64Mant x * 2 ^ ((f64Scale x : ℤ) - 1075)) := by
  rw [f64Value_eq, f64Num_div_f64Den]

theorem f64Value_pack_zero (neg : Bool) : f64Value (pack neg 0) = 0 := by
  rw [f64Value_eq_mant, f64Mant, f64Exp_pack neg (by norm_num), f64Frac_pack neg (by norm_num)]
  simp

/-- A biased exponent and a significand, added as rne64 adds them, stand for significand * 2 ^ (exponent - 1074): the
significand's leading 1 counts the exponent field up by one, and a significand of 2 ^ 53 counts it up by two. -/
theorem f64Value_pack (neg : Bool) {eb sig : Nat} (bound : eb * 2 ^ 52 + sig < 2 ^ 63) (top : sig ≤ 2 ^ 53)
    (normal : eb = 0 ∨ 2 ^ 52 ≤ sig) :
    f64Value (pack neg (eb * 2 ^ 52 + sig)) = signOf neg * (sig * 2 ^ ((eb : ℤ) - 1074)) := by
  rw [f64Value_eq_mant, f64Neg_pack neg bound]
  congr 1
  rw [f64Mant, f64Scale, f64Exp_pack neg bound, f64Frac_pack neg bound]
  obtain subnormal | binade | carried :
      (eb = 0 ∧ sig < 2 ^ 52) ∨ (2 ^ 52 ≤ sig ∧ sig < 2 ^ 53) ∨ sig = 2 ^ 53 := by omega
  · obtain ⟨rfl, small⟩ := subnormal
    rw [if_pos (by omega), show (0 * 2 ^ 52 + sig) % 2 ^ 52 = sig by omega,
      show max ((0 * 2 ^ 52 + sig) / 2 ^ 52) 1 = 1 by omega]
    norm_num
  · rw [if_neg (by omega), show 2 ^ 52 + (eb * 2 ^ 52 + sig) % 2 ^ 52 = sig by omega,
      show max ((eb * 2 ^ 52 + sig) / 2 ^ 52) 1 = eb + 1 by omega]
    congr 2
    push_cast
    ring
  · subst carried
    rw [if_neg (by omega), show 2 ^ 52 + (eb * 2 ^ 52 + 2 ^ 53) % 2 ^ 52 = 2 ^ 52 by omega,
      show max ((eb * 2 ^ 52 + 2 ^ 53) / 2 ^ 52) 1 = eb + 2 by omega,
      show ((eb + 2 : ℕ) : ℤ) - 1075 = 1 + ((eb : ℤ) - 1074) by push_cast; ring, ← two_zpow_mul]
    push_cast
    ring

/-- Where the finite numbers lie, seen from a spacing 2 ^ g: on its multiples, or, below its binade and only where the
spacing is not the least one, between them. -/
theorem f64Value_multiple_or_small (y : F64) (g : ℤ) :
    (∃ k : ℤ, f64Value y = k * 2 ^ g) ∨ (-1074 < g ∧ |f64Value y| < 2 ^ (g + 52)) := by
  have value := f64Value_eq_mant y
  have scale : 1 ≤ f64Scale y := le_max_right _ _
  by_cases fine : g ≤ (f64Scale y : ℤ) - 1075
  · left
    obtain ⟨k, hk⟩ := exists_int_mul_zpow (f64Mant y) fine
    rw [value]
    push_cast at hk
    rw [hk]
    cases f64Neg y
    · exact ⟨k, by simp [signOf]⟩
    · exact ⟨-k, by simp [signOf]⟩
  · right
    refine ⟨by omega, ?_⟩
    have mant : (f64Mant y : ℚ) < 2 ^ (53 : ℤ) := by exact_mod_cast f64Mant_lt y
    rw [value, abs_mul, abs_signOf, one_mul, abs_of_nonneg (by positivity)]
    calc (f64Mant y : ℚ) * 2 ^ ((f64Scale y : ℤ) - 1075)
        < 2 ^ (53 : ℤ) * 2 ^ ((f64Scale y : ℤ) - 1075) := by gcongr
      _ = 2 ^ ((f64Scale y : ℤ) - 1022) := by rw [two_zpow_mul]; congr 1; ring
      _ ≤ 2 ^ (g + 52) := zpow_le_zpow_right₀ one_le_two (by omega)

/-! ### Rounding to an integer -/

theorem div_eq_quotient_add_remainder (n : Nat) {d : Nat} (hd : 0 < d) :
    (n / d : ℚ) = (n / d : ℕ) + (n % d : ℕ) / d := by
  have d_ne : (d : ℚ) ≠ 0 := by exact_mod_cast hd.ne'
  have sum : ((n / d : ℕ) * d + (n % d : ℕ) : ℚ) = n := by exact_mod_cast Nat.div_add_mod' n d
  rw [← sum, add_div, mul_div_cancel_right₀ _ d_ne]

/-- divNearestEven goes at most a half away, and a half only to an even integer. With r / d the fractional part,
rounding down moves by r / d and rounding up by 1 - r / d. -/
theorem divNearestEven_spec (n : Nat) {d : Nat} (hd : 0 < d) :
    |(divNearestEven n d : ℚ) - n / d| ≤ 1 / 2 ∧
    (|(divNearestEven n d : ℚ) - n / d| = 1 / 2 → divNearestEven n d % 2 = 0) := by
  have d_pos : (0 : ℚ) < d := by exact_mod_cast hd
  have part_lt : ((n % d : ℕ) / d : ℚ) < 1 := (div_lt_one d_pos).2 (by exact_mod_cast Nat.mod_lt n hd)
  have tie_iff : ((n % d : ℕ) / d : ℚ) = 1 / 2 ↔ 2 * (n % d) = d := by
    rw [div_eq_div_iff d_pos.ne' two_ne_zero, one_mul, mul_comm]
    exact_mod_cast Iff.rfl
  have le_iff : ((n % d : ℕ) / d : ℚ) ≤ 1 / 2 ↔ 2 * (n % d) ≤ d := by
    rw [div_le_div_iff₀ d_pos two_pos, one_mul, mul_comm]
    exact_mod_cast Iff.rfl
  rw [div_eq_quotient_add_remainder n hd]
  unfold divNearestEven
  split
  · next up =>
    have dist : |((n / d + 1 : ℕ) : ℚ) - ((n / d : ℕ) + (n % d : ℕ) / d)| = 1 - (n % d : ℕ) / d := by
      rw [Nat.cast_succ, add_sub_add_left_eq_sub, abs_of_pos (by linarith)]
    have half : (1 / 2 : ℚ) ≤ (n % d : ℕ) / d := by
      rw [div_le_div_iff₀ two_pos d_pos]
      exact_mod_cast (by omega : 1 * d ≤ n % d * 2)
    rw [dist]
    refine ⟨by linarith, fun tie => ?_⟩
    have := tie_iff.1 (by linarith)
    omega
  · next down =>
    have dist : |((n / d : ℕ) : ℚ) - ((n / d : ℕ) + (n % d : ℕ) / d)| = (n % d : ℕ) / d := by
      rw [sub_add_cancel_left, abs_neg, abs_of_nonneg (by positivity)]
    rw [dist, le_iff, tie_iff]
    omega

/-- An integer within a half of t is nearest to t, and only at a distance of a half is another one as near. -/
theorem nearest_of_within_half {s k : ℤ} {t : ℚ} (h : |(s : ℚ) - t| ≤ 1 / 2) :
    |(s : ℚ) - t| ≤ |(k : ℚ) - t| ∧ (|(s : ℚ) - t| = |(k : ℚ) - t| → k ≠ s → |(s : ℚ) - t| = 1 / 2) := by
  by_cases same : k = s
  · simp [same]
  · have apart : (1 : ℚ) ≤ |(k : ℚ) - s| := by
      exact_mod_cast Int.one_le_abs (sub_ne_zero.2 same)
    have triangle : |(k : ℚ) - s| ≤ |(k : ℚ) - t| + |(s : ℚ) - t| := by
      rw [abs_sub_comm (s : ℚ) t]
      exact abs_sub_le _ _ _
    exact ⟨by linarith, fun _ _ => by linarith⟩

theorem eq_of_within_half {s k : ℤ} (h : |(s : ℚ) - k| ≤ 1 / 2) : s = k := by
  by_contra ne
  have apart : (1 : ℚ) ≤ |(s : ℚ) - k| := by exact_mod_cast Int.one_le_abs (sub_ne_zero.2 ne)
  linarith

/-! ### The exponent of a rational -/

/-- The comparison in ratLog2, which stays in the integers by shifting one of the two sides. -/
theorem shifted_le_iff (num : Nat) {den : Nat} (hd : 0 < den) (k : ℤ) :
    den * 2 ^ k.toNat ≤ num * 2 ^ (-k).toNat ↔ (2 : ℚ) ^ k ≤ num / den := by
  have d_pos : (0 : ℚ) < den := by exact_mod_cast hd
  have down : (0 : ℚ) < 2 ^ (-k).toNat := by positivity
  rw [le_div_iff₀ d_pos, ← mul_le_mul_iff_left₀ down, mul_right_comm, ← two_pow_toNat_eq, mul_comm _ (den : ℚ)]
  exact_mod_cast Iff.rfl

theorem two_zpow_log2_sub_le {num den : Nat} (hn : 0 < num) (hd : 0 < den) :
    (2 : ℚ) ^ ((num.log2 : ℤ) - den.log2 - 1) ≤ num / den := by
  have num_low : (2 : ℚ) ^ (num.log2 : ℤ) ≤ num := by exact_mod_cast Nat.log2_self_le hn.ne'
  have den_high : (den : ℚ) ≤ 2 ^ ((den.log2 : ℤ) + 1) := by exact_mod_cast Nat.lt_log2_self.le
  rw [le_div_iff₀ (by exact_mod_cast hd)]
  calc (2 : ℚ) ^ ((num.log2 : ℤ) - den.log2 - 1) * den
      ≤ 2 ^ ((num.log2 : ℤ) - den.log2 - 1) * 2 ^ ((den.log2 : ℤ) + 1) := by gcongr
    _ = 2 ^ (num.log2 : ℤ) := by rw [two_zpow_mul]; congr 1; ring
    _ ≤ num := num_low

theorem lt_two_zpow_log2_sub (num : Nat) {den : Nat} (hd : 0 < den) :
    (num / den : ℚ) < 2 ^ ((num.log2 : ℤ) - den.log2 + 1) := by
  have num_high : (num : ℚ) < 2 ^ ((num.log2 : ℤ) + 1) := by exact_mod_cast Nat.lt_log2_self
  have den_low : (2 : ℚ) ^ (den.log2 : ℤ) ≤ den := by exact_mod_cast Nat.log2_self_le hd.ne'
  rw [div_lt_iff₀ (by exact_mod_cast hd)]
  calc (num : ℚ) < 2 ^ ((num.log2 : ℤ) + 1) := num_high
    _ = 2 ^ ((num.log2 : ℤ) - den.log2 + 1) * 2 ^ (den.log2 : ℤ) := by rw [two_zpow_mul]; congr 1; ring
    _ ≤ 2 ^ ((num.log2 : ℤ) - den.log2 + 1) * den := by gcongr

theorem ratLog2_spec {num den : Nat} (hn : 0 < num) (hd : 0 < den) :
    (2 : ℚ) ^ ratLog2 num den ≤ num / den ∧ (num / den : ℚ) < 2 ^ (ratLog2 num den + 1) := by
  simp only [ratLog2, shifted_le_iff num hd]
  split
  · next reaches => exact ⟨reaches, lt_two_zpow_log2_sub num hd⟩
  · next below => exact ⟨two_zpow_log2_sub_le hn hd, by rwa [sub_add_cancel, ← not_le]⟩

/-- The exponent rne64 rounds at: that of num / den, but never below the subnormal numbers' one. -/
def roundExp (num den : Nat) : ℤ := max (ratLog2 num den) (-1022)

theorem neg_1022_le_roundExp (num den : Nat) : -1022 ≤ roundExp num den := le_max_right _ _

theorem lt_two_zpow_roundExp {num den : Nat} (hn : 0 < num) (hd : 0 < den) :
    (num / den : ℚ) < 2 ^ (roundExp num den + 1) :=
  (ratLog2_spec hn hd).2.trans_le (zpow_le_zpow_right₀ one_le_two (by unfold roundExp; omega))

theorem two_zpow_roundExp_le {num den : Nat} (hn : 0 < num) (hd : 0 < den) (normal : -1022 < roundExp num den) :
    (2 : ℚ) ^ roundExp num den ≤ num / den := by
  rw [show roundExp num den = ratLog2 num den by unfold roundExp at *; omega]
  exact (ratLog2_spec hn hd).1

/-- A rational below a power of two of the normal range is rounded at a smaller exponent. -/
theorem roundExp_lt {num den : Nat} {b : ℤ} (hn : 0 < num) (hd : 0 < den) (hb : -1022 < b)
    (h : (num / den : ℚ) < 2 ^ b) : roundExp num den < b := by
  by_cases normal : -1022 < roundExp num den
  · exact two_zpow_lt_iff.1 ((two_zpow_roundExp_le hn hd normal).trans_lt h)
  · omega

/-! ### The significand of a rational -/

/-- The significand rne64 rounds to: num / den counted in units of 2 ^ (exponent - 52). -/
def roundSig (num den : Nat) : Nat :=
  divNearestEven (num * 2 ^ (52 - roundExp num den).toNat) (den * 2 ^ (roundExp num den - 52).toNat)

/-- num / den in those units, before it is rounded. -/
def exactSig (num den : Nat) : ℚ := num / den / 2 ^ (roundExp num den - 52)

/-- The magnitude bits before the overflow to infinity is cut off. -/
def roundMag (num den : Nat) : Nat := (roundExp num den + 1022).toNat * 2 ^ 52 + roundSig num den

theorem rne64_zero (neg : Bool) (den : Nat) : rne64 neg 0 den = pack neg 0 := by
  rw [rne64, if_pos rfl, f64Zero_eq_pack]

theorem rne64_of_pos (neg : Bool) {num : Nat} (den : Nat) (hn : 0 < num) :
    rne64 neg num den = pack neg (min (roundMag num den) (2047 * 2 ^ 52)) := by
  rw [rne64, if_neg hn.ne']
  rfl

theorem exactSig_mul_unit (num den : Nat) : exactSig num den * 2 ^ (roundExp num den - 52) = num / den :=
  div_mul_cancel₀ _ (by positivity)

theorem roundSig_spec (num : Nat) {den : Nat} (hd : 0 < den) :
    |(roundSig num den : ℚ) - exactSig num den| ≤ 1 / 2 ∧
    (|(roundSig num den : ℚ) - exactSig num den| = 1 / 2 → roundSig num den % 2 = 0) := by
  have ratio : exactSig num den = ((num * 2 ^ (52 - roundExp num den).toNat : ℕ) : ℚ) /
      ((den * 2 ^ (roundExp num den - 52).toNat : ℕ) : ℚ) := by
    have shift := two_pow_toNat_eq (roundExp num den - 52)
    rw [show -(roundExp num den - 52) = 52 - roundExp num den by ring] at shift
    push_cast
    rw [exactSig, shift, ← mul_assoc, mul_div_mul_right _ _ (by positivity), div_div]
  rw [ratio]
  exact divNearestEven_spec _ (Nat.mul_pos hd (Nat.two_pow_pos _))

theorem exactSig_lt {num den : Nat} (hn : 0 < num) (hd : 0 < den) : exactSig num den < 2 ^ 53 := by
  rw [exactSig, div_lt_iff₀ (by positivity), two_pow_mul_zpow,
    show ((53 : ℕ) : ℤ) + (roundExp num den - 52) = roundExp num den + 1 by omega]
  exact lt_two_zpow_roundExp hn hd

theorem two_pow_52_le_exactSig {num den : Nat} (hn : 0 < num) (hd : 0 < den) (normal : -1022 < roundExp num den) :
    2 ^ 52 ≤ exactSig num den := by
  rw [exactSig, le_div_iff₀ (by positivity), two_pow_mul_zpow,
    show ((52 : ℕ) : ℤ) + (roundExp num den - 52) = roundExp num den by omega]
  exact two_zpow_roundExp_le hn hd normal

theorem roundSig_le {num den : Nat} (hn : 0 < num) (hd : 0 < den) : roundSig num den ≤ 2 ^ 53 := by
  have close := (abs_le.1 (roundSig_spec num hd).1).2
  have below := exactSig_lt hn hd
  have cast : (roundSig num den : ℚ) < (2 ^ 53 + 1 : ℕ) := by push_cast; linarith
  have : roundSig num den < 2 ^ 53 + 1 := by exact_mod_cast cast
  omega

theorem two_pow_52_le_roundSig {num den : Nat} (hn : 0 < num) (hd : 0 < den) (normal : -1022 < roundExp num den) :
    2 ^ 52 ≤ roundSig num den := by
  have close := (abs_le.1 (roundSig_spec num hd).1).1
  have above := two_pow_52_le_exactSig hn hd normal
  have cast : ((2 ^ 52 : ℕ) : ℚ) < (roundSig num den + 1 : ℕ) := by push_cast; linarith
  have : 2 ^ 52 < roundSig num den + 1 := by exact_mod_cast cast
  omega

/-! ### What rne64 answers -/

/-- A finite result is the one whose magnitude was not cut off. -/
theorem f64IsFinite_rne64 (neg : Bool) {num : Nat} (den : Nat) (hn : 0 < num) :
    f64IsFinite (rne64 neg num den) = true ↔ roundMag num den < 2047 * 2 ^ 52 := by
  rw [rne64_of_pos neg den hn, f64IsFinite_pack neg (by omega)]
  omega

theorem rne64_of_finite (neg : Bool) {num den : Nat} (hn : 0 < num) (fin : roundMag num den < 2047 * 2 ^ 52) :
    rne64 neg num den = pack neg (roundMag num den) := by
  rw [rne64_of_pos neg den hn, min_eq_left fin.le]

/-- A finite result is the rounded significand in its units. -/
theorem f64Value_rne64 (neg : Bool) {num den : Nat} (hn : 0 < num) (hd : 0 < den)
    (fin : roundMag num den < 2047 * 2 ^ 52) :
    f64Value (rne64 neg num den) = signOf neg * (roundSig num den * 2 ^ (roundExp num den - 52)) := by
  have low := neg_1022_le_roundExp num den
  have normal : (roundExp num den + 1022).toNat = 0 ∨ 2 ^ 52 ≤ roundSig num den := by
    by_cases h : -1022 < roundExp num den
    · exact .inr (two_pow_52_le_roundSig hn hd h)
    · exact .inl (by omega)
  have value := f64Value_pack neg (show roundMag num den < 2 ^ 63 by omega) (roundSig_le hn hd) normal
  rw [show (((roundExp num den + 1022).toNat : ℕ) : ℤ) - 1074 = roundExp num den - 52 by omega] at value
  rw [rne64_of_finite neg hn fin]
  exact value

/-- Seen in the units of num / den, a finite number is an integer or lies below the significand's binade. -/
theorem f64Value_in_units (neg : Bool) (num den : Nat) (y : F64) :
    ∃ w : ℚ, signOf neg * f64Value y = w * 2 ^ (roundExp num den - 52) ∧
      ((∃ k : ℤ, w = k) ∨ (-1022 < roundExp num den ∧ w < 2 ^ 52)) := by
  have unit_pos : (0 : ℚ) < 2 ^ (roundExp num den - 52) := by positivity
  refine ⟨signOf neg * f64Value y / 2 ^ (roundExp num den - 52), (div_mul_cancel₀ _ unit_pos.ne').symm, ?_⟩
  obtain ⟨k, on_grid⟩ | ⟨normal, small⟩ := f64Value_multiple_or_small y (roundExp num den - 52)
  · left
    rw [on_grid, ← mul_assoc, mul_div_cancel_right₀ _ unit_pos.ne']
    cases neg
    · exact ⟨k, by simp [signOf]⟩
    · exact ⟨-k, by simp [signOf]⟩
  · right
    refine ⟨by omega, ?_⟩
    rw [div_lt_iff₀ unit_pos, two_pow_mul_zpow]
    calc signOf neg * f64Value y ≤ |signOf neg * f64Value y| := le_abs_self _
      _ = |f64Value y| := by rw [abs_mul, abs_signOf, one_mul]
      _ < 2 ^ (roundExp num den - 52 + 52) := small
      _ = 2 ^ (((52 : ℕ) : ℤ) + (roundExp num den - 52)) := by congr 1; push_cast; ring

/-- Among the numbers that f64Value_in_units allows, the rounded significand is nearest to the exact one, and where
another is as near the rounded one is even: below the binade 2 ^ 52 is nearer than any of them. -/
theorem roundSig_nearest {num den : Nat} (hn : 0 < num) (hd : 0 < den) {w : ℚ}
    (grid : (∃ k : ℤ, w = k) ∨ (-1022 < roundExp num den ∧ w < 2 ^ 52)) :
    |(roundSig num den : ℚ) - exactSig num den| ≤ |w - exactSig num den| ∧
    (|(roundSig num den : ℚ) - exactSig num den| = |w - exactSig num den| → w ≠ roundSig num den →
      roundSig num den % 2 = 0) := by
  obtain ⟨close, tie_even⟩ := roundSig_spec num hd
  have nearest (k : ℤ) := nearest_of_within_half (s := roundSig num den) (k := k) close
  obtain ⟨k, rfl⟩ | ⟨normal, small⟩ := grid
  · obtain ⟨le, half⟩ := nearest k
    exact ⟨le, fun tie ne => tie_even (half tie (by exact_mod_cast ne))⟩
  · have above := two_pow_52_le_exactSig hn hd normal
    have nearer : |(roundSig num den : ℚ) - exactSig num den| < |w - exactSig num den| := by
      refine ((nearest (2 ^ 52)).1).trans_lt ?_
      push_cast
      rw [abs_of_nonpos (by linarith), abs_of_nonpos (by linarith)]
      linarith
    exact ⟨nearer.le, fun tie => absurd tie nearer.ne⟩

theorem roundMag_even {num den : Nat} (h : roundSig num den % 2 = 0) : roundMag num den % 2 = 0 := by
  unfold roundMag
  omega

/-- Settles O52. Both distances are counted in the units of num / den, where the result is the rounded significand
(f64Value_rne64), any other number obeys f64Value_in_units, and roundSig_nearest compares the two. -/
theorem roundingIsToNearestEven : Obligations.RoundingIsToNearestEven := by
  intro neg num den y hd fin _
  change |f64Value (rne64 neg num den) - signOf neg * (num / den)| ≤ |f64Value y - signOf neg * (num / den)| ∧
    (|f64Value (rne64 neg num den) - signOf neg * (num / den)| = |f64Value y - signOf neg * (num / den)| → _)
  obtain rfl | hn := Nat.eq_zero_or_pos num
  · rw [rne64_zero, f64Value_pack_zero]
    exact ⟨by simp, fun _ _ => lowBit_pack neg (by norm_num) rfl⟩
  · rw [f64IsFinite_rne64 neg den hn] at fin
    have value := f64Value_rne64 neg hn hd fin
    obtain ⟨w, other, grid⟩ := f64Value_in_units neg num den y
    obtain ⟨le, even⟩ := roundSig_nearest hn hd grid
    have unit_pos : (0 : ℚ) < 2 ^ (roundExp num den - 52) := by positivity
    have result : signOf neg * f64Value (rne64 neg num den) = roundSig num den * 2 ^ (roundExp num den - 52) := by
      rw [value, ← mul_assoc, signOf_mul_self, one_mul]
    rw [abs_sub_signOf_mul, abs_sub_signOf_mul, result, other, ← exactSig_mul_unit num den, ← sub_mul, ← sub_mul,
      abs_mul, abs_mul, abs_of_pos unit_pos]
    refine ⟨by gcongr, fun tie ne => ?_⟩
    have sig_ne : w ≠ roundSig num den := by
      rintro rfl
      apply ne
      rw [← one_mul (f64Value y), ← signOf_mul_self neg, mul_assoc, other, value]
    rw [rne64_of_finite neg hn fin]
    exact lowBit_pack neg (by omega) (roundMag_even (even (mul_right_cancel₀ unit_pos.ne' tie) sig_ne))

/-! ### Multiplication and division -/

theorem f64IsNaN_of_finite {x : F64} (h : f64IsFinite x = true) : f64IsNaN x = false := by
  simp_all [f64IsFinite, f64IsNaN]

theorem f64IsInf_of_finite {x : F64} (h : f64IsFinite x = true) : f64IsInf x = false := by
  simp_all [f64IsFinite, f64IsInf]

theorem f64Mul_of_finite {a b : F64} (ha : f64IsFinite a = true) (hb : f64IsFinite b = true) :
    f64Mul a b = rne64 (f64Neg a != f64Neg b) (f64Num a * f64Num b) (f64Den a * f64Den b) := by
  simp [f64Mul, f64IsNaN_of_finite, f64IsInf_of_finite, ha, hb]

theorem f64Div_of_finite {a b : F64} (ha : f64IsFinite a = true) (hb : f64IsFinite b = true)
    (nonzero : f64IsZero b = false) :
    f64Div a b = rne64 (f64Neg a != f64Neg b) (f64Num a * f64Den b) (f64Den a * f64Num b) := by
  simp [f64Div, f64IsNaN_of_finite, f64IsInf_of_finite, ha, hb, nonzero]

theorem signed_product (a b : F64) :
    signOf (f64Neg a != f64Neg b) * ((f64Num a * f64Num b : ℕ) / (f64Den a * f64Den b : ℕ)) =
      f64Value a * f64Value b := by
  rw [signOf_bne, f64Value_eq, f64Value_eq]
  push_cast
  rw [mul_div_mul_comm]
  ring

theorem signed_quotient (a b : F64) :
    signOf (f64Neg a != f64Neg b) * ((f64Num a * f64Den b : ℕ) / (f64Den a * f64Num b : ℕ)) =
      f64Value a / f64Value b := by
  rw [signOf_bne, f64Value_eq, f64Value_eq, mul_div_mul_comm, signOf_div, div_div_div_eq]
  push_cast
  ring

/-- Settles O53: the operands that *64 and /64 hand to rne64 are the exact product and quotient. -/
theorem operationsRoundTheExactResult : Obligations.OperationsRoundTheExactResult := by
  intro a b ha hb
  refine ⟨⟨_, _, _, ?_, f64Mul_of_finite ha hb, signed_product a b⟩, fun nonzero =>
    ⟨_, _, _, ?_, f64Div_of_finite ha hb nonzero, signed_quotient a b⟩⟩
  · exact Nat.mul_pos (f64Den_pos a) (f64Den_pos b)
  · exact Nat.mul_pos (f64Den_pos a) (f64Num_pos nonzero)

/-! ### Exact results -/

/-- A significand that needs no rounding is kept. -/
theorem roundSig_eq_exactSig {num den : Nat} (hd : 0 < den) {k : ℤ}
    (on_grid : (num / den : ℚ) = k * 2 ^ (roundExp num den - 52)) : (roundSig num den : ℚ) = exactSig num den := by
  have exact : exactSig num den = k := by
    rw [exactSig, on_grid, mul_div_cancel_right₀ _ (by positivity)]
  have close := (roundSig_spec num hd).1
  rw [exact] at close ⊢
  exact_mod_cast eq_of_within_half (s := roundSig num den) close

/-- A rational m * 2 ^ j with m of at most 53 bits, in the range of the binary64 numbers, is not rounded. -/
theorem rne64_exact (neg : Bool) {num den m : Nat} {j : ℤ} (hd : 0 < den) (hm : m < 2 ^ 53) (hlow : -1074 ≤ j)
    (hhigh : j ≤ 970) (value : (num / den : ℚ) = m * 2 ^ j) :
    f64IsFinite (rne64 neg num den) = true ∧ f64Value (rne64 neg num den) = signOf neg * (num / den) := by
  obtain rfl | hn := Nat.eq_zero_or_pos num
  · rw [rne64_zero, f64Value_pack_zero, f64IsFinite_pack neg (by norm_num)]
    simp
  · have below : (num / den : ℚ) < 2 ^ (53 + j) := by
      have m_lt : (m : ℚ) < 2 ^ (53 : ℤ) := by exact_mod_cast hm
      rw [value, ← two_zpow_mul]
      gcongr
    have exp_lt : roundExp num den < 53 + j := roundExp_lt hn hd (by omega) below
    have sig_le := roundSig_le hn hd
    have fin : roundMag num den < 2047 * 2 ^ 52 := by
      unfold roundMag
      omega
    obtain ⟨k, on_grid⟩ := exists_int_mul_zpow m (show roundExp num den - 52 ≤ j by omega)
    rw [f64IsFinite_rne64 neg den hn, f64Value_rne64 neg hn hd fin,
      roundSig_eq_exactSig hd (value.trans (by exact_mod_cast on_grid)), exactSig_mul_unit]
    exact ⟨fin, rfl⟩

theorem signOf_mul_natAbs (z : ℤ) : signOf (decide (z < 0)) * (z.natAbs : ℚ) = z := by
  rw [Nat.cast_natAbs]
  by_cases neg : z < 0
  · simp [signOf, neg, abs_of_neg neg]
  · simp [signOf, neg, abs_of_nonneg (not_lt.1 neg)]

/-- Settles O54: the integers below 2 ^ 53 are their own significand, and 2 ^ 53 is 2 ^ 52 * 2. -/
theorem integersConvertExactly : Obligations.IntegersConvertExactly := by
  intro z hz
  have exact : f64IsFinite (f64OfInt z) = true ∧
      f64Value (f64OfInt z) = signOf (decide (z < 0)) * (z.natAbs / (1 : ℕ)) := by
    obtain below | top := hz.lt_or_eq
    · exact rne64_exact (j := 0) _ one_pos below (by norm_num) (by norm_num) (by simp)
    · exact rne64_exact (m := 2 ^ 52) (j := 1) _ one_pos (by norm_num) (by norm_num) (by norm_num)
        (by rw [top]; norm_num)
  rwa [Nat.cast_one, div_one, signOf_mul_natAbs] at exact

end Sys2Proof.Proofs.Float64
end

section
/-! PROOFS, the layer of the commands: what an operation writes, the points at which a command can stand, and the two
inductions: over the answers of one command, and over one step. -/

namespace Sys2Proof.Proofs.Commands

open Sys2Proof Sys2Proof.Machine

/-! ### What is written in the cache -/

/-- n is m after writes to the entry `target` alone, and to no entry if it is none. -/
inductive WritesOnly (target : Option Byte) (m : Memory) : Memory → Prop
  | nothing : WritesOnly target m m
  | write {n : Memory} (a v : Byte) (h : target = some a) (before : WritesOnly target m n) :
      WritesOnly target m (n.write a.toNat v)

theorem WritesOnly.trans {target : Option Byte} {m n k : Memory} (first : WritesOnly target m n)
    (second : WritesOnly target n k) : WritesOnly target m k := by
  induction second with
  | nothing => exact first
  | write a v h _ ih => exact .write a v h ih

/-- One write to the entry itself. -/
theorem writesOnly_write (m : Memory) (a v : Byte) : WritesOnly (some a) m (m.write a.toNat v) :=
  .write a v rfl .nothing

theorem WritesOnly.wf {target : Option Byte} {m n : Memory} (h : WritesOnly target m n) (hm : m.wf) : n.wf := by
  induction h with
  | nothing => exact hm
  | write a v _ _ ih => exact memory_wf_write v a.isLt ih

theorem WritesOnly.read_other {target : Option Byte} {m n : Memory} (h : WritesOnly target m n) {b : Byte}
    (hb : target ≠ some b) : n.read b.toNat = m.read b.toNat := by
  induction h with
  | nothing => rfl
  | write a v ha _ ih =>
    have ne : b.toNat ≠ a.toNat := fun e => hb (BitVec.eq_of_toNat_eq e ▸ ha)
    rw [memory_read_write_other _ v ne, ih]

theorem WritesOnly.eq_of_none {m n : Memory} (h : WritesOnly none m n) : n = m := by
  cases h with
  | nothing => rfl
  | write a v ha _ => cases ha

/-! ### The points of a command's rule -/

/-- The entry that the request of a waiting point is about. -/
def targetOf : Waiting → Option Byte
  | .byte a | .fill a _ | .commit a _ _ | .store a _ => some a
  | .run _ _ _ => none

/-- A command waits only for requests about the entry it names. -/
theorem targetOf_of_waitsAt {cfg : Config} {i : Instr} {w : Waiting} (h : waitsAt cfg i w) :
    targetOf w = entryOf cfg i := by
  cases i with
  | fspec h l => exact h.elim
  | brd a => rw [show w = _ from h]; rfl
  | bwr a v => rw [show w = _ from h]; rfl
  | bwc a => obtain rfl | ⟨v, rfl⟩ := h <;> rfl
  | bms a mask bits => rw [show w = _ from h]; rfl
  | fget a hi lo => obtain ⟨d, -, rfl⟩ := h; rfl
  | fset a hi lo v => obtain ⟨d, -, rfl | ⟨u, rfl⟩⟩ := h <;> rfl
  | mrd a n layout => obtain ⟨-, got, rfl⟩ := h; rfl
  | sacc s => obtain ⟨sc, -, rfl | ⟨u, rfl⟩⟩ := h <;> rfl
  | sgyr s => obtain ⟨sc, -, rfl | ⟨u, rfl⟩⟩ := h <;> rfl
  | racc m => obtain ⟨got, rfl⟩ := h; rfl
  | rgyr => obtain ⟨got, rfl⟩ := h; rfl
  | mraw => obtain ⟨got, rfl⟩ := h; rfl
  | mxyz => obtain ⟨got, rfl⟩ := h; rfl

/-- A run that waits for one of its bytes can wait for any other. -/
theorem waitsAt_run {cfg : Config} {i : Instr} {start : Byte} {got : List Byte} {use : RunUse}
    (h : waitsAt cfg i (.run start got use)) (got' : List Byte) : waitsAt cfg i (.run start got' use) := by
  cases i with
  | mrd a n layout => obtain ⟨width, _, eq⟩ := h; cases eq; exact ⟨width, got', rfl⟩
  | racc m => obtain ⟨_, eq⟩ := h; cases eq; exact ⟨got', rfl⟩
  | rgyr => obtain ⟨_, eq⟩ := h; cases eq; exact ⟨got', rfl⟩
  | mraw => obtain ⟨_, eq⟩ := h; cases eq; exact ⟨got', rfl⟩
  | mxyz => obtain ⟨_, eq⟩ := h; cases eq; exact ⟨got', rfl⟩
  | _ => simp [waitsAt] at h

/-- The WRITE follows the fill: BWC. -/
theorem waitsAt_commit_of_fill_commit {cfg : Config} {i : Instr} {a : Byte} (h : waitsAt cfg i (.fill a .commit))
    (v : Byte) : waitsAt cfg i (.commit a v .nothing) := by
  cases i with
  | bwc b =>
    obtain eq | ⟨_, eq⟩ := h <;> cases eq
    exact .inr ⟨v, rfl⟩
  | _ => simp [waitsAt, codePut] at h

/-- The WRITE follows the fill and the merge: FSET, SACC and SGYR. -/
theorem waitsAt_commit_of_fill_put {cfg : Config} {i : Instr} {a mask bits : Byte} {after : AfterWrite}
    (h : waitsAt cfg i (.fill a (.put mask bits after))) (v : Byte) : waitsAt cfg i (.commit a v after) := by
  cases i with
  | fset b hi lo u =>
    obtain ⟨d, hd, eq | ⟨_, eq⟩⟩ := h <;> cases eq
    exact ⟨d, hd, .inr ⟨v, rfl⟩⟩
  | sacc s =>
    obtain ⟨sc, hsc, eq | ⟨_, eq⟩⟩ := h <;> cases eq
    exact ⟨sc, hsc, .inr ⟨v, rfl⟩⟩
  | sgyr s =>
    obtain ⟨sc, hsc, eq | ⟨_, eq⟩⟩ := h <;> cases eq
    exact ⟨sc, hsc, .inr ⟨v, rfl⟩⟩
  | _ => simp [waitsAt] at h

/-- Only BWR stores a byte that the cache does not hold. -/
theorem eq_bwr_of_waitsAt_store {cfg : Config} {i : Instr} {a v : Byte} (h : waitsAt cfg i (.store a v)) :
    i = .bwr a v := by
  cases i with
  | bwr b u => cases h; rfl
  | _ => simp [waitsAt] at h

/-- Only SACC updates ACC_DIV after its WRITE. -/
theorem exists_sacc_of_waitsAt_commit {cfg : Config} {i : Instr} {a u : Byte} {sc : AccScale}
    (h : waitsAt cfg i (.commit a u (.accDiv sc))) : ∃ v, i = .sacc v ∧ accScaleOf v = some sc := by
  cases i with
  | sacc v =>
    obtain ⟨sc', scale, eq | ⟨_, eq⟩⟩ := h <;> cases eq
    exact ⟨v, rfl, scale⟩
  | _ => simp [waitsAt] at h

/-- Only SGYR updates GYR_DIV after its WRITE. -/
theorem exists_sgyr_of_waitsAt_commit {cfg : Config} {i : Instr} {a u : Byte} {sc : GyrScale}
    (h : waitsAt cfg i (.commit a u (.gyrDiv sc))) : ∃ v, i = .sgyr v ∧ gyrScaleOf v = some sc := by
  cases i with
  | sgyr v =>
    obtain ⟨sc', scale, eq | ⟨_, eq⟩⟩ := h <;> cases eq
    exact ⟨v, rfl, scale⟩
  | _ => simp [waitsAt] at h

/-! ### A state of a command's run -/

/-- The state is one of a run of command i: the command has ended, or it waits at a point of its rule (R28). -/
def Runs (i : Instr) (s : State) : Prop :=
  s.seq = .idle ∨ ∃ w, s.seq = .busy i w ∧ waitsAt s.cfg i w ∧ w.fits s

theorem fits_congr {s t : State} (h : t.cache = s.cache) (w : Waiting) : w.fits t ↔ w.fits s := by
  cases w <;> simp only [Waiting.fits, entry_congr h]

theorem sequencerOk_idle {s : State} (h : s.seq = .idle) : s.sequencerOk := by
  simp [State.sequencerOk, h]

theorem sequencerOk_busy {s : State} {i : Instr} {w : Waiting} (h : s.seq = .busy i w) :
    s.sequencerOk ↔ waitsAt s.cfg i w ∧ w.fits s := by
  simp [State.sequencerOk, h]

theorem Runs.sequencerOk {i : Instr} {s : State} (h : Runs i s) : s.sequencerOk := by
  obtain idle | ⟨w, busy, legal⟩ := h
  · exact sequencerOk_idle idle
  · exact (sequencerOk_busy busy).2 legal

theorem runs_answerHost (i : Instr) (s : State) (r : Response) : Runs i (s.answerHost r) := .inl rfl

theorem runs_await {i : Instr} {s : State} {w : Waiting} (point : waitsAt s.cfg i w) (fits : w.fits s) :
    Runs i (s.await i w) :=
  .inr ⟨w, rfl, point, (fits_congr (s := s) (await_cache s i w) w).2 fits⟩

/-- Neither the moves that are left nor the observation matters. -/
theorem Runs.frame {i : Instr} {s : State} (h : Runs i s) (ins : List Input) (es : List Event) :
    Runs i { s with inputs := ins, trace := es } := by
  obtain idle | ⟨w, busy, point, fits⟩ := h
  · exact .inl idle
  · exact .inr ⟨w, busy, point, (fits_congr (s := s) rfl w).2 fits⟩

/-! ### The use of an entry -/

section
variable (i : Instr) (a v : Byte) (use : EntryUse) (s : State)

@[simp] theorem useValue_cfg : (useValue i a v use s).cfg = s.cfg := by cases use <;> rfl
@[simp] theorem useValue_accDiv : (useValue i a v use s).accDiv = s.accDiv := by cases use <;> rfl
@[simp] theorem useValue_gyrDiv : (useValue i a v use s).gyrDiv = s.gyrDiv := by cases use <;> rfl
@[simp] theorem useValue_draws : (useValue i a v use s).draws = s.draws := by cases use <;> rfl

theorem useValue_writesOnly : WritesOnly (some a) s.cache (useValue i a v use s).cache := by
  cases use with
  | commit => exact .nothing
  | stage mask bits => exact writesOnly_write _ _ _
  | get d => exact .nothing
  | put mask bits after => exact writesOnly_write _ _ _

/-- After the fill the command ends, or waits for the WRITE of the byte that the entry holds (R122, R141). -/
theorem useValue_runs {i a v use s} (point : waitsAt s.cfg i (.fill a use)) (valid : s.entry a = some v) :
    Runs i (useValue i a v use s) := by
  cases use with
  | commit => exact runs_await (waitsAt_commit_of_fill_commit point v) valid
  | stage mask bits => exact runs_answerHost _ _ _
  | get d => exact runs_answerHost _ _ _
  | put mask bits after => exact runs_await (waitsAt_commit_of_fill_put point _) (entry_setEntry_same _ _ _)

theorem useValue_inputs (ins : List Input) :
    useValue i a v use { s with inputs := ins } = { useValue i a v use s with inputs := ins } := by
  cases use <;> rfl

theorem fillThen_inputs (ins : List Input) :
    fillThen i a use { s with inputs := ins } = { fillThen i a use s with inputs := ins } := by
  cases h : s.entry a with
  | none => rw [fillThen_invalid h, fillThen_invalid (by exact h)]; rfl
  | some v => rw [fillThen_valid h, fillThen_valid (by exact h), useValue_inputs]

end

/-! ### Runs of bytes -/

section
variable (i : Instr) (start : Byte) (got : List Byte) (use : RunUse) (s : State)

/-- A run waits for its next byte, or responds. -/
theorem continueRun_cases :
    (got.length < use.count ∧ continueRun i start got use s = s.await i (.run start got use)) ∨
      ∃ r, continueRun i start got use s = s.answerHost r := by
  obtain more | done := Nat.lt_or_ge got.length use.count
  · exact .inl ⟨more, continueRun_more more i start s⟩
  · exact .inr ⟨_, continueRun_done done i start s⟩

@[simp] theorem continueRun_cache : (continueRun i start got use s).cache = s.cache := by
  obtain ⟨-, eq⟩ | ⟨r, eq⟩ := continueRun_cases i start got use s <;> simp [eq]

@[simp] theorem continueRun_cfg : (continueRun i start got use s).cfg = s.cfg := by
  obtain ⟨-, eq⟩ | ⟨r, eq⟩ := continueRun_cases i start got use s <;> simp [eq]

@[simp] theorem continueRun_accDiv : (continueRun i start got use s).accDiv = s.accDiv := by
  obtain ⟨-, eq⟩ | ⟨r, eq⟩ := continueRun_cases i start got use s <;> simp [eq]

@[simp] theorem continueRun_gyrDiv : (continueRun i start got use s).gyrDiv = s.gyrDiv := by
  obtain ⟨-, eq⟩ | ⟨r, eq⟩ := continueRun_cases i start got use s <;> simp [eq]

@[simp] theorem continueRun_draws : (continueRun i start got use s).draws = s.draws := by
  obtain ⟨-, eq⟩ | ⟨r, eq⟩ := continueRun_cases i start got use s <;> simp [eq]

theorem continueRun_inputs (ins : List Input) :
    continueRun i start got use { s with inputs := ins } = { continueRun i start got use s with inputs := ins } := by
  obtain more | done := Nat.lt_or_ge got.length use.count
  · rw [continueRun_more more, continueRun_more more]; rfl
  · rw [continueRun_done done, continueRun_done done, runPayload_congr (s := s) rfl rfl rfl]; rfl

end

/-! ### The body of a command -/

/-- What a body can do: respond at once, wait for a first request, or use an entry that is valid already. -/
def Starts (i : Instr) (s t : State) : Prop :=
  (∃ r, t = s.answerHost r) ∨
  (∃ w, waitsAt s.cfg i w ∧ w.fits s ∧ t = s.await i w) ∨
  (∃ a v use, waitsAt s.cfg i (.fill a use) ∧ s.entry a = some v ∧ t = useValue i a v use s)

theorem starts_fillThen {i : Instr} {a : Byte} {use : EntryUse} {s : State} (point : waitsAt s.cfg i (.fill a use)) :
    Starts i s (fillThen i a use s) := by
  cases h : s.entry a with
  | none => exact .inr (.inl ⟨_, point, h, fillThen_invalid h i use⟩)
  | some v => exact .inr (.inr ⟨a, v, use, point, h, fillThen_valid h i use⟩)

theorem starts_continueRun {i : Instr} {start : Byte} {use : RunUse} {s : State}
    (point : waitsAt s.cfg i (.run start [] use)) (range : start.toNat + use.count ≤ 256) :
    Starts i s (continueRun i start [] use s) := by
  obtain ⟨more, eq⟩ | done := continueRun_cases i start [] use s
  · exact .inr (.inl ⟨_, point, ⟨more, range⟩, eq⟩)
  · exact .inl done

/-- The one walk through the 14 bodies. -/
theorem starts_bodyOf (i : Instr) (s : State) : Starts i s (bodyOf i s) := by
  cases i with
  | fspec h l =>
    simp only [bodyOf, fspecBody]
    split
    · exact .inl ⟨_, rfl⟩
    · exact .inl ⟨_, rfl⟩
  | brd a => exact .inr (.inl ⟨_, rfl, trivial, rfl⟩)
  | bwr a v => exact .inr (.inl ⟨_, rfl, trivial, rfl⟩)
  | bwc a => exact starts_fillThen (.inl rfl)
  | bms a mask bits => exact starts_fillThen rfl
  | fget a h l =>
    simp only [bodyOf, fgetBody]
    split
    · next d hd => exact starts_fillThen ⟨d, hd, rfl⟩
    · exact .inl ⟨_, rfl⟩
  | fset a h l v =>
    simp only [bodyOf, fsetBody]
    split
    · next d hd => exact starts_fillThen ⟨d, hd, .inl rfl⟩
    · exact .inl ⟨_, rfl⟩
  | mrd a n layout =>
    simp only [bodyOf, mrdBody]
    split
    · exact .inl ⟨_, rfl⟩
    · next range =>
      split
      · exact .inl ⟨_, rfl⟩
      · next width =>
        have width : layoutBytes layout = n.toNat := not_not.1 width
        exact starts_continueRun ⟨width, [], rfl⟩ (by simp only [RunUse.count, width]; omega)
  | sacc v =>
    simp only [bodyOf, saccBody]
    split
    · next sc hsc => exact starts_fillThen ⟨sc, hsc, .inl rfl⟩
    · exact .inl ⟨_, rfl⟩
  | sgyr v =>
    simp only [bodyOf, sgyrBody]
    split
    · next sc hsc => exact starts_fillThen ⟨sc, hsc, .inl rfl⟩
    · exact .inl ⟨_, rfl⟩
  | racc mps2 => exact starts_continueRun (use := .accel mps2) ⟨[], rfl⟩ (Nat.succ_le_succ s.cfg.wiring.accDataOk)
  | rgyr => exact starts_continueRun (use := .gyro) ⟨[], rfl⟩ (Nat.succ_le_succ s.cfg.wiring.gyrDataOk)
  | mraw => exact starts_continueRun (use := .magRaw) ⟨[], rfl⟩ (Nat.succ_le_succ s.cfg.wiring.magDataOk)
  | mxyz => exact starts_continueRun (use := .magNorm) ⟨[], rfl⟩ (Nat.succ_le_succ s.cfg.wiring.magDataOk)

theorem bodyOf_inputs (i : Instr) (s : State) (ins : List Input) :
    bodyOf i { s with inputs := ins } = { bodyOf i s with inputs := ins } := by
  cases i with
  | fspec h l => simp only [bodyOf, fspecBody]; split <;> rfl
  | brd a => rfl
  | bwr a v => rfl
  | bwc a => exact fillThen_inputs _ _ _ _ _
  | bms a mask bits => exact fillThen_inputs _ _ _ _ _
  | fget a h l =>
    simp only [bodyOf, fgetBody]
    split
    · exact fillThen_inputs _ _ _ _ _
    · rfl
  | fset a h l v =>
    simp only [bodyOf, fsetBody]
    split
    · exact fillThen_inputs _ _ _ _ _
    · rfl
  | mrd a n layout =>
    simp only [bodyOf, mrdBody]
    split
    · rfl
    · split
      · rfl
      · exact continueRun_inputs _ _ _ _ _ _
  | sacc v =>
    simp only [bodyOf, saccBody]
    split
    · exact fillThen_inputs _ _ _ _ _
    · rfl
  | sgyr v =>
    simp only [bodyOf, sgyrBody]
    split
    · exact fillThen_inputs _ _ _ _ _
    · rfl
  | racc mps2 => exact continueRun_inputs _ _ [] (.accel mps2) s ins
  | rgyr => exact continueRun_inputs _ _ [] .gyro s ins
  | mraw => exact continueRun_inputs _ _ [] .magRaw s ins
  | mxyz => exact continueRun_inputs _ _ [] .magNorm s ins

section
variable (i : Instr) (s : State)

@[simp] theorem bodyOf_cfg : (bodyOf i s).cfg = s.cfg := by
  obtain ⟨r, eq⟩ | ⟨w, -, -, eq⟩ | ⟨a, v, use, -, -, eq⟩ := starts_bodyOf i s <;> simp [eq]

@[simp] theorem bodyOf_accDiv : (bodyOf i s).accDiv = s.accDiv := by
  obtain ⟨r, eq⟩ | ⟨w, -, -, eq⟩ | ⟨a, v, use, -, -, eq⟩ := starts_bodyOf i s <;> simp [eq]

@[simp] theorem bodyOf_gyrDiv : (bodyOf i s).gyrDiv = s.gyrDiv := by
  obtain ⟨r, eq⟩ | ⟨w, -, -, eq⟩ | ⟨a, v, use, -, -, eq⟩ := starts_bodyOf i s <;> simp [eq]

@[simp] theorem bodyOf_draws : (bodyOf i s).draws = s.draws := by
  obtain ⟨r, eq⟩ | ⟨w, -, -, eq⟩ | ⟨a, v, use, -, -, eq⟩ := starts_bodyOf i s <;> simp [eq]

theorem bodyOf_writesOnly : WritesOnly (entryOf s.cfg i) s.cache (bodyOf i s).cache := by
  obtain ⟨r, eq⟩ | ⟨w, -, -, eq⟩ | ⟨a, v, use, point, -, eq⟩ := starts_bodyOf i s
  · rw [eq]; exact .nothing
  · rw [eq]; exact .nothing
  · rw [eq, ← targetOf_of_waitsAt point]; exact useValue_writesOnly i a v use s

theorem bodyOf_runs : Runs i (bodyOf i s) := by
  obtain ⟨r, eq⟩ | ⟨w, point, fits, eq⟩ | ⟨a, v, use, point, valid, eq⟩ := starts_bodyOf i s
  · rw [eq]; exact runs_answerHost i s r
  · rw [eq]; exact runs_await point fits
  · rw [eq]; exact useValue_runs point valid

/-- A command starts alike whatever moves are left. -/
theorem beginCommand_with_inputs (ins : List Input) :
    State.beginCommand { s with inputs := ins } = { s.beginCommand with inputs := ins } := by
  unfold State.beginCommand
  split <;> rfl

end

/-! ### The answer to a request -/

section
variable (i : Instr) (w : Waiting) (a : Answer) (d : Byte) (s : State)

@[simp] theorem onOk_cfg : (onOk i w d s).cfg = s.cfg := by cases w <;> simp [onOk]

@[simp] theorem onOk_draws : (onOk i w d s).draws = s.draws := by cases w <;> simp [onOk]

theorem onOk_writesOnly : WritesOnly (targetOf w) s.cache (onOk i w d s).cache := by
  cases w with
  | byte a => exact writesOnly_write _ _ _
  | run start got use => simp only [onOk, continueRun_cache]; exact .nothing
  | fill a use => exact (writesOnly_write _ _ _).trans (useValue_writesOnly i a d use (s.setEntry a d))
  | commit a v after => simp only [onOk, respond_cache, afterWrite_cache]; exact .nothing
  | store a v => exact writesOnly_write _ _ _

/-- An OK changes the divisors only where it completes the WRITE of a scale code, and the command ends (R182, R183). -/
theorem onOk_divisors :
    ((onOk i w d s).accDiv = s.accDiv ∧ (onOk i w d s).gyrDiv = s.gyrDiv) ∨
      ∃ a v after, w = .commit a v after ∧ onOk i w d s = (afterWrite after s).respond .none := by
  cases w with
  | commit a v after => exact .inr ⟨a, v, after, rfl, rfl⟩
  | _ => exact .inl (by simp [onOk])

/-- A command answered OK has ended or waits at the next point of its rule (R28). -/
theorem onOk_runs {i w d s} (point : waitsAt s.cfg i w) (fits : w.fits s) : Runs i (onOk i w d s) := by
  cases w with
  | byte a => exact runs_answerHost _ _ _
  | run start got use =>
    obtain ⟨more, eq⟩ | ⟨r, eq⟩ := continueRun_cases i start (got ++ [d]) use s
    · simp only [onOk, eq]
      exact runs_await (waitsAt_run point _) ⟨more, fits.2⟩
    · simp only [onOk, eq]
      exact runs_answerHost _ _ _
  | fill a use => exact useValue_runs (s := s.setEntry a d) point (entry_setEntry_same _ _ _)
  | commit a v after => exact runs_answerHost _ _ _
  | store a v => exact runs_answerHost _ _ _

@[simp] theorem cacheAfterFailure_cfg : (cacheAfterFailure w s).cfg = s.cfg := by
  obtain eq | ⟨a, v, -, eq | eq⟩ := cacheAfterFailure_cases w s <;> simp [eq]

@[simp] theorem cacheAfterFailure_accDiv : (cacheAfterFailure w s).accDiv = s.accDiv := by
  obtain eq | ⟨a, v, -, eq | eq⟩ := cacheAfterFailure_cases w s <;> simp [eq]

@[simp] theorem cacheAfterFailure_gyrDiv : (cacheAfterFailure w s).gyrDiv = s.gyrDiv := by
  obtain eq | ⟨a, v, -, eq | eq⟩ := cacheAfterFailure_cases w s <;> simp [eq]

theorem cacheAfterFailure_draws :
    (cacheAfterFailure w s).draws = s.draws ∨
      ∃ a v, w = .store a v ∧ (cacheAfterFailure w s).draws = s.draws + 1 := by
  obtain eq | ⟨a, v, hw, eq | eq⟩ := cacheAfterFailure_cases w s
  · exact .inl (by rw [eq])
  · exact .inr ⟨a, v, hw, by rw [eq]⟩
  · exact .inr ⟨a, v, hw, by rw [eq]; rfl⟩

theorem cacheAfterFailure_writesOnly : WritesOnly (targetOf w) s.cache (cacheAfterFailure w s).cache := by
  obtain eq | ⟨a, v, hw, eq | eq⟩ := cacheAfterFailure_cases w s
  · rw [eq]; exact .nothing
  · rw [eq]; exact .nothing
  · rw [eq, hw]; exact writesOnly_write _ _ _

@[simp] theorem deliver_cfg : (deliver i w a s).cfg = s.cfg := by
  cases a <;> simp [deliver_ok, deliver_err]

theorem deliver_writesOnly : WritesOnly (targetOf w) s.cache (deliver i w a s).cache := by
  cases a with
  | ok d => exact onOk_writesOnly i w d (s.log _)
  | err e => exact cacheAfterFailure_writesOnly w (s.log _)

/-- An answer changes the divisors only as the update that ends SACC or SGYR does. -/
theorem deliver_divisors :
    ((deliver i w a s).accDiv = s.accDiv ∧ (deliver i w a s).gyrDiv = s.gyrDiv) ∨
      ∃ b v after, w = .commit b v after ∧ (deliver i w a s).seq = .idle ∧
        (deliver i w a s).accDiv = (afterWrite after s).accDiv ∧
        (deliver i w a s).gyrDiv = (afterWrite after s).gyrDiv := by
  cases a with
  | ok d =>
    rw [deliver_ok]
    obtain same | ⟨b, v, after, hw, eq⟩ := onOk_divisors i w d
      (s.log (.transaction (w.request s.cfg.wiring.devAddr) (.ok d)))
    · exact .inl same
    · refine .inr ⟨b, v, after, hw, ?_⟩
      rw [eq]
      cases after <;> simp
  | err e => exact .inl (by simp [deliver_err])

/-- Only the failure of BWR's WRITE makes a draw, and BWR ends (R124, assumption 4). -/
theorem deliver_draws :
    (deliver i w a s).draws = s.draws ∨
      ∃ b v, w = .store b v ∧ (deliver i w a s).seq = .idle ∧ (deliver i w a s).draws = s.draws + 1 := by
  cases a with
  | ok d => exact .inl (by simp [deliver_ok])
  | err e =>
    obtain same | ⟨b, v, hw, draw⟩ := cacheAfterFailure_draws w
      (s.log (.transaction (w.request s.cfg.wiring.devAddr) (.err e)))
    · exact .inl same
    · exact .inr ⟨b, v, hw, rfl, draw⟩

theorem deliver_runs {i w s} (point : waitsAt s.cfg i w) (fits : w.fits s) : Runs i (deliver i w a s) := by
  cases a with
  | ok d => exact onOk_runs (s := s.log _) point ((fits_congr (s := s) rfl w).2 fits)
  | err e => exact runs_answerHost _ _ _

end

/-! ### The answers that are there -/

/-- A command stops short of its end only where no answer is left. -/
theorem noAnswerFirst_of_drive_busy (ins : List Input) (s : State) (busy : (drive ins s).seq ≠ .idle) :
    noAnswerFirst (drive ins s).inputs = true := by
  induction ins generalizing s with
  | nil => rfl
  | cons x xs ih =>
    cases x with
    | answer a =>
      obtain idle | ⟨i, w, wait⟩ := sequencer_cases s
      · exact absurd (by rw [drive_idle idle]; exact idle) busy
      · rw [drive_answer wait] at busy ⊢
        exact ih _ busy
    | _ => rfl

/-- The induction over one command: what its body brings about, whatever moves are left, and each answer keeps while
the command waits at a point of its rule, holds where the command stops; it is then at such a point or has ended. -/
theorem exec_runs_and {i : Instr} {s t : State} (P : State → Prop)
    (moves : ∀ u ins, P u → P { u with inputs := ins })
    (body : P (bodyOf i s.beginCommand))
    (answer : ∀ u w a, u.seq = .busy i w → u.cfg = s.cfg → waitsAt s.cfg i w → P u → P (deliver i w a u))
    (h : exec i s = .next t) : Runs i t ∧ t.cfg = s.cfg ∧ P t := by
  obtain ⟨-, rfl⟩ := exec_next h
  refine drive_keeps (fun u => Runs i u ∧ u.cfg = s.cfg ∧ P u) ?_ ?_ _ _ ⟨bodyOf_runs i _, by simp, body⟩
  · intro u ins ⟨runs, cfg, hu⟩
    exact ⟨runs.frame ins u.trace, cfg, moves u ins hu⟩
  · intro u j w a wait ⟨runs, cfg, hu⟩
    obtain idle | ⟨w', wait', point, fits⟩ := runs
    · rw [idle] at wait; cases wait
    · rw [wait'] at wait
      cases wait
      exact ⟨deliver_runs a point fits, by rw [deliver_cfg, cfg], answer u w a wait' cfg (cfg ▸ point) hu⟩

/-- A command leaves the configuration, and it has ended or waits at a point of its rule. -/
theorem exec_runs {i : Instr} {s t : State} (h : exec i s = .next t) : Runs i t ∧ t.cfg = s.cfg :=
  have ⟨runs, cfg, _⟩ :=
    exec_runs_and (fun _ => True) (fun _ _ _ => trivial) trivial (fun _ _ _ _ _ _ _ => trivial) h
  ⟨runs, cfg⟩

/-- The same induction, for what it proves beyond exec_runs. -/
theorem exec_induction {i : Instr} {s t : State} (P : State → Prop)
    (moves : ∀ u ins, P u → P { u with inputs := ins })
    (body : P (bodyOf i s.beginCommand))
    (answer : ∀ u w a, u.seq = .busy i w → u.cfg = s.cfg → waitsAt s.cfg i w → P u → P (deliver i w a u))
    (h : exec i s = .next t) : P t :=
  have ⟨_, _, result⟩ := exec_runs_and P moves body answer h
  result

theorem raise_of_idle {s : State} (idle : s.seq = .idle) (st : Status) (p : Payload) :
    s.raise st p = { s with trace := .response ⟨st, p⟩ :: s.trace } := by
  rw [show s = { s with seq := .idle } by rw [← idle]]
  rfl

/-- The induction over a step: what speaks neither of the moves that are left nor of the observation, holds of the
reset values, and is kept by the start of every command and by every answer, is kept by every step. -/
theorem step_keeps (P : State → Prop)
    (frame : ∀ u ins es, P u → P { u with inputs := ins, trace := es })
    (reset : ∀ u es, P u → P (u.toReset es))
    (body : ∀ u i, P u → P (bodyOf i u.beginCommand))
    (answer : ∀ u i w a, u.seq = .busy i w → P u → P (deliver i w a u))
    {s t : State} (hs : P s) (h : step s = .next t) : P t := by
  have driven : ∀ ins u, P u → P (drive ins u) :=
    drive_keeps P (fun u ins => frame u ins u.trace) (fun u i w a busy => answer u i w a busy)
  obtain ⟨-, rfl⟩ | ⟨w, rest, i, -, -, run⟩ | ⟨w, rest, e, -, -, idle, rfl⟩ | ⟨rest, -, rfl⟩ |
    ⟨a, rest, i, w, -, busy, rfl⟩ | ⟨w, rest, -, -, rfl⟩ | ⟨a, rest, i, w, -, -, rfl⟩ := step_cases h
  · exact hs
  · obtain ⟨-, rfl⟩ := exec_next run
    exact driven _ _ (body _ i (frame s rest _ hs))
  · rw [raise_of_idle (by exact idle)]
    exact frame s rest _ hs
  · obtain ⟨es, eq, -⟩ := assertReset_cases { s with inputs := rest }
    rw [eq]
    exact reset _ es (frame s rest s.trace hs)
  · exact driven rest _ (answer s i w a busy hs)
  · exact reset _ _ (frame s rest s.trace hs)
  · exact reset _ _ (frame s rest s.trace hs)

end Sys2Proof.Proofs.Commands
end

section
/-! PROOFS of the statements of spec/10_state.md: reset and the start of a command, when the answers come, what a
command writes, and the invariants of every step. -/

namespace Sys2Proof.Proofs.StateRules

open Sys2Proof Sys2Proof.Machine Sys2Proof.Proofs.Commands

/-! ### The divisors (R24, R181) -/

theorem accDivisor_legal (sc : AccScale) : accDivisor sc ∈ accDivisors := by cases sc <;> decide

theorem gyrDivisor_legal (sc : GyrScale) : gyrDivisor sc ∈ gyrDivisors := by cases sc <;> decide

theorem accDivisor_exact : ∀ n ∈ accScales,
    (accScaleOf (BitVec.ofNat 16 n)).map (fun sc => (accDivisor sc).toNat * n) = some 32768 := by decide

theorem gyrDivisor_exact : ∀ n ∈ gyrScales,
    (gyrScaleOf (BitVec.ofNat 16 n)).map (fun sc => (gyrDivisor sc).toNat * n) = some 32768 := by decide

/-- A value that names an accelerometer scale is one of R180's, and R181's divisor of it is exact. -/
theorem accDivisor_of_accScaleOf {v : BitVec 16} {sc : AccScale} (h : accScaleOf v = some sc) :
    v.toNat ∈ accScales ∧ (accDivisor sc).toNat * v.toNat = 32768 := by
  have mem : v.toNat ∈ accScales := by
    by_contra other
    simp [accScaleOf, List.idxOf?_eq_none_iff.2 other] at h
  have exact := accDivisor_exact v.toNat mem
  rw [BitVec.ofNat_toNat, BitVec.setWidth_eq, h] at exact
  exact ⟨mem, Option.some.inj exact⟩

/-- The same for the gyroscope. -/
theorem gyrDivisor_of_gyrScaleOf {v : BitVec 16} {sc : GyrScale} (h : gyrScaleOf v = some sc) :
    v.toNat ∈ gyrScales ∧ (gyrDivisor sc).toNat * v.toNat = 32768 := by
  have mem : v.toNat ∈ gyrScales := by
    by_contra other
    simp [gyrScaleOf, List.idxOf?_eq_none_iff.2 other] at h
  have exact := gyrDivisor_exact v.toNat mem
  rw [BitVec.ofNat_toNat, BitVec.setWidth_eq, h] at exact
  exact ⟨mem, Option.some.inj exact⟩

/-! ### The invariant (R21, R24, R28) -/

/-- A state at its reset values has the invariant. -/
theorem inv_of_reset_values {s : State} (cache : s.cache = []) (acc : s.accDiv = 1) (gyr : s.gyrDiv = 1)
    (idle : s.seq = .idle) : s.Inv where
  cacheWf := by rw [cache]; exact memory_wf_nil
  divisors := by rw [State.divisorsLegal, acc, gyr]; decide
  sequencer := sequencerOk_idle idle

/-- R29's clearing keeps the canonical form. -/
theorem wf_beginCommand {s : State} (h : s.cache.wf) : s.beginCommand.cache.wf := by
  rw [beginCommand_cache]
  split
  · exact h
  · exact memory_wf_nil

theorem divisorsLegal_congr {s t : State} (acc : t.accDiv = s.accDiv) (gyr : t.gyrDiv = s.gyrDiv)
    (h : s.divisorsLegal) : t.divisorsLegal := by
  rwa [State.divisorsLegal, acc, gyr]

theorem divisorsLegal_afterWrite {s : State} (after : AfterWrite) (h : s.divisorsLegal) :
    (afterWrite after s).divisorsLegal := by
  cases after with
  | nothing => exact h
  | accDiv sc => exact ⟨accDivisor_legal sc, h.2⟩
  | gyrDiv sc => exact ⟨h.1, gyrDivisor_legal sc⟩

theorem divisorsLegal_deliver {s : State} (i : Instr) (w : Waiting) (a : Answer) (h : s.divisorsLegal) :
    (deliver i w a s).divisorsLegal := by
  obtain ⟨acc, gyr⟩ | ⟨b, v, after, -, -, acc, gyr⟩ := deliver_divisors i w a s
  · exact divisorsLegal_congr acc gyr h
  · exact divisorsLegal_congr acc gyr (divisorsLegal_afterWrite after h)

theorem divisorsLegal_start {s : State} (i : Instr) (h : s.divisorsLegal) :
    (bodyOf i s.beginCommand).divisorsLegal :=
  divisorsLegal_congr (by simp) (by simp) h

theorem inv_start {s : State} (i : Instr) (h : s.Inv) : (bodyOf i s.beginCommand).Inv where
  cacheWf := (bodyOf_writesOnly i s.beginCommand).wf (wf_beginCommand h.cacheWf)
  divisors := divisorsLegal_start i h.divisors
  sequencer := (bodyOf_runs i s.beginCommand).sequencerOk

theorem inv_deliver {s : State} {i : Instr} {w : Waiting} (a : Answer) (busy : s.seq = .busy i w) (h : s.Inv) :
    (deliver i w a s).Inv where
  cacheWf := (deliver_writesOnly i w a s).wf h.cacheWf
  divisors := divisorsLegal_deliver i w a h.divisors
  sequencer :=
    have ⟨point, fits⟩ := (sequencerOk_busy busy).1 h.sequencer
    (deliver_runs a point fits).sequencerOk

theorem inv_frame {s : State} (ins : List Input) (es : List Event) (h : s.Inv) :
    State.Inv { s with inputs := ins, trace := es } where
  cacheWf := h.cacheWf
  divisors := h.divisors
  sequencer := by
    obtain idle | ⟨i, w, busy⟩ := sequencer_cases s
    · exact sequencerOk_idle idle
    · have ⟨point, fits⟩ := (sequencerOk_busy busy).1 h.sequencer
      exact (Runs.frame (.inr ⟨w, busy, point, fits⟩) ins es).sequencerOk

/-- Settles O45, by the induction over a step. -/
theorem stepKeepsTheInvariant : Obligations.StepKeepsTheInvariant := fun _ _ =>
  step_keeps State.Inv
    (frame := fun _ => inv_frame)
    (reset := fun _ _ _ => inv_of_reset_values rfl rfl rfl rfl)
    (body := fun _ => inv_start)
    (answer := fun _ _ _ => inv_deliver)

/-- Settles O46. -/
theorem invariantHoldsAfterReset : Obligations.InvariantHoldsAfterReset :=
  ⟨fun _ => inv_of_reset_values rfl rfl rfl rfl, inv_of_reset_values rfl rfl rfl rfl⟩

/-- Settles O47, by the induction over a step: nothing of the sequencer is needed, since only the update that follows a
WRITE touches a divisor, whichever command waits. -/
theorem divisorsStayLegal : Obligations.DivisorsStayLegal := fun _ _ =>
  step_keeps State.divisorsLegal
    (frame := fun _ _ _ h => h)
    (reset := fun _ _ _ => (inv_of_reset_values rfl rfl rfl rfl).divisors)
    (body := fun _ => divisorsLegal_start)
    (answer := fun _ i w a _ => divisorsLegal_deliver i w a)

/-- Settles O48, by the induction over a step. -/
theorem configurationIsFixed : Obligations.ConfigurationIsFixed := fun s _ =>
  step_keeps (·.cfg = s.cfg)
    (frame := fun _ _ _ h => h)
    (reset := fun _ _ h => h)
    (body := fun u i h => by rw [bodyOf_cfg, beginCommand_cfg, h])
    (answer := fun u i w a _ h => by rw [deliver_cfg, h])
    rfl

/-! ### Reset, and the start of a command (R29, R30) -/

/-- Settles O11. -/
theorem stateAfterReset : Obligations.StateAfterReset :=
  ⟨fun _ _ => ⟨memory_read_nil _, rfl, rfl, rfl, rfl⟩, Config.board, rfl⟩

/-- Only the sequencer, the moves and the state after R29's clearing decide what a command does. -/
theorem exec_congr {s t : State} (i : Instr) (seq : t.seq = s.seq) (ins : t.inputs = s.inputs)
    (start : t.beginCommand = s.beginCommand) : exec i t = exec i s := by
  rw [exec_eq_runCommand, exec_eq_runCommand, runCommand, runCommand, seq, ins, start]

/-- Settles O12. -/
theorem cachePersistenceParameter : Obligations.CachePersistenceParameter := fun i s =>
  ⟨startEntry_of_persist, fun forget =>
    ⟨startEntry_of_not_persist forget, exec_congr i rfl rfl (by simp [State.beginCommand, forget])⟩⟩

/-! ### Answers that come later (assumption 8) -/

/-- The moves that are left when a command starts make no difference to what a drive makes of its body. -/
theorem drive_body_with_inputs (xs : List Input) (i : Instr) (s : State) (ins : List Input) :
    drive xs (bodyOf i (State.beginCommand { s with inputs := ins })) = drive xs (bodyOf i s.beginCommand) := by
  rw [beginCommand_with_inputs, bodyOf_inputs, drive_inputs]

theorem step_answer {s : State} {i : Instr} {w : Waiting} (busy : s.seq = .busy i w) (a : Answer) (rest : List Input) :
    step { s with inputs := .answer a :: rest } = .next (drive rest (deliver i w a s)) := by
  have wait : step { s with inputs := .answer a :: rest } =
      .next (drive rest (deliver i w a { s with inputs := .answer a :: rest })) := by
    simp [step, stepOnce, takeAnswer, busy]
  rw [wait, deliver_inputs, drive_inputs]

/-- Settles O32: the drive over the answers splits where the command was left waiting (drive_append), and the step that
takes the next answer is what is left of it. -/
theorem answersMayComeLater : Obligations.AnswersMayComeLater := by
  intro i s t as a rest run notIdle
  obtain done | ⟨j, w, busy⟩ := sequencer_cases t
  · exact absurd done notIdle
  · obtain ⟨idle, rfl⟩ := exec_next run
    rw [step_answer busy, exec_idle (by exact idle)]
    simp only [drive_body_with_inputs] at busy ⊢
    rw [drive_append as _ _ ⟨j, w, busy⟩, drive_answer busy]

/-! ### What one command does -/

/-- Settles O33: the induction over the command's answers keeps it at a point of its rule, and the drive stops there
only where no answer is left. -/
theorem busyCommandWaitsForItsOwnRequest : Obligations.BusyCommandWaitsForItsOwnRequest := by
  intro i j w s t run busy
  obtain ⟨runs, cfg⟩ := exec_runs run
  obtain idle | ⟨w', busy', point, fits⟩ := runs
  · rw [idle] at busy; cases busy
  · rw [busy'] at busy
    cases busy
    obtain ⟨-, rfl⟩ := exec_next run
    exact ⟨rfl, cfg ▸ point, fits, noAnswerFirst_of_drive_busy _ _ (by rw [busy']; exact nofun)⟩

/-- A command writes only the entry it names, after R29's clearing. -/
theorem exec_writesOnly {i : Instr} {s t : State} (run : exec i s = .next t) :
    WritesOnly (entryOf s.cfg i) s.startCache t.cache := by
  refine exec_induction (fun u => WritesOnly (entryOf s.cfg i) s.startCache u.cache) (fun _ _ h => h) ?_ ?_ run
  · have start := bodyOf_writesOnly i s.beginCommand
    rwa [beginCommand_cfg] at start
  · intro u w a _ _ point before
    rw [← targetOf_of_waitsAt point] at before ⊢
    exact before.trans (deliver_writesOnly i w a u)

/-- From s to t of command i no draw was made, or the one of a BWR that has ended. -/
def DrawsAtEnd (i : Instr) (s t : State) : Prop :=
  t.draws = s.draws ∨ ∃ a v, i = .bwr a v ∧ t.seq = .idle ∧ t.draws = s.draws + 1

theorem exec_drawsAtEnd {i : Instr} {s t : State} (run : exec i s = .next t) : DrawsAtEnd i s t := by
  refine exec_induction (DrawsAtEnd i s) (fun _ _ h => h) (.inl (by simp)) ?_ run
  rintro u w a busy - point (same | ⟨_, _, -, idle, -⟩)
  · obtain kept | ⟨b, v, rfl, ends, draw⟩ := deliver_draws i w a u
    · exact .inl (kept.trans same)
    · exact .inr ⟨b, v, eq_bwr_of_waitsAt_store point, ends, by rw [draw, same]⟩
  · rw [idle] at busy; cases busy

/-- Settles O34: the cache by exec_writesOnly, the draws by exec_drawsAtEnd. -/
theorem commandsWriteOnlyTheirEntry : Obligations.CommandsWriteOnlyTheirEntry := by
  intro i s t run
  have writes := exec_writesOnly run
  refine ⟨fun b other => writes.read_other other, fun none => ?_, (exec_runs run).2, ?_⟩
  · rw [none] at writes
    exact writes.eq_of_none
  · exact (exec_drawsAtEnd run).imp_right fun ⟨a, v, bwr, _, draw⟩ => ⟨a, v, bwr, draw⟩

/-- From s to t of command i the divisors are as they were, or the command has ended with the update that follows one of
its WRITEs. -/
def DivisorsAtEnd (i : Instr) (s t : State) : Prop :=
  (t.accDiv = s.accDiv ∧ t.gyrDiv = s.gyrDiv) ∨
    ∃ b v after, waitsAt s.cfg i (.commit b v after) ∧ t.seq = .idle ∧
      t.accDiv = (afterWrite after s).accDiv ∧ t.gyrDiv = (afterWrite after s).gyrDiv

theorem exec_divisorsAtEnd {i : Instr} {s t : State} (run : exec i s = .next t) : DivisorsAtEnd i s t := by
  refine exec_induction (DivisorsAtEnd i s) (fun _ _ h => h) (.inl (by simp)) ?_ run
  rintro u w a busy - point (⟨acc, gyr⟩ | ⟨_, _, _, -, idle, -⟩)
  · obtain ⟨acc', gyr'⟩ | ⟨b, v, after, rfl, ends, acc', gyr'⟩ := deliver_divisors i w a u
    · exact .inl ⟨acc'.trans acc, gyr'.trans gyr⟩
    · refine .inr ⟨b, v, after, point, ends, ?_, ?_⟩
      · rw [acc']; cases after <;> simp [acc]
      · rw [gyr']; cases after <;> simp [gyr]
  · rw [idle] at busy; cases busy

/-- Settles O35: the update that follows a WRITE says which command made it, and the scale the command asked for. -/
theorem onlyScaleSettersWriteDivisors : Obligations.OnlyScaleSettersWriteDivisors := by
  intro i s t run
  obtain ⟨acc, gyr⟩ | ⟨b, u, after, point, ends, acc, gyr⟩ := exec_divisorsAtEnd run
  · exact ⟨.inl acc, .inl gyr⟩
  · cases after with
    | nothing => exact ⟨.inl acc, .inl gyr⟩
    | accDiv sc =>
      obtain ⟨v, sacc, scale⟩ := exists_sacc_of_waitsAt_commit point
      obtain ⟨listed, exact⟩ := accDivisor_of_accScaleOf scale
      exact ⟨.inr ⟨v, sacc, listed, by rw [acc]; exact exact, ends⟩, .inl gyr⟩
    | gyrDiv sc =>
      obtain ⟨v, sgyr, scale⟩ := exists_sgyr_of_waitsAt_commit point
      obtain ⟨listed, exact⟩ := gyrDivisor_of_gyrScaleOf scale
      exact ⟨.inl acc, .inr ⟨v, sgyr, listed, by rw [gyr]; exact exact, ends⟩⟩

end Sys2Proof.Proofs.StateRules
end

section
/-! PROOFS of the statement of spec/20_memory.md: no operation takes an event back from the observation (R44), and the
block takes the environment's moves only from the front. Both are said as suffixes: the old observation is a suffix of
the new one, which has its newest event first, and the moves that are left are a suffix of those there were. -/

namespace Sys2Proof.Proofs.Observation

open Sys2Proof Sys2Proof.Machine Sys2Proof.Proofs.Commands

/-! ### What an operation adds to the observation -/

section
variable (i : Instr) (s : State)

theorem trace_suffix_answerHost (r : Response) : s.trace <:+ (s.answerHost r).trace := List.suffix_cons _ _

/-- The use of an entry makes no request: it adds at most the response. -/
theorem trace_suffix_useValue (a v : Byte) (use : EntryUse) : s.trace <:+ (useValue i a v use s).trace := by
  cases use with
  | commit => exact List.suffix_rfl
  | stage mask bits => exact trace_suffix_answerHost (s.setEntry a _) _
  | get d => exact trace_suffix_answerHost s _
  | put mask bits after => exact List.suffix_rfl

theorem trace_suffix_continueRun (start : Byte) (got : List Byte) (use : RunUse) :
    s.trace <:+ (continueRun i start got use s).trace := by
  obtain ⟨-, eq⟩ | ⟨r, eq⟩ := continueRun_cases i start got use s
  · rw [eq]; exact List.suffix_rfl
  · rw [eq]; exact trace_suffix_answerHost s r

theorem trace_suffix_bodyOf : s.trace <:+ (bodyOf i s).trace := by
  obtain ⟨r, eq⟩ | ⟨w, -, -, eq⟩ | ⟨a, v, use, -, -, eq⟩ := starts_bodyOf i s
  · rw [eq]; exact trace_suffix_answerHost s r
  · rw [eq]; exact List.suffix_rfl
  · rw [eq]; exact trace_suffix_useValue i s a v use

theorem trace_suffix_onOk (w : Waiting) (d : Byte) : s.trace <:+ (onOk i w d s).trace := by
  cases w with
  | byte a => exact trace_suffix_answerHost (s.setEntry a d) _
  | run start got use => exact trace_suffix_continueRun i s start _ use
  | fill a use => exact trace_suffix_useValue i (s.setEntry a d) a d use
  | commit a v after => simp [onOk]
  | store a v => exact trace_suffix_answerHost (s.setEntry a v) _

@[simp] theorem cacheAfterFailure_trace (w : Waiting) : (cacheAfterFailure w s).trace = s.trace := by
  obtain eq | ⟨a, v, -, eq | eq⟩ := cacheAfterFailure_cases w s <;> simp [eq]

/-- An answer is recorded, and what the command does upon it only adds to that. -/
theorem trace_suffix_deliver (w : Waiting) (a : Answer) : s.trace <:+ (deliver i w a s).trace := by
  have recorded (e : Event) : s.trace <:+ (s.log e).trace := List.suffix_cons _ _
  cases a with
  | ok d => exact (recorded _).trans (trace_suffix_onOk i _ w d)
  | err e =>
    rw [deliver_err, raise_trace, cacheAfterFailure_trace]
    exact (recorded _).trans (List.suffix_cons _ _)

theorem trace_suffix_drive (ins : List Input) : s.trace <:+ (drive ins s).trace :=
  drive_keeps (s.trace <:+ ·.trace) (fun _ _ h => h)
    (fun u i w a _ h => h.trans (trace_suffix_deliver i u w a)) ins s List.suffix_rfl

theorem trace_suffix_assertReset : s.trace <:+ s.assertReset.trace := by
  obtain ⟨es, eq, -⟩ := assertReset_cases s
  rw [eq]
  exact List.suffix_append (.reset :: es) s.trace

end

/-! ### What is left of the moves -/

/-- A drive takes answers from the front and nothing else. -/
theorem inputs_drive_suffix (ins : List Input) (s : State) : (drive ins s).inputs <:+ ins := by
  induction ins generalizing s with
  | nil => exact List.suffix_rfl
  | cons x rest ih =>
    cases x with
    | answer a =>
      obtain idle | ⟨i, w, busy⟩ := sequencer_cases s
      · rw [drive_idle idle]
      · rw [drive_answer busy]
        exact (ih _).trans (List.suffix_cons _ _)
    | command w => exact List.suffix_rfl
    | commandReset w => exact List.suffix_rfl
    | reset => exact List.suffix_rfl
    | answerReset a => exact List.suffix_rfl

/-! ### A step -/

theorem step_trace_suffix {s t : State} (h : step s = .next t) : s.trace <:+ t.trace := by
  obtain ⟨-, rfl⟩ | ⟨w, rest, i, -, -, run⟩ | ⟨w, rest, e, -, -, -, rfl⟩ | ⟨rest, -, rfl⟩ |
    ⟨a, rest, i, w, -, -, rfl⟩ | ⟨w, rest, -, -, rfl⟩ | ⟨a, rest, i, w, -, -, rfl⟩ := step_cases h
  · exact List.suffix_rfl
  · obtain ⟨-, rfl⟩ := exec_next run
    calc s.trace
      _ <:+ .command w :: s.trace := List.suffix_cons _ _
      _ = (State.log { s with inputs := rest } (.command w)).beginCommand.trace := by simp
      _ <:+ _ := trace_suffix_bodyOf i _
      _ <:+ _ := trace_suffix_drive _ _
  · exact List.suffix_append [_, .command w] s.trace
  · exact trace_suffix_assertReset { s with inputs := rest }
  · exact (trace_suffix_deliver i s w a).trans (trace_suffix_drive _ rest)
  · exact List.suffix_append [.reset, .command w] s.trace
  · exact List.suffix_append [.reset, .transaction _ a] s.trace

theorem step_inputs_suffix {s t : State} (h : step s = .next t) : t.inputs <:+ s.inputs := by
  obtain ⟨-, rfl⟩ | ⟨w, rest, i, moves, -, run⟩ | ⟨w, rest, e, moves, -, -, rfl⟩ | ⟨rest, moves, rfl⟩ |
    ⟨a, rest, i, w, moves, -, rfl⟩ | ⟨w, rest, moves, -, rfl⟩ | ⟨a, rest, i, w, moves, -, rfl⟩ := step_cases h
  · exact List.suffix_rfl
  · obtain ⟨-, rfl⟩ := exec_next run
    rw [moves]
    exact (inputs_drive_suffix rest _).trans (List.suffix_cons _ _)
  · rw [moves]; exact List.suffix_cons _ rest
  · rw [moves, assertReset_inputs]; exact List.suffix_cons _ rest
  · rw [moves]; exact (inputs_drive_suffix rest _).trans (List.suffix_cons _ _)
  · rw [moves]; exact List.suffix_cons _ rest
  · rw [moves]; exact List.suffix_cons _ rest

/-- Settles O49. -/
theorem observationOnlyGrows : Obligations.ObservationOnlyGrows := by
  intro s t h
  obtain ⟨es, added⟩ := step_trace_suffix h
  obtain ⟨ins, taken⟩ := step_inputs_suffix h
  exact ⟨⟨es, added.symm⟩, ins, taken.symm⟩

end Sys2Proof.Proofs.Observation
end

section
/-! PROOFS of the statements of spec/30_encoding.md about words: a row of the opcode table fixes some slices of a word,
the operands of a command lie in the others, and so a word and the command it decodes to determine each other. -/

namespace Sys2Proof.Proofs.Encoding

open Sys2Proof Sys2Proof.Machine

/-! ### Slices of a word -/

/-- The bits of some slices of a word, each slice given by its lowest bit and its width. -/
def sliceMask : List (Nat × Nat) → Word
  | [] => 0
  | p :: ps => place (BitVec.allOnes p.2) p.1 ||| sliceMask ps

theorem getLsbD_place_allOnes (k n i : Nat) :
    (place (BitVec.allOnes n) k).getLsbD i = decide (i < 32 ∧ k ≤ i ∧ i < k + n) := by
  rw [Bool.eq_iff_iff]
  simp only [place, BitVec.getLsbD_shiftLeft, BitVec.getLsbD_setWidth, BitVec.getLsbD_allOnes, Bool.and_eq_true,
    Bool.not_eq_true', decide_eq_true_eq, decide_eq_false_iff_not]
  omega

/-- Under the mask of one slice two words agree just where that slice of them does. -/
theorem and_place_allOnes_eq_iff (x y : Word) (k n : Nat) :
    x &&& place (BitVec.allOnes n) k = y &&& place (BitVec.allOnes n) k ↔ x.extractLsb' k n = y.extractLsb' k n := by
  constructor <;> intro eq <;> apply BitVec.eq_of_getLsbD_eq <;> intro i hi
  · have bit := congrArg (·.getLsbD (k + i)) eq
    simp only [BitVec.getLsbD_and, getLsbD_place_allOnes] at bit
    by_cases inside : k + i < 32
    · simpa [BitVec.getLsbD_extractLsb', hi, inside] using bit
    · simp [BitVec.getLsbD_extractLsb', BitVec.getLsbD_of_ge _ (k + i) (Nat.not_lt.1 inside)]
  · simp only [BitVec.getLsbD_and, getLsbD_place_allOnes]
    by_cases inside : k ≤ i ∧ i < k + n
    · have bit := congrArg (·.getLsbD (i - k)) eq
      simp only [BitVec.getLsbD_extractLsb', show i - k < n by omega, show k + (i - k) = i by omega] at bit
      simpa using congrArg (· && decide (i < 32 ∧ k ≤ i ∧ i < k + n)) bit
    · simp [inside]

theorem and_or_eq_iff (x y m n : Word) : x &&& (m ||| n) = y &&& (m ||| n) ↔ x &&& m = y &&& m ∧ x &&& n = y &&& n := by
  simp only [BitVec.eq_of_getLsbD_eq_iff, BitVec.getLsbD_and, BitVec.getLsbD_or, ← forall_and]
  refine forall_congr' fun i => ?_
  cases m.getLsbD i <;> cases n.getLsbD i <;> simp

/-- Under the mask of some slices two words agree just where each of those slices of them does. -/
theorem and_sliceMask_eq_iff (x y : Word) (ps : List (Nat × Nat)) :
    x &&& sliceMask ps = y &&& sliceMask ps ↔ ∀ p ∈ ps, x.extractLsb' p.1 p.2 = y.extractLsb' p.1 p.2 := by
  induction ps with
  | nil => simp [sliceMask]
  | cons p ps ih => rw [sliceMask, and_or_eq_iff, and_place_allOnes_eq_iff, ih, List.forall_mem_cons]

/-! ### The rows of the opcode table (R61, R67) -/

/-- R61's opcode map, by mnemonic. -/
def codeOf : Opcode → BitVec 4
  | .FSPEC => 0x1
  | .BRD => 0x2
  | .BWR => 0x3
  | .BWC => 0x4
  | .BMS => 0x5
  | .FGET => 0x6
  | .FSET => 0x7
  | .MRD => 0x8
  | .SACC => 0x9
  | .SGYR => 0xA
  | .RACC => 0xB
  | .RGYR => 0xC
  | .MRAW => 0xD
  | .MXYZ => 0xE

/-- R61's opcode map read from the code; 0x0 and 0xF have no row. -/
def opcodeOfCode (c : BitVec 4) : Option Opcode :=
  [none, some .FSPEC, some .BRD, some .BWR, some .BWC, some .BMS, some .FGET, some .FSET, some .MRD, some .SACC,
    some .SGYR, some .RACC, some .RGYR, some .MRAW, some .MXYZ, none].getD c.toNat none

theorem opcodeOfCode_codeOf (op : Opcode) : opcodeOfCode (codeOf op) = some op := by cases op <;> rfl

theorem codeOf_injective {p q : Opcode} (h : codeOf p = codeOf q) : p = q := by
  rw [← Option.some.injEq, ← opcodeOfCode_codeOf p, h, opcodeOfCode_codeOf]

/-- Every OP but 0x0 and 0xF is that of a row. -/
theorem exists_codeOf_eq {c : BitVec 4} (zero : c ≠ 0x0) (ones : c ≠ 0xF) : ∃ op, codeOf op = c := by
  have rows : ∀ c : BitVec 4, c = 0x0 ∨ c = 0xF ∨ (opcodeOfCode c).map codeOf = some c := by decide
  obtain eq | eq | eq := rows c
  · exact absurd eq zero
  · exact absurd eq ones
  · obtain ⟨op, -, eq⟩ := Option.map_eq_some_iff.1 eq
    exact ⟨op, eq⟩

theorem codeOf_legal (op : Opcode) : codeOf op ≠ 0x0 ∧ codeOf op ≠ 0xF := by cases op <;> decide

/-- The must-be-0 fields of R62 to R65, below OP. -/
def reservedSlices : Opcode → List (Nat × Nat)
  | .FSPEC => [(24, 4), (16, 8), (0, 8)]
  | .BRD | .BWC => [(24, 4), (8, 8), (0, 8)]
  | .BWR => [(24, 4), (8, 8)]
  | .BMS | .FSET => [(24, 4)]
  | .FGET => [(24, 4), (0, 8)]
  | .MRD => [(0, 2)]
  | .SACC | .SGYR => [(16, 12)]
  | .RACC => [(25, 3), (0, 24)]
  | .RGYR | .MRAW | .MXYZ => [(0, 28)]

theorem reservedSlices_below_OP (op : Opcode) : ∀ p ∈ reservedSlices op, p.1 + p.2 ≤ 28 := by cases op <;> decide

/-- Every must-be-0 field of the row is 0. -/
def ReservedZero (w : Word) (op : Opcode) : Prop := ∀ p ∈ reservedSlices op, w.extractLsb' p.1 p.2 = 0

/-- The table's masks are OP and the must-be-0 fields, and its match column is OP. -/
theorem row_masks : ∀ r ∈ opcodeTable,
    r.mask = sliceMask ((28, 4) :: reservedSlices r.opcode) ∧ r.value = place (codeOf r.opcode) 28 := by decide

theorem row_value_masked : ∀ r ∈ opcodeTable, r.value &&& r.mask = r.value := by decide

theorem table_complete (op : Opcode) : ∃ r ∈ opcodeTable, r.opcode = op := by
  cases op <;> simp [opcodeTable]

theorem row_determined_by_opcode : ∀ p ∈ opcodeTable, ∀ q ∈ opcodeTable, p.opcode = q.opcode → p = q := by decide

theorem extract_codeOf_reserved {op : Opcode} {p : Nat × Nat} (h : p ∈ reservedSlices op) :
    (place (codeOf op) 28).extractLsb' p.1 p.2 = 0 :=
  extract_place_other _ _ _ _ (.inl (reservedSlices_below_OP op p h))

/-- A word belongs to a row when OP is the row's and every must-be-0 field is 0. -/
theorem matches_iff {r : OpcodeRow} (row : r ∈ opcodeTable) (w : Word) :
    r.matches w = true ↔ fieldOP w = codeOf r.opcode ∧ ReservedZero w r.opcode := by
  obtain ⟨mask, value⟩ := row_masks r row
  rw [OpcodeRow.matches, beq_iff_eq, ← row_value_masked r row, mask, and_sliceMask_eq_iff, List.forall_mem_cons, value]
  refine and_congr ?_ (forall₂_congr fun p hp => by rw [extract_codeOf_reserved hp])
  rw [← fieldOP, ← fieldOP, fieldOP_place]

/-- Settles O5: the rows' opcodes differ. -/
theorem opcodeRowsNeverOverlap : Obligations.OpcodeRowsNeverOverlap := by
  intro w p q hp hq matchesP matchesQ
  obtain ⟨codeP, -⟩ := (matches_iff hp w).1 matchesP
  obtain ⟨codeQ, -⟩ := (matches_iff hq w).1 matchesQ
  exact row_determined_by_opcode p hp q hq (codeOf_injective (codeP.symm.trans codeQ))

theorem opcodeOf_eq_some_iff (w : Word) (op : Opcode) :
    opcodeOf w = some op ↔ fieldOP w = codeOf op ∧ ReservedZero w op := by
  rw [opcodeOf, Option.map_eq_some_iff]
  constructor
  · rintro ⟨r, found, rfl⟩
    exact (matches_iff (List.mem_of_find?_eq_some found) w).1 (List.find?_some found)
  · intro legal
    obtain ⟨r, row, rfl⟩ := table_complete op
    have hit := (matches_iff row w).2 legal
    obtain ⟨q, found⟩ := Option.isSome_iff_exists.1 (List.find?_isSome.2 ⟨r, row, hit⟩)
    exact ⟨q, found, congrArg _ (opcodeRowsNeverOverlap w q r (List.mem_of_find?_eq_some found) row
      (List.find?_some found) hit)⟩

/-! ### The operands of a command (R62 to R66, R69) -/

/-- The row of a command. -/
def opcodeOfInstr : Instr → Opcode
  | .fspec _ _ => .FSPEC
  | .brd _ => .BRD
  | .bwr _ _ => .BWR
  | .bwc _ => .BWC
  | .bms _ _ _ => .BMS
  | .fget _ _ _ => .FGET
  | .fset _ _ _ _ => .FSET
  | .mrd _ _ _ => .MRD
  | .sacc _ => .SACC
  | .sgyr _ => .SGYR
  | .racc _ => .RACC
  | .rgyr => .RGYR
  | .mraw => .MRAW
  | .mxyz => .MXYZ

/-- The operand fields of R62 to R65: what a row's word has beside OP and the must-be-0 fields. -/
def operandSlices : Opcode → List (Nat × Nat)
  | .FSPEC => [(12, 4), (8, 4)]
  | .BRD | .BWC => [(16, 8)]
  | .BWR => [(16, 8), (0, 8)]
  | .BMS => [(16, 8), (8, 8), (0, 8)]
  | .FGET => [(16, 8), (12, 4), (8, 4)]
  | .FSET => [(16, 8), (12, 4), (8, 4), (0, 8)]
  | .MRD => [(16, 8), (24, 4), (14, 2), (11, 3), (8, 3), (5, 3), (2, 3)]
  | .SACC | .SGYR => [(0, 16)]
  | .RACC => [(24, 1)]
  | .RGYR | .MRAW | .MXYZ => []

/-- OP, the must-be-0 fields and the operands are the whole word. -/
theorem sliceMask_all (op : Opcode) :
    sliceMask ((28, 4) :: (reservedSlices op ++ operandSlices op)) = BitVec.allOnes 32 := by
  cases op <;> decide

/-- The four layout places of an MRD word, 000 where there is no entry (R66). -/
def paddedCodes (layout : List Entry) : List (BitVec 3) :=
  [entryCode layout 0, entryCode layout 1, entryCode layout 2, entryCode layout 3]

/-- The operand fields of the word hold the command's operands. -/
def HoldsOperands (w : Word) : Instr → Prop
  | .fspec h l => fieldH w = h ∧ fieldL w = l
  | .brd a | .bwc a => fieldA w = a
  | .bwr a v => fieldA w = a ∧ fieldC w = v
  | .bms a mask bits => fieldA w = a ∧ fieldB w = mask ∧ fieldC w = bits
  | .fget a h l => fieldA w = a ∧ fieldH w = h ∧ fieldL w = l
  | .fset a h l v => fieldA w = a ∧ fieldH w = h ∧ fieldL w = l ∧ fieldC w = v
  | .mrd a n layout =>
    fieldA w = a ∧ fieldN w = n ∧ fieldK w = BitVec.ofNat 2 (layout.length - 1) ∧ fieldE w = paddedCodes layout
  | .sacc s | .sgyr s => fieldS w = s
  | .racc m => fieldM w = m
  | .rgyr | .mraw | .mxyz => True

theorem fieldOP_encode (i : Instr) : fieldOP (encode i) = codeOf (opcodeOfInstr i) := by
  cases i with
  | fspec h l => exact Laws.EncodeOpcode.fspec h l
  | brd a => exact Laws.EncodeOpcode.brd a
  | bwr a v => exact Laws.EncodeOpcode.bwr a v
  | bwc a => exact Laws.EncodeOpcode.bwc a
  | bms a mask bits => exact Laws.EncodeOpcode.bms a mask bits
  | fget a h l => exact Laws.EncodeOpcode.fget a h l
  | fset a h l v => exact Laws.EncodeOpcode.fset a h l v
  | mrd a n layout => exact Laws.EncodeOpcode.mrd a n layout
  | sacc s => exact Laws.EncodeOpcode.sacc s
  | sgyr s => exact Laws.EncodeOpcode.sgyr s
  | racc m => exact Laws.EncodeOpcode.racc m
  | rgyr => exact Laws.EncodeOpcode.rgyr
  | mraw => exact Laws.EncodeOpcode.mraw
  | mxyz => exact Laws.EncodeOpcode.mxyz

/-- No operand shows in a must-be-0 field. -/
theorem reservedZero_encode (i : Instr) : ReservedZero (encode i) (opcodeOfInstr i) := by
  cases i <;> simp (disch := decide) [ReservedZero, opcodeOfInstr, reservedSlices, encode, extract_or,
    extract_place_other]

theorem extract_eq_ofBool_iff (w : Word) (m : Bool) : w.extractLsb' 24 1 = BitVec.ofBool m ↔ fieldM w = m := by
  have bit : w.extractLsb' 24 1 = BitVec.ofBool (fieldM w) := by
    apply BitVec.eq_of_getLsbD_eq
    intro i hi
    obtain rfl : i = 0 := by omega
    simp [fieldM]
  rw [bit]
  cases fieldM w <;> cases m <;> decide

/-- A word holds the operands of a command when it agrees with the command's word on the operand fields. -/
theorem holdsOperands_iff (w : Word) (i : Instr) : HoldsOperands w i ↔
    ∀ p ∈ operandSlices (opcodeOfInstr i), w.extractLsb' p.1 p.2 = (encode i).extractLsb' p.1 p.2 := by
  cases i <;> simp (disch := decide) [HoldsOperands, opcodeOfInstr, operandSlices, encode, extract_or,
    extract_place_other, extract_place_same, fieldA, fieldB, fieldC, fieldH, fieldL, fieldN, fieldK, fieldE, fieldS,
    paddedCodes, extract_eq_ofBool_iff]

/-- A word is the word of a command when OP is the command's, the must-be-0 fields are 0 and the operand fields hold
the operands. -/
theorem eq_encode_iff (w : Word) (i : Instr) :
    w = encode i ↔ opcodeOf w = some (opcodeOfInstr i) ∧ HoldsOperands w i := by
  have whole : w = encode i ↔ ∀ p ∈ (28, 4) :: (reservedSlices (opcodeOfInstr i) ++ operandSlices (opcodeOfInstr i)),
      w.extractLsb' p.1 p.2 = (encode i).extractLsb' p.1 p.2 := by
    rw [← and_sliceMask_eq_iff, sliceMask_all, BitVec.and_allOnes, BitVec.and_allOnes]
  have op : fieldOP w = codeOf (opcodeOfInstr i) ↔ w.extractLsb' 28 4 = (encode i).extractLsb' 28 4 := by
    rw [← fieldOP_encode i]; rfl
  have reserved : ReservedZero w (opcodeOfInstr i) ↔ ∀ p ∈ reservedSlices (opcodeOfInstr i),
      w.extractLsb' p.1 p.2 = (encode i).extractLsb' p.1 p.2 :=
    forall₂_congr fun p hp => by rw [reservedZero_encode i p hp]
  rw [whole, List.forall_mem_cons, List.forall_mem_append, opcodeOf_eq_some_iff, holdsOperands_iff, op, reserved,
    and_assoc]

/-! ### The layout of an MRD (R66, R67) -/

theorem entryOfCode_eq_some_iff (c : BitVec 3) (e : Entry) : entryOfCode c = some e ↔ c = e.code := by
  cases e <;> revert c <;> decide

/-- The reserved codes are those with width code 11. -/
theorem entryOfCode_eq_none_iff : ∀ c : BitVec 3, entryOfCode c = none ↔ c.extractLsb' 1 2 = 0b11 := by decide

theorem layoutOfCodes_eq_some_iff (cs : List (BitVec 3)) (layout : List Entry) :
    layoutOfCodes cs = some layout ↔ cs = layout.map Entry.code := by
  induction cs generalizing layout with
  | nil => cases layout <;> simp [layoutOfCodes]
  | cons c cs ih =>
    cases layout with
    | nil => simp only [layoutOfCodes]; split <;> simp
    | cons e layout =>
      rw [List.map_cons, List.cons.injEq, ← entryOfCode_eq_some_iff, ← ih, layoutOfCodes]
      split <;> simp_all

theorem layoutOfCodes_eq_none_iff (cs : List (BitVec 3)) :
    layoutOfCodes cs = none ↔ ∃ c ∈ cs, entryOfCode c = none := by
  induction cs with
  | nil => simp [layoutOfCodes]
  | cons c cs ih =>
    rw [List.exists_mem_cons_iff, ← ih, layoutOfCodes]
    cases entryOfCode c <;> cases layoutOfCodes cs <;> simp

theorem length_fieldE (w : Word) : (fieldE w).length = 4 := rfl

/-- The padded codes of a layout are its codes, then 000 in the places that are left. -/
theorem paddedCodes_eq {layout : List Entry} (h : layout.length ≤ 4) :
    paddedCodes layout = layout.map Entry.code ++ List.replicate (4 - layout.length) 0 := by
  match layout, h with
  | [], _ => rfl
  | [_], _ => rfl
  | [_, _], _ => rfl
  | [_, _, _], _ => rfl
  | [_, _, _, _], _ => rfl

/-- Four codes of which the first k + 1 are the layout and the others 000 are the layout's padded codes. -/
theorem codes_iff (cs : List (BitVec 3)) (four : cs.length = 4) (k : BitVec 2) (layout : List Entry) :
    layoutOfCodes (cs.take (k.toNat + 1)) = some layout ∧ (cs.drop (k.toNat + 1)).all (· == 0) = true ↔
      layoutOk layout = true ∧ k = BitVec.ofNat 2 (layout.length - 1) ∧ cs = paddedCodes layout := by
  have small := k.isLt
  rw [layoutOfCodes_eq_some_iff]
  have zeros : (cs.drop (k.toNat + 1)).all (· == 0) = true ↔
      cs.drop (k.toNat + 1) = List.replicate (4 - (k.toNat + 1)) 0 := by
    simp [List.eq_replicate_iff, four]
  rw [zeros]
  constructor
  · rintro ⟨used, unused⟩
    have length : layout.length = k.toNat + 1 := by
      have := congrArg List.length used
      simp [four] at this
      omega
    refine ⟨by simp [layoutOk]; omega, by simp [length], ?_⟩
    rw [paddedCodes_eq (by omega), length, ← used, ← unused, List.take_append_drop]
  · rintro ⟨ok, rfl, rfl⟩
    have length : (BitVec.ofNat 2 (layout.length - 1)).toNat + 1 = layout.length := by
      simp [layoutOk] at ok
      simp
      omega
    rw [length, paddedCodes_eq (by simp [layoutOk] at ok; omega)]
    simp

theorem wf_mrd (a : Byte) (n : BitVec 4) (layout : List Entry) :
    (Instr.mrd a n layout).wf = true ↔ n ≠ 0 ∧ layoutOk layout = true := by
  simp [Instr.wf, lengthOk]

theorem decodeMrd_eq_ok_iff (w : Word) (i : Instr) :
    decodeMrd w = .ok i ↔ opcodeOfInstr i = .MRD ∧ i.wf = true ∧ HoldsOperands w i := by
  have parts (layout : List Entry) := codes_iff (fieldE w) (length_fieldE w) (fieldK w) layout
  unfold decodeMrd
  constructor
  · intro h
    split at h
    · cases h
    · next length =>
      split at h
      · cases h
      · next layout used =>
        split at h
        · next unused =>
          cases h
          obtain ⟨ok, k, codes⟩ := (parts layout).1 ⟨used, unused⟩
          exact ⟨rfl, (wf_mrd _ _ _).2 ⟨length, ok⟩, rfl, rfl, k, codes⟩
        · cases h
  · rintro ⟨mrd, wf, holds⟩
    cases i with
    | mrd a n layout =>
      obtain ⟨rfl, rfl, k, codes⟩ := holds
      obtain ⟨length, ok⟩ := (wf_mrd _ _ _).1 wf
      obtain ⟨used, unused⟩ := (parts layout).2 ⟨ok, k, codes⟩
      rw [if_neg length, used]
      exact if_pos unused
    | _ => cases mrd

/-! ### Decoding and encoding (R67, R69) -/

/-- The fields of a row's word are read as the command of the row that they hold. -/
theorem decodeFields_eq_ok_iff (w : Word) (op : Opcode) (i : Instr) :
    decodeFields w op = .ok i ↔ opcodeOfInstr i = op ∧ i.wf = true ∧ HoldsOperands w i := by
  by_cases mrd : op = .MRD
  · rw [mrd]; exact decodeMrd_eq_ok_iff w i
  constructor
  · intro h
    cases op with
    | MRD => exact absurd rfl mrd
    | _ => cases h; simp [opcodeOfInstr, Instr.wf, HoldsOperands]
  · rintro ⟨rfl, -, holds⟩
    cases i with
    | mrd a n layout => exact absurd rfl mrd
    | _ => simp_all [decodeFields, opcodeOfInstr, HoldsOperands]

theorem decode_of_opcodeOf {w : Word} {op : Opcode} (h : opcodeOf w = some op) : decode w = decodeFields w op := by
  obtain ⟨code, -⟩ := (opcodeOf_eq_some_iff w op).1 h
  obtain ⟨zero, ones⟩ := codeOf_legal op
  rw [decode, code, if_neg (not_or_intro zero ones), h]

theorem opcodeOf_of_decode_ok {w : Word} {i : Instr} (h : decode w = .ok i) : ∃ op, opcodeOf w = some op := by
  unfold decode at h
  split at h
  · cases h
  · split at h
    · cases h
    · next op row => exact ⟨op, row⟩

/-- The word of a well-formed command decodes to it, and no other word does. -/
theorem decode_eq_ok_iff (w : Word) (i : Instr) : decode w = .ok i ↔ i.wf = true ∧ w = encode i := by
  rw [eq_encode_iff]
  constructor
  · intro h
    obtain ⟨op, row⟩ := opcodeOf_of_decode_ok h
    rw [decode_of_opcodeOf row, decodeFields_eq_ok_iff] at h
    obtain ⟨rfl, wf, holds⟩ := h
    exact ⟨wf, row, holds⟩
  · rintro ⟨wf, row, holds⟩
    rw [decode_of_opcodeOf row, decodeFields_eq_ok_iff]
    exact ⟨rfl, wf, holds⟩

/-- Settles O1, by decode_eq_ok_iff. -/
theorem decodeOfEncodeIsTheCommand : Obligations.DecodeOfEncodeIsTheCommand := fun i wf =>
  (decode_eq_ok_iff (encode i) i).2 ⟨wf, rfl⟩

/-- Settles O2, by decode_eq_ok_iff. -/
theorem encodeOfDecodeIsTheWord : Obligations.EncodeOfDecodeIsTheWord := fun w i h =>
  have ⟨wf, word⟩ := (decode_eq_ok_iff w i).1 h
  ⟨wf, word.symm⟩

/-! ### The illegal words (R68, R223) -/

/-- What R67 asks of an MRD beyond its row: N = 0, a used entry of width code 11 or an unused entry that is not 000. -/
def MrdBroken (w : Word) : Prop :=
  fieldN w = 0 ∨ (∃ j e, j ≤ (fieldK w).toNat ∧ (fieldE w)[j]? = some e ∧ e.extractLsb' 1 2 = 0b11) ∨
    ∃ j e, (fieldK w).toNat < j ∧ (fieldE w)[j]? = some e ∧ e ≠ 0

/-- In a word whose OP is the row's, what is broken is a must-be-0 field, or what an MRD asks beyond that. -/
theorem encodingBroken_iff {w : Word} {op : Opcode} (code : codeOf op = fieldOP w) :
    encodingBroken w ↔ ¬ ReservedZero w op ∨ op = .MRD ∧ MrdBroken w := by
  unfold encodingBroken
  rw [← code]
  cases op <;> simp [-List.mem_cons, -not_and, List.forall_mem_cons, not_and_or, codeOf,
    ReservedZero, reservedSlices, MrdBroken, fieldA, fieldB, fieldC, fieldN]

theorem mem_take_succ_iff (cs : List (BitVec 3)) (k : Nat) (c : BitVec 3) :
    c ∈ cs.take (k + 1) ↔ ∃ j, j ≤ k ∧ cs[j]? = some c := by
  simp only [List.mem_iff_getElem?, List.getElem?_take]
  exact exists_congr fun j => by simp

theorem mem_drop_succ_iff (cs : List (BitVec 3)) (k : Nat) (c : BitVec 3) :
    c ∈ cs.drop (k + 1) ↔ ∃ j, k < j ∧ cs[j]? = some c := by
  simp only [List.mem_iff_getElem?, List.getElem?_drop]
  constructor
  · rintro ⟨i, at_i⟩
    exact ⟨k + 1 + i, by omega, at_i⟩
  · rintro ⟨j, after, at_j⟩
    exact ⟨j - (k + 1), by rwa [Nat.add_sub_cancel' after]⟩

theorem layoutOfCodes_used_eq_none_iff (cs : List (BitVec 3)) (k : Nat) :
    layoutOfCodes (cs.take (k + 1)) = none ↔ ∃ j e, j ≤ k ∧ cs[j]? = some e ∧ e.extractLsb' 1 2 = 0b11 := by
  simp only [layoutOfCodes_eq_none_iff, entryOfCode_eq_none_iff, mem_take_succ_iff]
  exact ⟨fun ⟨e, ⟨j, used, at_j⟩, wide⟩ => ⟨j, e, used, at_j, wide⟩,
    fun ⟨j, e, used, at_j, wide⟩ => ⟨e, ⟨j, used, at_j⟩, wide⟩⟩

theorem unused_not_zero_iff (cs : List (BitVec 3)) (k : Nat) :
    ¬ (cs.drop (k + 1)).all (· == 0) = true ↔ ∃ j e, k < j ∧ cs[j]? = some e ∧ e ≠ 0 := by
  simp only [List.all_eq_true, not_forall, mem_drop_succ_iff, beq_iff_eq]
  exact ⟨fun ⟨e, ⟨j, unused, at_j⟩, other⟩ => ⟨j, e, unused, at_j, other⟩,
    fun ⟨j, e, unused, at_j, other⟩ => ⟨e, ⟨j, unused, at_j⟩, other⟩⟩

theorem decodeMrd_error_iff (w : Word) : (∃ e, decodeMrd w = .error e) ↔ MrdBroken w := by
  unfold MrdBroken decodeMrd
  rw [← layoutOfCodes_used_eq_none_iff, ← unused_not_zero_iff]
  split
  · next length => exact iff_of_true ⟨_, rfl⟩ (.inl length)
  · next length =>
    split
    · next reserved => exact iff_of_true ⟨_, rfl⟩ (.inr (.inl reserved))
    · next layout used =>
      split
      · next zeros => exact iff_of_false nofun (by rw [used, not_or, not_or, not_not]; exact ⟨length, nofun, zeros⟩)
      · next other => exact iff_of_true ⟨_, rfl⟩ (.inr (.inr other))

theorem decodeFields_error_iff (w : Word) (op : Opcode) :
    (∃ e, decodeFields w op = .error e) ↔ op = .MRD ∧ MrdBroken w := by
  cases op with
  | MRD => exact (decodeMrd_error_iff w).trans (and_iff_right rfl).symm
  | _ => simp [decodeFields]

theorem decode_error_iff (w : Word) :
    (∃ e, decode w = .error e) ↔ fieldOP w = 0x0 ∨ fieldOP w = 0xF ∨ encodingBroken w := by
  by_cases illegal : fieldOP w = 0x0 ∨ fieldOP w = 0xF
  · rw [← or_assoc, decode, if_pos illegal]
    exact iff_of_true ⟨_, rfl⟩ (.inl illegal)
  · obtain ⟨zero, ones⟩ := not_or.1 illegal
    obtain ⟨op, code⟩ := exists_codeOf_eq zero ones
    rw [← or_assoc, or_iff_right illegal, encodingBroken_iff code]
    by_cases reserved : ReservedZero w op
    · rw [decode_of_opcodeOf ((opcodeOf_eq_some_iff w op).2 ⟨code.symm, reserved⟩), decodeFields_error_iff,
        or_iff_right (not_not.2 reserved)]
    · have none : opcodeOf w = none := by
        refine Option.eq_none_iff_forall_ne_some.2 fun q row => ?_
        obtain ⟨code', zeros⟩ := (opcodeOf_eq_some_iff w q).1 row
        exact reserved (codeOf_injective (code.trans code') ▸ zeros)
      rw [decode, if_neg illegal, none]
      exact iff_of_true ⟨_, rfl⟩ (.inl reserved)

theorem step_of_illegal_word {s : State} {w : Word} {rest : List Input} {e : DecodeError} (illegal : decode w = .error e)
    (idle : s.seq = .idle) (moves : s.inputs = .command w :: rest) :
    step s = .next { s with
      inputs := rest, trace := [.response ⟨.illegalCommand, .word w⟩, .command w] ++ s.trace } := by
  have answered : step s = answerIllegal w (State.log { s with inputs := rest } (.command w)) := by
    simp [step, stepOnce, moves, takeCommand, illegal]
  rw [answered, answerIllegal, if_pos (by exact idle), Commands.raise_of_idle (by exact idle)]
  rfl

/-- Settles O4: the decoder's errors by decode_error_iff, the answer by step_of_illegal_word. -/
theorem illegalEncodingsAreExactlyThese : Obligations.IllegalEncodingsAreExactlyThese := by
  refine ⟨decode_error_iff, fun w s rest broken idle moves => ?_⟩
  obtain ⟨e, illegal⟩ := (decode_error_iff w).2 broken
  exact step_of_illegal_word illegal idle moves

/-- Settles O3, each word evaluated. -/
theorem exampleWordsDecode : Obligations.ExampleWordsDecode := by
  unfold Obligations.ExampleWordsDecode
  decide

end Sys2Proof.Proofs.Encoding
end

section
/-! PROOFS of the equivalences of spec/30_encoding.md R70. A put (FSET, SACC, SGYR) is a stage (BMS) and then a commit
(BWC), whichever command makes it, and the update that follows its WRITE is all that the commands differ in. -/

namespace Sys2Proof.Proofs.Equivalences

open Sys2Proof Sys2Proof.Machine Sys2Proof.Proofs.Commands

/-! ### A wait that ends -/

/-- A wait ends only by an answer. -/
theorem exists_answer_of_drive_idle {ins : List Input} {s : State} {i : Instr} {w : Waiting}
    (ends : (drive ins (s.await i w)).seq = .idle) : ∃ a rest, ins = .answer a :: rest := by
  cases ins with
  | nil => cases ends
  | cons x rest =>
    cases x with
    | answer a => exact ⟨a, rest, rfl⟩
    | _ => cases ends

/-- The WRITE of a put answered: the command has ended. -/
theorem drive_commit (i : Instr) (a v : Byte) (after : AfterWrite) (x : Answer) (rest : List Input) (s : State) :
    drive (.answer x :: rest) (s.await i (.commit a v after)) =
      { deliver i (.commit a v after) x s with inputs := rest } := by
  rw [drive_answer rfl, drive_idle]
  · cases x <;> cases after <;> rfl
  · cases x <;> cases after <;> rfl

/-- The READ of a fill answered OK: the use of the entry is what is left. -/
theorem drive_fill_ok (i : Instr) (a d : Byte) (use : EntryUse) (rest : List Input) (s : State) :
    drive (.answer (.ok d) :: rest) (s.await i (.fill a use)) =
      drive rest (useValue i a d use ((s.log (.transaction (.read s.cfg.wiring.devAddr a) (.ok d))).setEntry a d)) := by
  rw [drive_answer rfl]
  cases use <;> rfl

/-- The READ of a fill answered ERR: the command has ended, and the entry is as it was (R124). -/
theorem drive_fill_err (i : Instr) (a : Byte) (e : Nat) (use : EntryUse) (rest : List Input) (s : State) :
    drive (.answer (.err e) :: rest) (s.await i (.fill a use)) =
      { (s.log (.transaction (.read s.cfg.wiring.devAddr a) (.err e))).raise .transportError (.datum e) with
        inputs := rest } := by
  rw [drive_answer rfl, drive_idle]
  · rfl
  · rfl

/-! ### The put of FSET -/

theorem placeBits_descriptorOf {h l : BitVec 4} (bounds : l.toNat ≤ h.toNat ∧ h.toNat ≤ 7) (v : Byte) :
    placeBits v (descriptorOf h l) = v <<< l.toNat := by
  apply BitVec.eq_of_toNat_eq
  have shift : l.toNat % 2 ^ 3 = l.toNat := Nat.mod_eq_of_lt (by omega)
  simp only [placeBits, descriptorOf, BitVec.toNat_ofNat, BitVec.toNat_shiftLeft, shift]

/-- With valid bounds FSET puts the value, moved to its place (R141). -/
theorem bodyOf_fset {h l : BitVec 4} (bounds : l.toNat ≤ h.toNat ∧ h.toNat ≤ 7) (a v : Byte) (s : State) :
    bodyOf (.fset a h l v) s = fillThen (.fset a h l v) a
      (.put (maskOf h l) (placeBits v (descriptorOf h l)) .nothing) s := by
  have valid : spec h l = some (descriptorOf h l) := if_neg (by omega)
  simp only [bodyOf, fsetBody, valid]
  rfl

/-! ### The update that follows a WRITE (R70 (b)) -/

/-- t' is t with the update made, if t has just responded OK, and t itself if t has just raised TransportError. -/
def UpdatedIfOk (after : AfterWrite) (t t' : State) : Prop :=
  (∃ p es, t.trace = .response ⟨.ok, p⟩ :: es ∧ t' = afterWrite after t) ∨
    ∃ p es, t.trace = .response ⟨.transportError, p⟩ :: es ∧ t' = t

theorem drive_commit_updatedIfOk {ins : List Input} {s : State} {i : Instr} {a v : Byte}
    (ends : (drive ins (s.await i (.commit a v .nothing))).seq = .idle) (j : Instr) (after : AfterWrite) :
    UpdatedIfOk after (drive ins (s.await i (.commit a v .nothing))) (drive ins (s.await j (.commit a v after))) := by
  obtain ⟨x, rest, rfl⟩ := exists_answer_of_drive_idle ends
  rw [drive_commit, drive_commit]
  cases x with
  | ok d => exact .inl ⟨_, _, rfl, by cases after <;> rfl⟩
  | err e => exact .inr ⟨_, _, rfl, rfl⟩

/-- A put with an update does what a put without one does, and then the update if that ended OK. -/
theorem drive_put_updatedIfOk {ins : List Input} {s : State} {i : Instr} {a mask bits : Byte}
    (ends : (drive ins (fillThen i a (.put mask bits .nothing) s)).seq = .idle) (j : Instr) (after : AfterWrite) :
    UpdatedIfOk after (drive ins (fillThen i a (.put mask bits .nothing) s))
      (drive ins (fillThen j a (.put mask bits after) s)) := by
  cases entry : s.entry a with
  | some v =>
    rw [fillThen_valid entry, useValue_put] at ends
    rw [fillThen_valid entry, fillThen_valid entry, useValue_put, useValue_put]
    exact drive_commit_updatedIfOk ends j after
  | none =>
    rw [fillThen_invalid entry] at ends
    rw [fillThen_invalid entry, fillThen_invalid entry]
    obtain ⟨x, rest, rfl⟩ := exists_answer_of_drive_idle ends
    cases x with
    | ok d =>
      rw [drive_fill_ok, useValue_put] at ends
      rw [drive_fill_ok, drive_fill_ok, useValue_put, useValue_put]
      exact drive_commit_updatedIfOk ends j after
    | err e =>
      rw [drive_fill_err, drive_fill_err]
      exact .inr ⟨_, _, rfl, rfl⟩

/-- SACC and SGYR of a legal scale do what FSET of its code into their field does, and then their update. -/
theorem exec_writeCode_of_fset {i : Instr} {s t : State} {f : RegField} {code : Byte} {after : AfterWrite}
    (valid : f.field.valid = true)
    (body : bodyOf i s.beginCommand = writeCode i f code after s.beginCommand)
    (run : exec (.fset f.reg f.field.hi f.field.lo code) s = .next t) (ends : t.seq = .idle) :
    ∃ t', exec i s = .next t' ∧ UpdatedIfOk after t t' := by
  obtain ⟨idle, rfl⟩ := exec_next run
  have bounds : f.field.lo.toNat ≤ f.field.hi.toNat ∧ f.field.hi.toNat ≤ 7 := by
    simpa [FieldSpec.valid] using valid
  rw [exec_idle idle, body]
  rw [bodyOf_fset bounds] at ends ⊢
  exact ⟨_, rfl, drive_put_updatedIfOk ends i after⟩

/-- The update was made if the response is OK, and was not if it is TransportError. -/
theorem UpdatedIfOk.of_response {after : AfterWrite} {t t' : State} (h : UpdatedIfOk after t t') (p : Payload)
    (es : List Event) :
    (t.trace = .response ⟨.ok, p⟩ :: es → t' = afterWrite after t) ∧
      (t.trace = .response ⟨.transportError, p⟩ :: es → t' = t) := by
  obtain ⟨q, fs, trace, eq⟩ | ⟨q, fs, trace, eq⟩ := h
  · exact ⟨fun _ => eq, fun err => by rw [trace] at err; exact absurd err (by simp)⟩
  · exact ⟨fun ok => by rw [trace] at ok; exact absurd ok (by simp), fun _ => eq⟩

theorem eq_ofNat_of_some_toNat {n : Nat} {v : BitVec 16} (h : some n = some v.toNat) : v = BitVec.ofNat 16 n := by
  rw [Option.some.inj h, BitVec.ofNat_toNat, BitVec.setWidth_eq]

/-- R180 and R181 for the accelerometer: the scale at place k of the list has code k and divisor 32768 / scale. -/
theorem accScaleOf_listed {k : Nat} {v : BitVec 16} (listed : [2, 4, 8, 16][k]? = some v.toNat) :
    ∃ sc, accScaleOf v = some sc ∧ accCode sc = BitVec.ofNat 8 k ∧
      accDivisor sc = BitVec.ofNat 16 (32768 / v.toNat) := by
  match k, listed with
  | 0, h => obtain rfl : v = 2 := eq_ofNat_of_some_toNat h; exact ⟨.g2, by decide⟩
  | 1, h => obtain rfl : v = 4 := eq_ofNat_of_some_toNat h; exact ⟨.g4, by decide⟩
  | 2, h => obtain rfl : v = 8 := eq_ofNat_of_some_toNat h; exact ⟨.g8, by decide⟩
  | 3, h => obtain rfl : v = 16 := eq_ofNat_of_some_toNat h; exact ⟨.g16, by decide⟩
  | k + 4, h => cases h

/-- The same for the gyroscope. -/
theorem gyrScaleOf_listed {k : Nat} {v : BitVec 16}
    (listed : [16, 32, 64, 128, 256, 512, 1024][k]? = some v.toNat) :
    ∃ sc, gyrScaleOf v = some sc ∧ gyrCode sc = BitVec.ofNat 8 k ∧
      gyrDivisor sc = BitVec.ofNat 16 (32768 / v.toNat) := by
  match k, listed with
  | 0, h => obtain rfl : v = 16 := eq_ofNat_of_some_toNat h; exact ⟨.dps16, by decide⟩
  | 1, h => obtain rfl : v = 32 := eq_ofNat_of_some_toNat h; exact ⟨.dps32, by decide⟩
  | 2, h => obtain rfl : v = 64 := eq_ofNat_of_some_toNat h; exact ⟨.dps64, by decide⟩
  | 3, h => obtain rfl : v = 128 := eq_ofNat_of_some_toNat h; exact ⟨.dps128, by decide⟩
  | 4, h => obtain rfl : v = 256 := eq_ofNat_of_some_toNat h; exact ⟨.dps256, by decide⟩
  | 5, h => obtain rfl : v = 512 := eq_ofNat_of_some_toNat h; exact ⟨.dps512, by decide⟩
  | 6, h => obtain rfl : v = 1024 := eq_ofNat_of_some_toNat h; exact ⟨.dps1024, by decide⟩
  | k + 7, h => cases h

/-- Settles O42: the two commands put the same code, and SACC's update is what its put has beside. -/
theorem saccIsFsetThenDivisor : Obligations.SaccIsFsetThenDivisor := by
  intro k v s t p es listed run ends
  obtain ⟨sc, scale, code, divisor⟩ := accScaleOf_listed listed
  obtain ⟨valid, -⟩ := Bool.and_eq_true_iff.1 s.cfg.wiring.accFsOk
  have body : bodyOf (.sacc v) s.beginCommand =
      writeCode (.sacc v) s.cfg.wiring.accFs (BitVec.ofNat 8 k) (.accDiv sc) s.beginCommand := by
    simp [bodyOf, saccBody, scale, code]
  obtain ⟨t', sacc, updated⟩ := exec_writeCode_of_fset valid body run ends
  rw [sacc, ← divisor]
  exact (updated.of_response p (es ++ s.trace)).imp (congrArg _ ∘ ·) (congrArg _ ∘ ·)

/-- Settles O43, as O42. -/
theorem sgyrIsFsetThenDivisor : Obligations.SgyrIsFsetThenDivisor := by
  intro k v s t p es listed run ends
  obtain ⟨sc, scale, code, divisor⟩ := gyrScaleOf_listed listed
  obtain ⟨valid, -⟩ := Bool.and_eq_true_iff.1 s.cfg.wiring.gyrFsOk
  have body : bodyOf (.sgyr v) s.beginCommand =
      writeCode (.sgyr v) s.cfg.wiring.gyrFs (BitVec.ofNat 8 k) (.gyrDiv sc) s.beginCommand := by
    simp [bodyOf, sgyrBody, scale, code]
  obtain ⟨t', sgyr, updated⟩ := exec_writeCode_of_fset valid body run ends
  rw [sgyr, ← divisor]
  exact (updated.of_response p (es ++ s.trace)).imp (congrArg _ ∘ ·) (congrArg _ ∘ ·)

/-! ### A put is a stage and a commit (R70 (a)) -/

/-- The entry holds a byte in u, and a put stands before the WRITE of it, with u's moves left and the events es. -/
def PutStandsAt (u : State) (es : List Event) (a : Byte) (put : Instr → AfterWrite → State) : Prop :=
  ∃ v, u.entry a = some v ∧
    ∀ j after, put j after = drive u.inputs (State.await { u with trace := es } j (.commit a v after))

theorem putStandsAt_of_stage {u m : State} {rest : List Input} {i : Instr} {a v mask bits : Byte} {r : Response}
    {es : List Event} (run : u = drive rest (useValue i a v (.stage mask bits) m))
    (response : u.trace = .response r :: es) :
    PutStandsAt u es a fun j after => drive rest (useValue j a v (.put mask bits after) m) := by
  rw [useValue_stage, drive_idle rfl] at run
  subst run
  obtain rfl : m.trace = es := (List.cons.inj response).2
  exact ⟨_, entry_setEntry_same m a _, fun j after => (drive_inputs rest _ rest).symm⟩

/-- Where a stage has ended OK, the put with the same mask and bits has made the same requests and stands before its
WRITE. -/
theorem putStandsAt_of_stage_ok {ins : List Input} {s u : State} {i : Instr} {a mask bits : Byte} {p : Payload}
    {es : List Event} (run : u = drive ins (fillThen i a (.stage mask bits) s)) (ends : u.seq = .idle)
    (ok : u.trace = .response ⟨.ok, p⟩ :: es) :
    PutStandsAt u es a fun j after => drive ins (fillThen j a (.put mask bits after) s) := by
  cases entry : s.entry a with
  | some v =>
    simp only [fillThen_valid entry] at run ⊢
    exact putStandsAt_of_stage run ok
  | none =>
    simp only [fillThen_invalid entry] at run ⊢
    obtain ⟨x, rest, rfl⟩ := exists_answer_of_drive_idle (run ▸ ends)
    cases x with
    | ok d =>
      simp only [drive_fill_ok] at run ⊢
      exact putStandsAt_of_stage run ok
    | err e =>
      rw [drive_fill_err] at run
      subst run
      cases ok

/-- A commit that ends adds the same events and leaves the same state, whichever command makes it and whatever was
observed before. -/
theorem drive_commit_frame {ins : List Input} {u : State} {i : Instr} {a v : Byte} {fs : List Event}
    (ends : (drive ins (u.await i (.commit a v .nothing))).seq = .idle)
    (added : (drive ins (u.await i (.commit a v .nothing))).trace = fs ++ u.trace) (j : Instr) (es : List Event) :
    drive ins (State.await { u with trace := es } j (.commit a v .nothing)) =
      { drive ins (u.await i (.commit a v .nothing)) with trace := fs ++ es } := by
  obtain ⟨x, rest, rfl⟩ := exists_answer_of_drive_idle ends
  rw [drive_commit] at added ⊢
  rw [drive_commit]
  cases x with
  | ok d =>
    obtain rfl : [_, _] = fs := List.append_cancel_right (bs := u.trace) added
    rfl
  | err e =>
    obtain rfl : [_, _] = fs := List.append_cancel_right (bs := u.trace) added
    rfl

theorem beginCommand_of_persist {s : State} (persist : s.cfg.cachePersist = true) : s.beginCommand = s := by
  simp [State.beginCommand, persist]

/-- Settles O41: BMS is the stage of FSET's put, and BWC the commit that is left of it. -/
theorem fsetIsBmsThenBwc : Obligations.FsetIsBmsThenBwc := by
  intro a v h l s u t es fs persist bounds bms bmsEnds ok bwc bwcEnds added
  have persist' : u.cfg.cachePersist = true := by rwa [(exec_runs bms).2]
  obtain ⟨idle, run⟩ := exec_next bms
  rw [beginCommand_of_persist persist] at run
  obtain ⟨byte, entry, put⟩ := putStandsAt_of_stage_ok run bmsEnds ok
  obtain ⟨-, rfl⟩ := exec_next bwc
  have commit : bodyOf (.bwc a) u.beginCommand = u.await (.bwc a) (.commit a byte .nothing) := by
    rw [beginCommand_of_persist persist']
    exact fillThen_valid entry _ _
  rw [commit] at bwcEnds added ⊢
  have fset : drive s.inputs (fillThen _ a (.put (maskOf h l) (v <<< l.toNat) .nothing) s) = _ :=
    put (.fset a h l v) .nothing
  rw [exec_idle idle, beginCommand_of_persist persist, bodyOf_fset bounds, placeBits_descriptorOf bounds, fset,
    List.append_assoc]
  exact congrArg _ (drive_commit_frame bwcEnds added _ (es ++ s.trace))

end Sys2Proof.Proofs.Equivalences
end

section
/-! PROOFS of the statements of spec/40_field_descriptor.md: the mask of valid bounds as a number and bit by bit, and
FSPEC as a command that answers at once. -/

namespace Sys2Proof.Proofs.FieldDescriptor

open Sys2Proof Sys2Proof.Machine

/-! ### The descriptor (R100, R102) -/

theorem spec_of_valid {h l : BitVec 4} (bounds : l.toNat ≤ h.toNat ∧ h.toNat ≤ 7) :
    spec h l = some (descriptorOf h l) := if_neg (by omega)

theorem spec_of_invalid {h l : BitVec 4} (bounds : ¬ (l.toNat ≤ h.toNat ∧ h.toNat ≤ 7)) : spec h l = none :=
  if_pos (by omega)

theorem isSome_spec (h l : BitVec 4) : (spec h l).isSome = decide (l.toNat ≤ h.toNat ∧ h.toNat ≤ 7) := by
  by_cases bounds : l.toNat ≤ h.toNat ∧ h.toNat ≤ 7
  · simp [spec_of_valid bounds, bounds]
  · simp [spec_of_invalid bounds, bounds]

/-- R102's mask with its shifts written as products: width one-bits, moved up by lo. -/
theorem maskOf_eq_ofNat (h l : BitVec 4) :
    maskOf h l = BitVec.ofNat 8 ((2 ^ (h.toNat + 1 - l.toNat) - 1) * 2 ^ l.toNat) := by
  rw [maskOf, Nat.one_shiftLeft, Nat.shiftLeft_eq]

section
variable {h l : BitVec 4} (bounds : l.toNat ≤ h.toNat ∧ h.toNat ≤ 7)
include bounds

/-- R103's payload, its width counted as hi - lo + 1. -/
theorem descriptorOf_eq : descriptorOf h l =
    ⟨BitVec.ofNat 3 l.toNat, BitVec.ofNat 8 ((2 ^ (h.toNat - l.toNat + 1) - 1) * 2 ^ l.toNat),
      BitVec.ofNat 4 (h.toNat - l.toNat + 1)⟩ := by
  rw [descriptorOf, maskOf_eq_ofNat, Nat.sub_add_comm bounds.1]

theorem toNat_descriptorOf_shift : (descriptorOf h l).shift.toNat = l.toNat := by
  rw [descriptorOf, BitVec.toNat_ofNat, Nat.mod_eq_of_lt (by omega)]

theorem toNat_descriptorOf_width : (descriptorOf h l).width.toNat = h.toNat + 1 - l.toNat := by
  rw [descriptorOf, BitVec.toNat_ofNat, Nat.mod_eq_of_lt (by omega)]

/-- The mask of valid bounds fits in the byte: R102's cut to 8 bits drops nothing. -/
theorem toNat_maskOf : (maskOf h l).toNat = (2 ^ (h.toNat + 1 - l.toNat) - 1) * 2 ^ l.toNat := by
  rw [maskOf_eq_ofNat, BitVec.toNat_ofNat, Nat.mod_eq_of_lt]
  calc (2 ^ (h.toNat + 1 - l.toNat) - 1) * 2 ^ l.toNat
      < 2 ^ (h.toNat + 1 - l.toNat) * 2 ^ l.toNat :=
        Nat.mul_lt_mul_of_pos_right (Nat.sub_one_lt (by positivity)) (by positivity)
    _ = 2 ^ (h.toNat + 1) := by rw [← pow_add, Nat.sub_add_cancel (by omega)]
    _ ≤ 2 ^ 8 := Nat.pow_le_pow_right (by decide) (by omega)

/-- R104: the bits of the mask are exactly lo to hi. -/
theorem getLsbD_maskOf (k : Nat) :
    (maskOf h l).getLsbD k = (decide (l.toNat ≤ k) && decide (k ≤ h.toNat)) := by
  rw [← BitVec.testBit_toNat, toNat_maskOf bounds, Nat.testBit_mul_two_pow, Nat.testBit_two_pow_sub_one]
  by_cases low : l.toNat ≤ k
  · simp only [low, decide_true, Bool.true_and]
    exact decide_eq_decide.2 (by omega)
  · simp [low]

theorem maskOf_ne_zero : maskOf h l ≠ 0 := by
  intro zero
  have lowest := getLsbD_maskOf bounds l.toNat
  simp [zero, bounds.1] at lowest

theorem toNat_maskOf_ushiftRight :
    (maskOf h l >>> (descriptorOf h l).shift.toNat).toNat = 2 ^ (descriptorOf h l).width.toNat - 1 := by
  rw [toNat_descriptorOf_shift bounds, toNat_descriptorOf_width bounds, BitVec.toNat_ushiftRight,
    Nat.shiftRight_eq_div_pow, toNat_maskOf bounds, Nat.mul_div_cancel _ (by positivity)]

end

/-- The numbers from a to b below n are as many as the interval has. -/
theorem length_filter_range_between {a b n : Nat} (ends : b < n) :
    ((List.range n).filter fun k => decide (a ≤ k) && decide (k ≤ b)).length = b + 1 - a := by
  have interval : (Finset.range n).filter (fun k => a ≤ k ∧ k ≤ b) = Finset.Icc a b := by
    ext k
    simp only [Finset.mem_filter, Finset.mem_range, Finset.mem_Icc]
    omega
  rw [← Nat.card_Icc, ← interval, ← Nat.count_eq_card_filter_range, Nat.count, List.countP_eq_length_filter]
  simp only [Bool.decide_and]

/-- R104's count of the one-bits. -/
theorem length_filter_getLsbD_maskOf {h l : BitVec 4} (bounds : l.toNat ≤ h.toNat ∧ h.toNat ≤ 7) :
    ((List.range 8).filter ((maskOf h l).getLsbD ·)).length = h.toNat - l.toNat + 1 := by
  simp only [getLsbD_maskOf bounds]
  rw [length_filter_range_between (by omega), Nat.sub_add_comm bounds.1]

/-- Settles O14: the mask by its bits (getLsbD_maskOf) and as a number (toNat_maskOf); the 36 pairs are counted on
the bounds. -/
theorem descriptorMaskProperties : Obligations.DescriptorMaskProperties := by
  refine ⟨fun h l bounds => ⟨descriptorOf h l, spec_of_valid bounds, fun k _ => getLsbD_maskOf bounds k,
    length_filter_getLsbD_maskOf bounds, toNat_maskOf_ushiftRight bounds, BitVec.and_not_self _,
    maskOf_ne_zero bounds⟩, fun h l => spec_of_invalid, ?_⟩
  simp only [isSome_spec]
  decide

/-! ### FSPEC (R103) -/

/-- A command whose body responds at once makes no request: all it leaves is R29's clearing and the response. -/
theorem exec_of_bodyOf_answerHost {i : Instr} {s : State} {r : Response} (idle : s.seq = .idle)
    (body : bodyOf i s.beginCommand = s.beginCommand.answerHost r) :
    exec i s = .next (s.ended s.startCache s.inputs [.response r]) := by
  rw [exec_idle idle, body, drive_idle (answerHost_seq _ _), beginCommand_eq]
  rfl

theorem bodyOf_fspec_of_valid {h l : BitVec 4} (bounds : l.toNat ≤ h.toNat ∧ h.toNat ≤ 7) (s : State) :
    bodyOf (.fspec h l) s = s.answerHost ⟨.ok, .descriptor (descriptorOf h l)⟩ := by
  rw [bodyOf, fspecBody, spec_of_valid bounds]
  rfl

theorem bodyOf_fspec_of_invalid {h l : BitVec 4} (bounds : ¬ (l.toNat ≤ h.toNat ∧ h.toNat ≤ 7)) (s : State) :
    bodyOf (.fspec h l) s = s.answerHost ⟨.invalidFieldSpec, .bounds h l⟩ := by
  rw [bodyOf, fspecBody, spec_of_invalid bounds]
  rfl

/-- Settles O13: FSPEC answers at once, its word is encode's, and A and C are must-be-0 fields of its row. -/
theorem fspecFollowsItsRule : Obligations.FspecFollowsItsRule := by
  refine ⟨fun h l s idle => ⟨fun bounds => ?_, fun bounds => ?_⟩, fun h l => ?_, fun w code reserved => ?_⟩
  · rw [← descriptorOf_eq bounds]
    exact exec_of_bodyOf_answerHost idle (bodyOf_fspec_of_valid bounds _)
  · exact exec_of_bodyOf_answerHost idle (bodyOf_fspec_of_invalid bounds _)
  · exact (Encoding.decode_eq_ok_iff _ _).2 ⟨rfl, rfl⟩
  · refine (Encoding.decode_error_iff w).2 (.inr (.inr ((Encoding.encodingBroken_iff (op := .FSPEC) code.symm).2 ?_)))
    refine .inl fun zeros => ?_
    obtain a | c := reserved
    · exact a (zeros (16, 8) (by decide))
    · exact c (zeros (0, 8) (by decide))

end Sys2Proof.Proofs.FieldDescriptor
end

section
/-! PROOFS, the layer of the commands that name a cache entry (spec/41_byte_register.md R124, R125, 42_field_access.md,
44_scale_conversion.md): once, everything that the run of such a command can be, as the events it adds, the point at which
it stands, and what the entry holds there. -/

namespace Sys2Proof.Proofs.EntryRuns

open Sys2Proof Sys2Proof.Machine Sys2Proof.Proofs.Commands

/-! ### The use of a valid entry -/

/-- Whether the use of an entry ends in a WRITE of it (BWC, FSET, SACC, SGYR) or in a response (BMS, FGET). -/
def writesEntry : EntryUse → Bool
  | .commit | .put _ _ _ => true
  | .stage _ _ | .get _ => false

/-- What the entry holds once its byte v has been used. -/
def byteLeft : EntryUse → Byte → Byte
  | .commit, v | .get _, v => v
  | .stage mask bits, v | .put mask bits _, v => merge v mask bits

/-- The use of an entry asks for the WRITE of the byte it leaves, or responds OK. -/
theorem useValue_cases (i : Instr) (a v : Byte) (use : EntryUse) (s : State) :
    (writesEntry use = true ∧ (useValue i a v use s).trace = s.trace ∧
      ∃ after, (useValue i a v use s).seq = .busy i (.commit a (byteLeft use v) after)) ∨
    (writesEntry use = false ∧ (useValue i a v use s).seq = .idle ∧
      ∃ p, (useValue i a v use s).trace = .response ⟨.ok, p⟩ :: s.trace) := by
  cases use with
  | commit => exact .inl ⟨rfl, rfl, _, rfl⟩
  | stage mask bits => exact .inr ⟨rfl, rfl, _, rfl⟩
  | get d => exact .inr ⟨rfl, rfl, _, rfl⟩
  | put mask bits after => exact .inl ⟨rfl, rfl, _, rfl⟩

theorem entry_useValue {s : State} {a v : Byte} (valid : s.entry a = some v) (i : Instr) (use : EntryUse) :
    (useValue i a v use s).entry a = some (byteLeft use v) := by
  cases use with
  | commit => exact valid
  | stage mask bits => exact entry_setEntry_same s a _
  | get d => exact valid
  | put mask bits after => exact entry_setEntry_same s a _

/-! ### The run of a command that names an entry -/

/-- The body of a command that names the entry a: it refuses its operands, and then no request is in its rule; or it is
BRD's READ, BWR's WRITE, or the fill and the use of the entry. -/
theorem bodyOf_of_entryOf {i : Instr} {a : Byte} {s : State} (names : entryOf s.cfg i = some a) :
    (∃ r, bodyOf i s = s.answerHost r ∧ ∀ w, ¬ waitsAt s.cfg i w) ∨
    (waitsAt s.cfg i (.byte a) ∧ bodyOf i s = s.await i (.byte a)) ∨
    (∃ v, waitsAt s.cfg i (.store a v) ∧ bodyOf i s = s.await i (.store a v)) ∨
    (∃ use, waitsAt s.cfg i (.fill a use) ∧ bodyOf i s = fillThen i a use s) := by
  cases i with
  | brd b => cases names; exact .inr (.inl ⟨rfl, rfl⟩)
  | bwr b v => cases names; exact .inr (.inr (.inl ⟨v, rfl, rfl⟩))
  | bwc b => cases names; exact .inr (.inr (.inr ⟨_, .inl rfl, rfl⟩))
  | bms b mask bits => cases names; exact .inr (.inr (.inr ⟨_, rfl, rfl⟩))
  | fget b h l =>
    cases names
    cases bounds : spec h l with
    | none => exact .inl ⟨_, by simp only [bodyOf, fgetBody, bounds]; rfl, by simp [waitsAt, bounds]⟩
    | some d => exact .inr (.inr (.inr ⟨_, ⟨d, bounds, rfl⟩, by simp only [bodyOf, fgetBody, bounds]⟩))
  | fset b h l v =>
    cases names
    cases bounds : spec h l with
    | none => exact .inl ⟨_, by simp only [bodyOf, fsetBody, bounds]; rfl, by simp [waitsAt, bounds]⟩
    | some d => exact .inr (.inr (.inr ⟨_, ⟨d, bounds, .inl rfl⟩, by simp only [bodyOf, fsetBody, bounds]⟩))
  | sacc v =>
    cases names
    cases scale : accScaleOf v with
    | none => exact .inl ⟨_, by simp only [bodyOf, saccBody, scale]; rfl, by simp [waitsAt, scale]⟩
    | some sc => exact .inr (.inr (.inr ⟨_, ⟨sc, scale, .inl rfl⟩, by simp only [bodyOf, saccBody, scale]; rfl⟩))
  | sgyr v =>
    cases names
    cases scale : gyrScaleOf v with
    | none => exact .inl ⟨_, by simp only [bodyOf, sgyrBody, scale]; rfl, by simp [waitsAt, scale]⟩
    | some sc => exact .inr (.inr (.inr ⟨_, ⟨sc, scale, .inl rfl⟩, by simp only [bodyOf, sgyrBody, scale]; rfl⟩))
  | _ => cases names

/-- The fill of the entry a is done (R124) and gave the byte v: with no READ if the entry was found valid, with one if it
was not. -/
inductive Filled (dev : Nat) (a : Byte) (found : Option Byte) (v : Byte) : List Event → Prop
  | valid (valid : found = some v) : Filled dev a found v []
  | read (invalid : found = none) : Filled dev a found v [.transaction (.read dev a) (.ok v)]

/-- Command i, begun in s, waits at this point, having added these events (newest first), the entry a holding this. -/
inductive AsksAt (i : Instr) (s : State) (a : Byte) : Waiting → List Event → Option Byte → Prop
  | byte (point : waitsAt s.cfg i (.byte a)) : AsksAt i s a (.byte a) [] (s.startEntry a)
  | store {v : Byte} (point : waitsAt s.cfg i (.store a v)) : AsksAt i s a (.store a v) [] (s.startEntry a)
  | fill {use : EntryUse} (point : waitsAt s.cfg i (.fill a use)) (invalid : s.startEntry a = none) :
      AsksAt i s a (.fill a use) [] (s.startEntry a)
  | commit {use : EntryUse} {es : List Event} {v : Byte} {after : AfterWrite} (point : waitsAt s.cfg i (.fill a use))
      (filled : Filled s.dev a (s.startEntry a) v es) (writes : writesEntry use = true) :
      AsksAt i s a (.commit a (byteLeft use v) after) es (some (byteLeft use v))

/-- Command i, begun in s, has ended, having added these events (newest first), the entry a holding this. -/
inductive EndsWith (i : Instr) (s : State) (a : Byte) : List Event → Option Byte → Prop
  /-- The operands were refused: the rule's requests are never made. -/
  | refused {r : Response} (noPoint : ∀ w, ¬ waitsAt s.cfg i w) : EndsWith i s a [.response r] (s.startEntry a)
  /-- BMS and FGET: the entry was used, with no WRITE. -/
  | used {use : EntryUse} {es : List Event} {v : Byte} {p : Payload} (point : waitsAt s.cfg i (.fill a use))
      (filled : Filled s.dev a (s.startEntry a) v es) (responds : writesEntry use = false) :
      EndsWith i s a (.response ⟨.ok, p⟩ :: es) (some (byteLeft use v))
  /-- BRD's READ was answered OK. -/
  | read {d : Byte} {p : Payload} (point : waitsAt s.cfg i (.byte a)) :
      EndsWith i s a [.response ⟨.ok, p⟩, .transaction (.read s.dev a) (.ok d)] (some d)
  /-- The WRITE was answered OK. -/
  | written {w : Waiting} {es : List Event} {held : Option Byte} {v x : Byte} {p : Payload} (asks : AsksAt i s a w es held)
      (request : w.request s.dev = .write s.dev a v) :
      EndsWith i s a (.response ⟨.ok, p⟩ :: .transaction (.write s.dev a v) (.ok x) :: es) (some v)
  /-- The request was answered ERR, which leaves the entry, but for the draw of a failed BWR. -/
  | failed {w : Waiting} {es : List Event} {held left : Option Byte} {r : Request} {e : Nat}
      (asks : AsksAt i s a w es held) (request : w.request s.dev = r)
      (drawn : left = held ∨ ∃ v, w = .store a v ∧ left = some v) :
      EndsWith i s a (.response ⟨.transportError, .datum e⟩ :: .transaction r (.err e) :: es) left

/-- The state t is one of a run of command i, begun in s, that names the entry a. -/
def EntryRun (i : Instr) (s : State) (a : Byte) (t : State) : Prop :=
  ∃ es held, t.trace = es ++ s.trace ∧ t.entry a = held ∧
    ((t.seq = .idle ∧ EndsWith i s a es held) ∨ ∃ w, t.seq = .busy i w ∧ AsksAt i s a w es held)

section
variable {i : Instr} {s : State} {a : Byte}

theorem entryRun_useValue {u : State} {use : EntryUse} {es : List Event} {v : Byte}
    (point : waitsAt s.cfg i (.fill a use)) (filled : Filled s.dev a (s.startEntry a) v es)
    (added : u.trace = es ++ s.trace) (valid : u.entry a = some v) : EntryRun i s a (useValue i a v use u) := by
  have left := entry_useValue valid i use
  obtain ⟨writes, trace, after, busy⟩ | ⟨responds, idle, p, trace⟩ := useValue_cases i a v use u
  · exact ⟨es, _, trace.trans added, left, .inr ⟨_, busy, .commit point filled writes⟩⟩
  · exact ⟨_ :: es, _, trace.trans (congrArg _ added), left, .inl ⟨idle, .used point filled responds⟩⟩

theorem entryRun_bodyOf (names : entryOf s.cfg i = some a) : EntryRun i s a (bodyOf i s.beginCommand) := by
  have begun : s.beginCommand.trace = [] ++ s.trace := beginCommand_trace s
  have cfg : s.beginCommand.cfg = s.cfg := beginCommand_cfg s
  obtain ⟨r, body, noPoint⟩ | ⟨point, body⟩ | ⟨v, point, body⟩ | ⟨use, point, body⟩ :=
    bodyOf_of_entryOf (s := s.beginCommand) (cfg.symm ▸ names)
  all_goals rw [body]
  · exact ⟨_, _, congrArg _ begun, rfl, .inl ⟨rfl, .refused (cfg ▸ noPoint)⟩⟩
  · exact ⟨_, _, begun, rfl, .inr ⟨_, rfl, .byte (cfg ▸ point)⟩⟩
  · exact ⟨_, _, begun, rfl, .inr ⟨_, rfl, .store (cfg ▸ point)⟩⟩
  · rw [cfg] at point
    cases found : s.beginCommand.entry a with
    | none =>
      rw [fillThen_invalid found]
      exact ⟨_, _, begun, rfl, .inr ⟨_, rfl, .fill point found⟩⟩
    | some v =>
      rw [fillThen_valid found]
      exact entryRun_useValue point (.valid found) begun found

/-- A failed request leaves the entry as it was, but for the draw of a failed BWR (R124). -/
theorem entry_cacheAfterFailure {w : Waiting} (target : targetOf w = some a) (u : State) :
    (cacheAfterFailure w u).entry a = u.entry a ∨
      ∃ v, w = .store a v ∧ (cacheAfterFailure w u).entry a = some v := by
  obtain eq | ⟨b, v, rfl, eq | eq⟩ := cacheAfterFailure_cases w u
  · exact .inl (by rw [eq])
  · exact .inl (by rw [eq]; rfl)
  · cases target
    exact .inr ⟨v, rfl, by rw [eq, entry_setEntry_same]⟩

theorem AsksAt.target {w : Waiting} {es : List Event} {held : Option Byte} (asks : AsksAt i s a w es held) :
    targetOf w = some a := by
  cases asks <;> rfl

theorem entryRun_deliver_ok {u : State} {w : Waiting} {es : List Event} {held : Option Byte}
    (dev : u.cfg.wiring.devAddr = s.dev) (added : u.trace = es ++ s.trace) (entry : u.entry a = held)
    (asks : AsksAt i s a w es held) (d : Byte) : EntryRun i s a (deliver i w (.ok d) u) := by
  rw [deliver_ok, dev]
  have asked := asks
  cases asks with
  | byte point =>
    exact ⟨_ :: _ :: _, _, congrArg (_ :: _ :: ·) added, entry_setEntry_same _ a d, .inl ⟨rfl, .read point⟩⟩
  | @store v point =>
    exact ⟨_ :: _ :: _, _, congrArg (_ :: _ :: ·) added, entry_setEntry_same _ a v, .inl ⟨rfl, .written asked rfl⟩⟩
  | fill point invalid =>
    exact entryRun_useValue point (.read invalid) (congrArg (_ :: ·) added) (entry_setEntry_same _ a d)
  | @commit use _ v after point filled writes =>
    cases after <;>
      exact ⟨_ :: _ :: es, _, congrArg (_ :: _ :: ·) added, entry, .inl ⟨rfl, .written asked rfl⟩⟩

theorem entryRun_deliver_err {u : State} {w : Waiting} {es : List Event} {held : Option Byte}
    (dev : u.cfg.wiring.devAddr = s.dev) (added : u.trace = es ++ s.trace) (entry : u.entry a = held)
    (asks : AsksAt i s a w es held) (e : Nat) : EntryRun i s a (deliver i w (.err e) u) := by
  rw [deliver_err, dev]
  have drawn := entry_cacheAfterFailure asks.target (u.log (.transaction (w.request s.dev) (.err e)))
  rw [entry_congr (log_cache u _), entry] at drawn
  have recorded : (cacheAfterFailure w (u.log (.transaction (w.request s.dev) (.err e)))).trace =
      .transaction (w.request s.dev) (.err e) :: es ++ s.trace := by
    rw [Observation.cacheAfterFailure_trace, log_trace, added, List.cons_append]
  exact ⟨_ :: _ :: es, _, congrArg (_ :: ·) recorded, rfl, .inl ⟨rfl, .failed asks rfl drawn⟩⟩

/-- Everything that a command which names an entry can have done where it stops. -/
theorem exec_entryRun {t : State} (names : entryOf s.cfg i = some a) (run : exec i s = .next t) : EntryRun i s a t := by
  refine exec_induction (EntryRun i s a) (fun _ _ h => h) (entryRun_bodyOf names) ?_ run
  rintro u w x busy cfg - ⟨es, held, added, entry, ⟨idle, -⟩ | ⟨w', busy', asks⟩⟩
  · rw [idle] at busy; cases busy
  · rw [busy] at busy'
    cases busy'
    have dev : u.cfg.wiring.devAddr = s.dev := congrArg (·.wiring.devAddr) cfg
    cases x with
    | ok d => exact entryRun_deliver_ok dev added entry asks d
    | err e => exact entryRun_deliver_err dev added entry asks e

/-- A command that waits has not responded. -/
theorem AsksAt.noResponse {w : Waiting} {es : List Event} {held : Option Byte} (asks : AsksAt i s a w es held)
    (r : Response) : .response r ∉ es := by
  cases asks with
  | commit point filled writes => cases filled <;> simp
  | _ => simp

/-- Where a command has responded, it has ended. -/
theorem exec_endsWith {t : State} {r : Response} {es : List Event} (names : entryOf s.cfg i = some a)
    (run : exec i s = .next t) (trace : t.trace = .response r :: es ++ s.trace) :
    EndsWith i s a (.response r :: es) (t.entry a) := by
  obtain ⟨es', held, added, rfl, stands⟩ := exec_entryRun names run
  obtain rfl : .response r :: es = es' := List.append_cancel_right (trace.symm.trans added)
  obtain ⟨-, ends⟩ | ⟨w, -, asks⟩ := stands
  · exact ends
  · exact absurd (List.mem_cons_self ..) (asks.noResponse r)

end

/-! ### What the points say of the command and of its requests -/

/-- Only BRD reads a byte whatever its entry holds. -/
theorem eq_brd_of_waitsAt_byte {cfg : Config} {i : Instr} {a : Byte} (h : waitsAt cfg i (.byte a)) : i = .brd a := by
  cases i with
  | brd b => cases h; rfl
  | _ => simp [waitsAt] at h

section
variable {dev : Nat} {a v : Byte} {found : Option Byte} {es : List Event}

theorem Filled.eq_nil (filled : Filled dev a found v es) (valid : found.isSome = true) : es = [] := by
  cases filled with
  | valid => rfl
  | read invalid => simp [invalid] at valid

/-- A fill is one READ of an invalid entry and no WRITE (R124). -/
theorem Filled.counts (filled : Filled dev a found v es) :
    es.countP isRead = (if found.isSome then 0 else 1) ∧ es.countP isWrite = 0 := by
  cases filled with
  | valid valid => simp [valid]
  | read invalid => simp [invalid, isRead, isWrite]

theorem Filled.noFailure (filled : Filled dev a found v es) (r : Request) (e : Nat) : .transaction r (.err e) ∉ es := by
  cases filled <;> simp

end

section
variable {i : Instr} {s : State} {a : Byte} {w : Waiting} {es : List Event} {held : Option Byte}

theorem AsksAt.noFailure (asks : AsksAt i s a w es held) (r : Request) (e : Nat) : .transaction r (.err e) ∉ es := by
  cases asks with
  | commit point filled writes => exact filled.noFailure r e
  | _ => simp

/-- A command ends on an answer ERR where it waited for that request. -/
theorem EndsWith.of_failure {p : Payload} {r : Request} {e : Nat}
    (ends : EndsWith i s a (.response ⟨.transportError, p⟩ :: .transaction r (.err e) :: es) held) :
    ∃ w before, AsksAt i s a w es before ∧ w.request s.dev = r ∧
      (held = before ∨ ∃ v, w = .store a v ∧ held = some v) := by
  cases ends with
  | failed asks request drawn => exact ⟨_, _, asks, request, drawn⟩

/-- A command that uses an entry found valid waits only for its WRITE, and has made no request before. -/
theorem AsksAt.of_valid (asks : AsksAt i s a w es held) (uses : usesEntry i = true)
    (valid : (s.startEntry a).isSome = true) : es = [] ∧ ∃ v, w.request s.dev = .write s.dev a v := by
  cases asks with
  | byte point => rw [eq_brd_of_waitsAt_byte point] at uses; cases uses
  | store point => exact ⟨rfl, _, rfl⟩
  | fill point invalid => simp [invalid] at valid
  | commit point filled writes => exact ⟨filled.eq_nil valid, _, rfl⟩

end

end Sys2Proof.Proofs.EntryRuns
end

section
/-! PROOFS of the statements of spec/41_byte_register.md: each command's rule from its body and its first answer, and the
statements about what the cache commands ask and leave from the runs of Proofs.EntryRuns. -/

namespace Sys2Proof.Proofs.ByteRegister

open Sys2Proof Sys2Proof.Machine Sys2Proof.Proofs.Commands Sys2Proof.Proofs.EntryRuns

/-! ### Illegal words, and a command up to its first answer -/

/-- A word with a must-be-0 field of its row that is not 0 is illegal (R68). -/
theorem decode_error_of_reserved {w : Word} {op : Opcode} {p : Nat × Nat} (code : fieldOP w = Encoding.codeOf op)
    (reserved : p ∈ Encoding.reservedSlices op) (other : w.extractLsb' p.1 p.2 ≠ 0) : ∃ e, decode w = .error e :=
  (Encoding.decode_error_iff w).2
    (.inr (.inr ((Encoding.encodingBroken_iff code.symm).2 (.inl fun zeros => other (zeros p reserved)))))

section
variable {i : Instr} {s : State} {w : Waiting} (idle : s.seq = .idle)
  (body : bodyOf i s.beginCommand = s.beginCommand.await i w)
include idle body

/-- A command that starts with a request waits for it, and goes on as far as the answers that are there carry it. -/
theorem exec_of_await : exec i s = .next (drive s.inputs (s.waits s.startCache s.inputs [] i w)) := by
  rw [exec_idle idle, body, beginCommand_eq]
  rfl

theorem exec_of_await_noAnswer (stall : noAnswerFirst s.inputs = true) :
    exec i s = .next (s.waits s.startCache s.inputs [] i w) := by
  rw [exec_of_await idle body, drive_noAnswer stall]
  rfl

theorem exec_of_await_answer {x : Answer} {rest : List Input} (moves : s.inputs = .answer x :: rest) :
    exec i s = .next (drive rest (deliver i w x (s.waits s.startCache s.inputs [] i w))) := by
  rw [exec_of_await idle body, ← drive_answer (s := s.waits s.startCache s.inputs [] i w) rfl x rest, moves]

/-- Where the first answer ends the command, what is left of the moves stays. -/
theorem exec_of_await_lastAnswer {x : Answer} {rest : List Input} (moves : s.inputs = .answer x :: rest)
    (ends : (deliver i w x (s.waits s.startCache s.inputs [] i w)).seq = .idle) :
    exec i s = .next { deliver i w x (s.waits s.startCache s.inputs [] i w) with inputs := rest } := by
  rw [exec_of_await_answer idle body moves, drive_idle ends]

end

/-! ### BRD and BWR (R120, R121) -/

/-- Settles O15: BRD's one READ, answered or not; its word is encode's, and B and C are must-be-0 fields of its row. -/
theorem brdFollowsItsRule : Obligations.BrdFollowsItsRule := by
  refine ⟨fun a s rest idle => ?_, fun a => (Encoding.decode_eq_ok_iff _ _).2 ⟨rfl, rfl⟩, fun w code reserved => ?_⟩
  · have body : bodyOf (.brd a) s.beginCommand = s.beginCommand.await (.brd a) (.byte a) := rfl
    exact ⟨fun d moves => exec_of_await_lastAnswer idle body moves rfl,
      fun e moves => exec_of_await_lastAnswer idle body moves rfl, exec_of_await_noAnswer idle body⟩
  · obtain b | c := reserved
    · exact decode_error_of_reserved (op := .BRD) (p := (8, 8)) code (by decide) b
    · exact decode_error_of_reserved (op := .BRD) (p := (0, 8)) code (by decide) c

/-- What a failed BWR leaves of the cache, whichever way the draw goes (R124, assumption 4). -/
theorem cacheAfterFailure_store (a v : Byte) (s : State) : ∃ c, (c = s.cache ∨ c = s.cache.write a.toNat v) ∧
    cacheAfterFailure (.store a v) s = { s with cache := c, draws := s.draws + 1 } := by
  by_cases keeps : Config.failedWriteKeepsEntry s.draws = true
  · exact ⟨_, .inl rfl, if_pos keeps⟩
  · exact ⟨_, .inr rfl, if_neg keeps⟩

/-- Settles O16, as O15; what a failed WRITE leaves is cacheAfterFailure_store. -/
theorem bwrFollowsItsRule : Obligations.BwrFollowsItsRule := by
  refine ⟨fun a v s rest idle => ?_, fun a v => (Encoding.decode_eq_ok_iff _ _).2 ⟨rfl, by simp [encode, place]⟩,
    fun w code b => decode_error_of_reserved (op := .BWR) (p := (8, 8)) code (by decide) b⟩
  have body : bodyOf (.bwr a v) s.beginCommand = s.beginCommand.await (.bwr a v) (.store a v) := rfl
  refine ⟨fun d moves => exec_of_await_lastAnswer idle body moves rfl, fun e moves => ?_,
    exec_of_await_noAnswer idle body⟩
  obtain ⟨c, drawn, left⟩ := cacheAfterFailure_store a v
    ((s.waits s.startCache s.inputs [] (.bwr a v) (.store a v)).log (.transaction (.write s.dev a v) (.err e)))
  exact ⟨c, drawn, (exec_of_await_lastAnswer idle body moves rfl).trans
    (congrArg (fun u => Host.Outcome.next { u.raise .transportError (.datum e) with inputs := rest }) left)⟩

/-! ### BWC and BMS (R122, R123) -/

/-- Settles O17: a valid entry leaves the WRITE alone, answered or not; an invalid one the READ, and after its OK the
WRITE. -/
theorem bwcFollowsItsRule : Obligations.BwcFollowsItsRule := by
  refine ⟨fun a s rest idle => ⟨fun v valid => ?_, fun invalid => ?_⟩,
    fun a => (Encoding.decode_eq_ok_iff _ _).2 ⟨rfl, rfl⟩, fun w code reserved => ?_⟩
  · have body : bodyOf (.bwc a) s.beginCommand = s.beginCommand.await (.bwc a) (.commit a v .nothing) :=
      fillThen_valid valid _ _
    exact ⟨fun x moves => exec_of_await_lastAnswer idle body moves rfl,
      fun e moves => exec_of_await_lastAnswer idle body moves rfl, exec_of_await_noAnswer idle body⟩
  · have body : bodyOf (.bwc a) s.beginCommand = s.beginCommand.await (.bwc a) (.fill a .commit) :=
      fillThen_invalid invalid _ _
    refine ⟨fun d x moves => ?_, fun d e moves => ?_, fun d moves stall => ?_,
      fun e moves => exec_of_await_lastAnswer idle body moves rfl, exec_of_await_noAnswer idle body⟩
    · rw [exec_of_await_answer idle body moves, drive_answer (w := .commit a d .nothing) rfl, drive_idle rfl]
      rfl
    · rw [exec_of_await_answer idle body moves, drive_answer (w := .commit a d .nothing) rfl, drive_idle rfl]
      rfl
    · rw [exec_of_await_answer idle body moves, drive_noAnswer stall]
      rfl
  · obtain b | c := reserved
    · exact decode_error_of_reserved (op := .BWC) (p := (8, 8)) code (by decide) b
    · exact decode_error_of_reserved (op := .BWC) (p := (0, 8)) code (by decide) c

theorem merge_eq_xor (old mask bits : Byte) : merge old mask bits = (bits &&& mask) ||| (old &&& (0xFF ^^^ mask)) := by
  rw [merge, ← BitVec.allOnes_xor]
  rfl

/-- Settles O18: a valid entry is merged into at once; an invalid one leaves the READ, answered or not, and its OK the
merge. -/
theorem bmsFollowsItsRule : Obligations.BmsFollowsItsRule := by
  refine ⟨fun a mask bits s rest idle => ⟨fun old valid => ?_, fun invalid => ?_⟩,
    fun a b c => (Encoding.decode_eq_ok_iff _ _).2 ⟨rfl, by simp [encode, place]⟩⟩
  · have body : bodyOf (.bms a mask bits) s.beginCommand =
        (s.beginCommand.setEntry a (merge old mask bits)).respond .none := fillThen_valid valid _ _
    rw [exec_idle idle, body, drive_idle rfl, ← merge_eq_xor, beginCommand_eq]
    rfl
  · have body : bodyOf (.bms a mask bits) s.beginCommand =
        s.beginCommand.await (.bms a mask bits) (.fill a (.stage mask bits)) := fillThen_invalid invalid _ _
    refine ⟨fun d moves => ⟨(s.startCache.write a.toNat d).write a.toNat (merge d mask bits),
        exec_of_await_lastAnswer idle body moves rfl, ?_, fun b other => ?_⟩,
      fun e moves => exec_of_await_lastAnswer idle body moves rfl, exec_of_await_noAnswer idle body⟩
    · rw [memory_read_write_same, merge_eq_xor]
    · have ne : b.toNat ≠ a.toNat := fun eq => other (BitVec.eq_of_toNat_eq eq)
      rw [memory_read_write_other _ _ ne, memory_read_write_other _ _ ne]
      rfl

/-! ### The requests (R124, R126, R143, R260) -/

/-- Settles O37, by the run of a command that names an entry: its only READ is that of a fill. -/
theorem validEntryIsNotReadAgain : Obligations.ValidEntryIsNotReadAgain := by
  intro i a s t es uses names valid run added
  obtain ⟨es', held, added', -, stands⟩ := exec_entryRun names run
  obtain rfl : es = es' := List.append_cancel_right (added.symm.trans added')
  obtain ⟨-, ends⟩ | ⟨w, -, asks⟩ := stands
  · cases ends with
    | refused noPoint => simp [isRead]
    | used point filled responds => simp [filled.eq_nil valid, isRead]
    | read point => rw [eq_brd_of_waitsAt_byte point] at uses; cases uses
    | written asks request => simp [(asks.of_valid uses valid).1, isRead]
    | failed asks request drawn =>
      obtain ⟨rfl, v, write⟩ := asks.of_valid uses valid
      simp [← request, write, isRead]
  · obtain ⟨rfl, -⟩ := asks.of_valid uses valid
    simp

/-- The commands that R126 and R143 count, each of the entry a. -/
def CacheCommand (i : Instr) (a : Byte) : Prop :=
  i = .brd a ∨ (∃ v, i = .bwr a v) ∨ i = .bwc a ∨ (∃ m b, i = .bms a m b) ∨ (∃ h l, i = .fget a h l) ∨
    ∃ h l v, i = .fset a h l v

theorem bounds_of_spec {h l : BitVec 4} {d : Descriptor} (accepted : spec h l = some d) :
    l.toNat ≤ h.toNat ∧ h.toNat ≤ 7 := by
  by_contra bounds
  rw [FieldDescriptor.spec_of_invalid bounds] at accepted
  cases accepted

section
variable {i : Instr} {a : Byte} (counted : CacheCommand i a)
include counted

theorem entryOf_cacheCommand (cfg : Config) : entryOf cfg i = some a := by
  obtain rfl | ⟨v, rfl⟩ | rfl | ⟨m, b, rfl⟩ | ⟨h, l, rfl⟩ | ⟨h, l, v, rfl⟩ := counted <;> rfl

/-- The rule of a counted command holds no request only where its bounds are refused. -/
theorem requestCounts_of_noPoint {cfg : Config} (noPoint : ∀ w, ¬ waitsAt cfg i w) (valid : Bool) :
    requestCounts i valid = (0, 0) := by
  obtain rfl | ⟨v, rfl⟩ | rfl | ⟨m, b, rfl⟩ | ⟨h, l, rfl⟩ | ⟨h, l, v, rfl⟩ := counted
  · exact absurd rfl (noPoint _)
  · exact absurd rfl (noPoint _)
  · exact absurd (.inl rfl) (noPoint _)
  · exact absurd rfl (noPoint _)
  · exact if_neg fun bounds => noPoint _ ⟨_, FieldDescriptor.spec_of_valid bounds, rfl⟩
  · exact if_neg fun bounds => noPoint _ ⟨_, FieldDescriptor.spec_of_valid bounds, .inl rfl⟩

/-- A counted command that fills its entry reads it if it is invalid, and writes it if that is its use. -/
theorem requestCounts_of_fill {cfg : Config} {c : Byte} {use : EntryUse} (point : waitsAt cfg i (.fill c use))
    (valid : Bool) : requestCounts i valid = (if valid then 0 else 1, if writesEntry use then 1 else 0) := by
  obtain rfl | ⟨v, rfl⟩ | rfl | ⟨m, b, rfl⟩ | ⟨h, l, rfl⟩ | ⟨h, l, v, rfl⟩ := counted
  · cases point
  · cases point
  · obtain eq | ⟨_, eq⟩ := point <;> cases eq
    rfl
  · cases point
    rfl
  · obtain ⟨d, accepted, eq⟩ := point
    cases eq
    exact if_pos (bounds_of_spec accepted)
  · obtain ⟨d, accepted, eq | ⟨_, eq⟩⟩ := point <;> cases eq
    exact if_pos (bounds_of_spec accepted)

/-- A counted command that has made its WRITE has made all of its requests. -/
theorem requestCounts_of_asksAt {s : State} {w : Waiting} {es : List Event} {held : Option Byte} {v : Byte}
    (asks : AsksAt i s a w es held) (request : w.request s.dev = .write s.dev a v) :
    requestCounts i (s.startEntry a).isSome = (es.countP isRead, es.countP isWrite + 1) := by
  cases asks with
  | byte point => cases request
  | store point => rw [eq_bwr_of_waitsAt_store point]; rfl
  | fill point invalid => cases request
  | commit point filled writes =>
    rw [requestCounts_of_fill counted point, filled.counts.1, filled.counts.2, writes]
    rfl

end

/-- Settles O36, by the run of a command that names an entry: each way it can end is counted against its rule, and only the
last request can have failed. -/
theorem requestCountsOfCacheCommands : Obligations.RequestCountsOfCacheCommands := by
  intro i a s t es counted run idle added
  obtain ⟨es', held, added', -, ⟨-, ends⟩ | ⟨w, busy, -⟩⟩ := exec_entryRun (entryOf_cacheCommand counted s.cfg) run
  · obtain rfl : es = es' := List.append_cancel_right (added.symm.trans added')
    cases ends with
    | refused noPoint => exact ⟨fun _ => by rw [requestCounts_of_noPoint counted noPoint]; rfl, by simp⟩
    | used point filled responds =>
      obtain ⟨reads, writes⟩ := filled.counts
      refine ⟨fun _ => ?_, fun r e failure => ?_⟩
      · rw [requestCounts_of_fill counted point]
        simp [isRead, isWrite, reads, writes, responds]
      · simp [filled.noFailure] at failure
    | read point =>
      rw [eq_brd_of_waitsAt_byte point]
      exact ⟨fun _ => rfl, by simp⟩
    | written asks request =>
      refine ⟨fun _ => ?_, fun r e failure => ?_⟩
      · rw [requestCounts_of_asksAt counted asks request]
        simp [List.countP_cons, isRead, isWrite]
      · simp [asks.noFailure] at failure
    | failed asks request drawn =>
      refine ⟨fun noFailure => absurd (.tail _ (.head _)) (noFailure _ _), fun r e failure => ?_⟩
      have last := by simpa [asks.noFailure] using failure
      obtain ⟨rfl, rfl⟩ := last
      exact ⟨_, rfl, asks.noFailure⟩
  · rw [idle] at busy; cases busy

/-! ### The entry after a command (R124, R125) -/

/-- Settles O38, by the run's end: it says what the entry holds after a READ or a WRITE answered OK. -/
theorem entryAfterSuccess : Obligations.EntryAfterSuccess := by
  intro i a p s t es names run
  refine ⟨fun v x trace => ?_, fun d trace reads => ?_, fun mask bits bms trace => ?_⟩
  all_goals
    have ends := exec_endsWith names run trace
    generalize t.entry a = held at ends ⊢
  · cases ends with
    | used point filled responds => cases filled
    | written asks request => rfl
  · cases ends with
    | used point filled responds =>
      cases filled
      obtain rfl | ⟨h, l, rfl⟩ := reads
      · cases point
      · obtain ⟨_, -, eq⟩ := point
        cases eq
        rfl
    | read point => rfl
  · cases ends with
    | refused noPoint => exact absurd (by rw [bms]; rfl) (noPoint (.fill a (.stage mask bits)))
    | _ => rfl

/-- Settles O39, by the run's end: a failed request leaves the entry as it was when the request was made, which is as the
command found it before a READ and before BWR's WRITE, and the value tried before any other WRITE. -/
theorem entryAfterTransportFailure : Obligations.EntryAfterTransportFailure := by
  intro i a e p s t es names run
  refine ⟨fun trace => ?_, fun v trace => ?_⟩
  all_goals
    obtain ⟨w, before, asks, request, drawn⟩ := (exec_endsWith names run trace).of_failure
  · cases asks with
    | byte point => simpa using drawn
    | store point => cases request
    | fill point invalid => simpa using drawn
    | commit point filled writes => cases request
  · cases asks with
    | byte point => cases request
    | store point =>
      cases request
      obtain kept | ⟨u, eq, tried⟩ := drawn
      · exact .inr ⟨⟨v, eq_bwr_of_waitsAt_store point⟩, kept⟩
      · cases eq
        exact .inl tried
    | fill point invalid => cases request
    | commit point filled writes =>
      cases request
      exact .inl (by simpa using drawn)

end Sys2Proof.Proofs.ByteRegister
end

section
/-! PROOFS of the statements of spec/42_field_access.md: the field of a byte and the merged byte bit by bit, FGET as the
answer of that field and FSET as the WRITE of that byte, and the round trip of the two. -/

namespace Sys2Proof.Proofs.FieldAccess

open Sys2Proof Sys2Proof.Machine Sys2Proof.Proofs.ByteRegister Sys2Proof.Proofs.FieldDescriptor

/-! ### The field of a byte, and the merged byte (R140, R141) -/

/-- FSET's merge of its value moved to its place (R141). -/
theorem merge_eq_fsetByte (h l : BitVec 4) (v old : Byte) :
    merge old (maskOf h l) (v <<< l.toNat) = fsetByte h l v old := merge_eq_xor _ _ _

section
variable {h l : BitVec 4} (bounds : l.toNat ≤ h.toNat ∧ h.toNat ≤ 7)
include bounds

/-- Bit k of a field is bit lo + k of the byte, as far as hi. -/
theorem getLsbD_fieldOf (v : Byte) (k : Nat) :
    (fieldOf v (descriptorOf h l)).getLsbD k = (decide (l.toNat + k ≤ h.toNat) && v.getLsbD (l.toNat + k)) := by
  rw [fieldOf, toNat_descriptorOf_shift bounds, BitVec.getLsbD_ushiftRight, BitVec.getLsbD_and,
    show (descriptorOf h l).mask = maskOf h l from rfl, getLsbD_maskOf bounds, Bool.and_comm]
  simp

/-- A byte whose bits lo to hi are the low bits of the number n has n mod 2^width in the field (R100). -/
theorem fieldOf_eq_ofNat {v : Byte} {n : Nat}
    (bits : ∀ k, l.toNat + k ≤ h.toNat → v.getLsbD (l.toNat + k) = n.testBit k) :
    fieldOf v (descriptorOf h l) = BitVec.ofNat 8 (n % 2 ^ (h.toNat - l.toNat + 1)) := by
  apply BitVec.eq_of_getLsbD_eq
  intro k byte
  rw [getLsbD_fieldOf bounds, BitVec.getLsbD_ofNat, Nat.testBit_mod_two_pow]
  by_cases inside : l.toNat + k ≤ h.toNat
  · simp [bits k inside, inside, byte, show k < h.toNat - l.toNat + 1 by omega]
  · simp [inside, show ¬ k < h.toNat - l.toNat + 1 by omega]

/-- R140's field as a number: the byte shifted down by lo, cut to the width. -/
theorem fieldOf_eq_div_mod (v : Byte) : fieldOf v (descriptorOf h l) =
    BitVec.ofNat 8 (v.toNat / 2 ^ l.toNat % 2 ^ (h.toNat - l.toNat + 1)) :=
  fieldOf_eq_ofNat bounds fun k _ => by rw [Nat.testBit_div_two_pow, BitVec.testBit_toNat, Nat.add_comm]

/-- R142: the merged byte has the value's bits in the field and the old byte's outside it. -/
theorem getLsbD_fsetByte (x old : Byte) {k : Nat} (byte : k < 8) : (fsetByte h l x old).getLsbD k =
    if l.toNat ≤ k ∧ k ≤ h.toNat then x.getLsbD (k - l.toNat) else old.getLsbD k := by
  rw [← merge_eq_fsetByte, merge, BitVec.getLsbD_or, BitVec.getLsbD_and, BitVec.getLsbD_and, BitVec.getLsbD_not,
    getLsbD_maskOf bounds, BitVec.getLsbD_shiftLeft, ← Bool.decide_and]
  by_cases inside : l.toNat ≤ k ∧ k ≤ h.toNat <;> simp [inside, byte]

/-- R142: the field of the merged byte is the value, cut to the width. -/
theorem fieldOf_fsetByte (x old : Byte) : fieldOf (fsetByte h l x old) (descriptorOf h l) =
    BitVec.ofNat 8 (x.toNat % 2 ^ (h.toNat - l.toNat + 1)) := by
  refine fieldOf_eq_ofNat bounds fun k inside => ?_
  rw [getLsbD_fsetByte bounds x old (by omega), if_pos ⟨by omega, inside⟩, Nat.add_sub_cancel_left,
    BitVec.testBit_toNat]

end

/-! ### FGET (R140) -/

section
variable {a : Byte} {h l : BitVec 4} {s : State}

theorem bodyOf_fget_of_invalid (bounds : ¬ (l.toNat ≤ h.toNat ∧ h.toNat ≤ 7)) (s : State) :
    bodyOf (.fget a h l) s = s.answerHost ⟨.invalidFieldSpec, .bounds h l⟩ := by
  rw [bodyOf, fgetBody, spec_of_invalid bounds]
  rfl

theorem bodyOf_fget_of_valid (bounds : l.toNat ≤ h.toNat ∧ h.toNat ≤ 7) (s : State) :
    bodyOf (.fget a h l) s = fillThen (.fget a h l) a (.get (descriptorOf h l)) s := by
  rw [bodyOf, fgetBody, spec_of_valid bounds]

/-- FGET of a valid entry answers at once, with no request. -/
theorem exec_fget_of_entry {v : Byte} (idle : s.seq = .idle) (bounds : l.toNat ≤ h.toNat ∧ h.toNat ≤ 7)
    (valid : s.startEntry a = some v) : exec (.fget a h l) s = .next (s.ended s.startCache s.inputs
      [.response ⟨.ok, .byte (fieldOf v (descriptorOf h l))⟩]) :=
  exec_of_bodyOf_answerHost idle ((bodyOf_fget_of_valid bounds _).trans (fillThen_valid valid _ _))

end

/-- Settles O19: bad bounds and a valid entry are answered at once; an invalid entry leaves the READ, answered or not. -/
theorem fgetFollowsItsRule : Obligations.FgetFollowsItsRule := by
  refine ⟨fun a h l s rest idle => ⟨fun bounds => ?_, fun bounds => ⟨fun v valid => ?_, fun invalid => ?_⟩⟩,
    fun a h l => (Encoding.decode_eq_ok_iff _ _).2 ⟨rfl, rfl⟩,
    fun w code c => decode_error_of_reserved (op := .FGET) (p := (0, 8)) code (by decide) c⟩
  · exact exec_of_bodyOf_answerHost idle (bodyOf_fget_of_invalid bounds _)
  · rw [← fieldOf_eq_div_mod bounds]
    exact exec_fget_of_entry idle bounds valid
  · have body : bodyOf (.fget a h l) s.beginCommand =
        s.beginCommand.await (.fget a h l) (.fill a (.get (descriptorOf h l))) :=
      (bodyOf_fget_of_valid bounds _).trans (fillThen_invalid invalid _ _)
    refine ⟨fun v moves => ?_, fun e moves => exec_of_await_lastAnswer idle body moves rfl,
      fun stall => ⟨_, spec_of_valid bounds, exec_of_await_noAnswer idle body stall⟩⟩
    rw [← fieldOf_eq_div_mod bounds]
    exact exec_of_await_lastAnswer idle body moves rfl

/-! ### FSET (R141) -/

section
variable {a v : Byte} {h l : BitVec 4} {s : State}

theorem bodyOf_fset_of_invalid (bounds : ¬ (l.toNat ≤ h.toNat ∧ h.toNat ≤ 7)) (s : State) :
    bodyOf (.fset a h l v) s = s.answerHost ⟨.invalidFieldSpec, .bounds h l⟩ := by
  rw [bodyOf, fsetBody, spec_of_invalid bounds]
  rfl

theorem bodyOf_fset_of_valid (bounds : l.toNat ≤ h.toNat ∧ h.toNat ≤ 7) (s : State) :
    bodyOf (.fset a h l v) s = fillThen (.fset a h l v) a (.put (maskOf h l) (v <<< l.toNat) .nothing) s := by
  rw [Equivalences.bodyOf_fset bounds, Equivalences.placeBits_descriptorOf bounds]

/-- FSET of a valid entry has merged the value into it, and goes on from the WRITE of the merged byte. -/
theorem exec_fset_of_entry {old : Byte} (idle : s.seq = .idle) (bounds : l.toNat ≤ h.toNat ∧ h.toNat ≤ 7)
    (valid : s.startEntry a = some old) : exec (.fset a h l v) s = .next (drive s.inputs
      (s.waits (s.startCache.write a.toNat (fsetByte h l v old)) s.inputs [] (.fset a h l v)
        (.commit a (fsetByte h l v old) .nothing))) := by
  rw [exec_idle idle, bodyOf_fset_of_valid bounds, fillThen_valid valid, useValue_put, merge_eq_fsetByte,
    beginCommand_eq]
  rfl

/-- FSET of an invalid entry waits for the READ of it. -/
theorem bodyOf_fset_of_noEntry (bounds : l.toNat ≤ h.toNat ∧ h.toNat ≤ 7) (invalid : s.startEntry a = none) :
    bodyOf (.fset a h l v) s.beginCommand = s.beginCommand.await (.fset a h l v)
      (.fill a (.put (maskOf h l) (v <<< l.toNat) .nothing)) :=
  (bodyOf_fset_of_valid bounds _).trans (fillThen_invalid invalid _ _)

/-- FSET of an invalid entry whose READ is answered OK goes on as from a valid one of the byte read. -/
theorem exec_fset_of_noEntry {d : Byte} {rest : List Input} (idle : s.seq = .idle)
    (bounds : l.toNat ≤ h.toNat ∧ h.toNat ≤ 7) (invalid : s.startEntry a = none)
    (moves : s.inputs = .answer (.ok d) :: rest) : exec (.fset a h l v) s = .next (drive rest
      (s.waits ((s.startCache.write a.toNat d).write a.toNat (fsetByte h l v d)) s.inputs
        [.transaction (.read s.dev a) (.ok d)] (.fset a h l v) (.commit a (fsetByte h l v d) .nothing))) := by
  rw [exec_of_await_answer idle (bodyOf_fset_of_noEntry bounds invalid) moves, ← merge_eq_fsetByte]
  rfl

end

section
variable (i : Instr) (a b : Byte) (s : State) (c : Memory) (ins rest : List Input) (es : List Event)

/-- The WRITE of a byte that is in the cache already, answered OK: the command has ended (R141). -/
theorem drive_waits_commit_ok (x : Byte) :
    drive (.answer (.ok x) :: rest) (s.waits c ins es i (.commit a b .nothing)) =
      s.ended c rest (.response ⟨.ok, .none⟩ :: .transaction (.write s.dev a b) (.ok x) :: es) := by
  rw [drive_answer rfl, drive_idle rfl]
  rfl

/-- The same WRITE answered ERR: the cache stays as it was when the request was made (R124). -/
theorem drive_waits_commit_err (e : Nat) :
    drive (.answer (.err e) :: rest) (s.waits c ins es i (.commit a b .nothing)) =
      s.ended c rest
        (.response ⟨.transportError, .datum e⟩ :: .transaction (.write s.dev a b) (.err e) :: es) := by
  rw [drive_answer rfl, drive_idle rfl]
  rfl

end

/-- Settles O20: bad bounds are answered at once; a valid entry leaves the WRITE of the merged byte, answered or not; an
invalid one the READ, and after its OK that WRITE. -/
theorem fsetFollowsItsRule : Obligations.FsetFollowsItsRule := by
  refine ⟨fun a h l v s rest idle => ⟨fun bounds => ?_, fun bounds => ⟨fun old valid => ?_, fun invalid => ?_⟩⟩,
    fun a v h l => (Encoding.decode_eq_ok_iff _ _).2 ⟨rfl, by simp [encode, place]⟩⟩
  · exact exec_of_bodyOf_answerHost idle (bodyOf_fset_of_invalid bounds _)
  · rw [exec_fset_of_entry idle bounds valid]
    refine ⟨fun x moves => ?_, fun e moves => ?_, fun stall => ?_⟩
    · rw [moves, drive_waits_commit_ok]
    · rw [moves, drive_waits_commit_err]
    · rw [drive_noAnswer stall]
      rfl
  · have body := bodyOf_fset_of_noEntry (v := v) bounds invalid
    refine ⟨fun d x moves => ?_, fun d e moves => ?_, fun e moves => exec_of_await_lastAnswer idle body moves rfl,
      fun stall => ⟨_, spec_of_valid bounds, exec_of_await_noAnswer idle body stall⟩⟩
    · rw [exec_fset_of_noEntry idle bounds invalid moves, drive_waits_commit_ok]
    · rw [exec_fset_of_noEntry idle bounds invalid moves, drive_waits_commit_err]

/-! ### The round trip (R142) -/

/-- Where the cache persists, FGET of a valid entry adds its response and changes nothing else. -/
theorem exec_fget_of_persist {a v : Byte} {h l : BitVec 4} {t : State} (idle : t.seq = .idle)
    (persist : t.cfg.cachePersist = true) (bounds : l.toNat ≤ h.toNat ∧ h.toNat ≤ 7) (valid : t.entry a = some v) :
    exec (.fget a h l) t = .next { t with
      trace := .response ⟨.ok, .byte (fieldOf v (descriptorOf h l))⟩ :: t.trace } := by
  rw [exec_fget_of_entry idle bounds ((startEntry_of_persist persist a).trans valid), startCache_eq, if_pos persist,
    State.ended, ← idle]
  rfl

/-- Where the cache persists, FSET from a register that holds v, its requests all answered OK, leaves the merged byte in
the cache, as it has written it. -/
theorem exec_fset_of_persist {a v x y : Byte} {h l : BitVec 4} {s : State} {rest : List Input} (idle : s.seq = .idle)
    (persist : s.cfg.cachePersist = true) (bounds : l.toNat ≤ h.toNat ∧ h.toNat ≤ 7)
    (holds : (s.entry a = some v ∧ s.inputs = .answer (.ok y) :: rest) ∨
      (s.entry a = none ∧ s.inputs = .answer (.ok v) :: .answer (.ok y) :: rest)) :
    ∃ (m : Memory) (es : List Event), exec (.fset a h l x) s = .next (s.ended (m.write a.toNat (fsetByte h l x v)) rest
      (.response ⟨.ok, .none⟩ :: .transaction (.write s.dev a (fsetByte h l x v)) (.ok y) :: es)) := by
  rw [← startEntry_of_persist persist] at holds
  obtain ⟨valid, moves⟩ | ⟨invalid, moves⟩ := holds
  · exact ⟨s.startCache, [], by rw [exec_fset_of_entry idle bounds valid, moves, drive_waits_commit_ok]⟩
  · exact ⟨s.startCache.write a.toNat v, [.transaction (.read s.dev a) (.ok v)],
      by rw [exec_fset_of_noEntry idle bounds invalid moves, drive_waits_commit_ok]⟩

/-- Settles O44: FSET leaves the merged byte in the cache, its bits are getLsbD_fsetByte, and the field of it that FGET
answers is fieldOf_fsetByte. -/
theorem fieldRoundTrip : Obligations.FieldRoundTrip := by
  intro a v x y h l s rest idle persist bounds holds
  obtain ⟨m, es, fset⟩ := exec_fset_of_persist (x := x) idle persist bounds holds
  refine ⟨_, fsetByte h l x v, es ++ s.trace, fset, rfl, fun k byte => getLsbD_fsetByte bounds x v byte, ?_⟩
  rw [← fieldOf_fsetByte bounds x v]
  exact exec_fget_of_persist rfl persist bounds (memory_read_write_same m a.toNat _)

end Sys2Proof.Proofs.FieldAccess
end

section
/-! PROOFS, the layer of the multi-byte commands (spec/20_memory.md R48, 43_multibyte.md R160, R163): a command whose
body is one run of READs, by what the answers are, the number that a layout entry's bytes stand for, and what another
cache changes. -/

namespace Sys2Proof.Proofs.ReadRuns

open Sys2Proof Sys2Proof.Machine Sys2Proof.Proofs.Commands

/-! ### A command that is one run of READs (R160, R184 to R187) -/

section
variable {i : Instr} {s : State} {start : Byte} {use : RunUse} {bs : List Byte} {rest : List Input}
  (idle : s.seq = .idle) (body : bodyOf i s.beginCommand = continueRun i start [] use s.beginCommand)
include idle body

/-- A run of at least one byte goes from its first READ on. -/
theorem exec_of_run (more : 0 < use.count) :
    exec i s = .next (drive s.inputs (s.waits s.startCache s.inputs [] i (.run start [] use))) :=
  ByteRegister.exec_of_await idle (body.trans (continueRun_more (got := []) more i start _))

/-- Every READ answered OK: the command responds what its bytes are turned into. A run of no byte makes no request. -/
theorem exec_of_run_all (all : bs.length = use.count) (moves : s.inputs = okAnswers bs ++ rest) :
    exec i s = .next (s.ended s.startCache rest
      (.response ⟨.ok, runPayload s use bs⟩ :: readEvents s.dev start 0 bs)) := by
  cases bs with
  | nil =>
    have empty : use.count ≤ ([] : List Byte).length := all.ge
    have payload : runPayload s.beginCommand use [] = runPayload s use [] :=
      runPayload_congr (by simp) (by simp) (by simp) _ _
    rw [FieldDescriptor.exec_of_bodyOf_answerHost idle (body.trans (continueRun_done empty i start _)), moves]
    simp only [okResponse, payload]
    rfl
  | cons b bs =>
    rw [exec_of_run idle body (all ▸ Nat.succ_pos _), moves,
      drive_run_all i start use (b :: bs) rest [] _ rfl (List.cons_ne_nil b bs) (by simpa using all),
      runPayload_congr (s := s) rfl rfl rfl]
    rfl

section
variable (part : bs.length < use.count)
include part

/-- The READ after the bytes bs answered ERR: the command ends with TransportError. -/
theorem exec_of_run_fails {e : Nat} (moves : s.inputs = okAnswers bs ++ .answer (.err e) :: rest) :
    exec i s = .next (s.ended s.startCache rest (.response ⟨.transportError, .datum e⟩ ::
      .transaction (.read s.dev (start + BitVec.ofNat 8 bs.length)) (.err e) :: readEvents s.dev start 0 bs)) := by
  rw [exec_of_run idle body (Nat.zero_lt_of_lt part), moves,
    drive_run_fails i start use bs e rest [] _ rfl (by simpa using part), List.length_nil, Nat.zero_add]
  rfl

/-- The READ after the bytes bs not answered: the command waits for it. -/
theorem exec_of_run_stalls (moves : s.inputs = okAnswers bs ++ rest) (stall : noAnswerFirst rest = true) :
    exec i s = .next (s.waits s.startCache rest (readEvents s.dev start 0 bs) i (.run start bs use)) := by
  rw [exec_of_run idle body (Nat.zero_lt_of_lt part), moves,
    drive_run_prefix i start use bs rest [] _ rfl (by simpa using part), drive_noAnswer stall]
  simp only [State.waits, State.dev, List.nil_append, List.length_nil]

end

end

/-! ### The little-endian number of a slice of the buffer (R45, R163) -/

theorem littleEndian_lt (bs : List Byte) : littleEndian bs < 2 ^ (8 * bs.length) := by
  induction bs with
  | nil => exact Nat.one_pos
  | cons b bs ih =>
    rw [littleEndian, List.length_cons, Nat.mul_succ, Nat.pow_add]
    have := b.isLt
    omega

theorem littleEndian_take (buf : List Byte) (n : Nat) :
    littleEndian (buf.take n) = ((List.range n).map fun k => (byteAt buf k).toNat * 256 ^ k).sum := by
  induction n generalizing buf with
  | zero => simp [littleEndian]
  | succ n ih =>
    cases buf with
    | nil => simp [littleEndian, byteAt]
    | cons b bs =>
      rw [List.take_succ_cons, littleEndian, ih, List.range_succ_eq_map, List.map_cons, List.sum_cons, List.map_map,
        ← List.sum_map_mul_left]
      simp [byteAt, Function.comp_def, Nat.pow_succ', Nat.mul_left_comm]

theorem byteAt_drop (buf : List Byte) (off k : Nat) : byteAt (buf.drop off) k = byteAt buf (off + k) := by
  simp [byteAt, List.getD_eq_getElem?_getD, List.getElem?_drop]

theorem littleEndian_slice (buf : List Byte) (off n : Nat) : littleEndian ((buf.drop off).take n) =
    ((List.range n).map fun k => (byteAt buf (off + k)).toNat * 256 ^ k).sum := by
  simp only [littleEndian_take, byteAt_drop]

/-! ### Two's complement (R10) -/

theorem signExtend_eq_toInt {n v : Nat} (fits : v < 2 ^ n) : signExtend n v = (BitVec.ofNat n v).toInt := by
  rw [signExtend, BitVec.toInt_eq_msb_cond, BitVec.msb_eq_getLsbD_last, ← BitVec.testBit_toNat, BitVec.toNat_ofNat,
    Nat.mod_eq_of_lt fits, Nat.cast_pow, Nat.cast_two]

theorem signExtend_emod {n v : Nat} (fits : v < 2 ^ n) : signExtend n v % 2 ^ n = v := by
  have small : (v : Int) % 2 ^ n = v := Int.emod_eq_of_lt (Int.natCast_nonneg v) (by exact_mod_cast fits)
  unfold signExtend
  split
  · rw [Int.sub_emod_right, small]
  · exact small

/-! ### The value of an entry (R163) -/

section
variable {e : Entry} {bytes : List Byte} (len : bytes.length ≤ entryBytes e)
include len

theorem littleEndian_lt_of_entry : littleEndian bytes < 2 ^ (8 * entryBytes e) :=
  (littleEndian_lt bytes).trans_le (Nat.pow_le_pow_right Nat.two_pos (Nat.mul_le_mul_left 8 len))

theorem entryValue_emod : entryValue e bytes % 2 ^ (8 * entryBytes e) = littleEndian bytes := by
  have fits := littleEndian_lt_of_entry len
  unfold entryValue
  split
  · exact signExtend_emod fits
  · exact Int.emod_eq_of_lt (Int.natCast_nonneg _) (by exact_mod_cast fits)

theorem entryRange_entryValue : entryRange e (entryValue e bytes) := by
  have fits := littleEndian_lt_of_entry len
  unfold entryRange entryValue
  split
  · rw [signExtend_eq_toInt fits]
    exact ⟨BitVec.le_toInt _, BitVec.toInt_lt⟩
  · exact ⟨Int.natCast_nonneg _, by exact_mod_cast fits⟩

end

/-! ### The layout over the buffer (R163) -/

theorem length_decodeLayout (layout : List Entry) (buf : List Byte) :
    (decodeLayout layout buf).length = layout.length := by
  induction layout generalizing buf with
  | nil => rfl
  | cons e es ih => rw [decodeLayout, List.length_cons, ih, List.length_cons]

theorem layoutBytes_cons (e : Entry) (es : List Entry) : layoutBytes (e :: es) = entryBytes e + layoutBytes es := by
  simp [layoutBytes]

/-- An entry's bytes begin where those of the entries before it end. -/
theorem decodeLayout_append (before after : List Entry) (buf : List Byte) :
    decodeLayout (before ++ after) buf =
      decodeLayout before buf ++ decodeLayout after (buf.drop (layoutBytes before)) := by
  induction before generalizing buf with
  | nil => rfl
  | cons e es ih =>
    rw [List.cons_append, decodeLayout, ih, List.drop_drop, layoutBytes_cons, decodeLayout, List.cons_append]

theorem getElem?_decodeLayout (before after : List Entry) (e : Entry) (buf : List Byte) :
    (decodeLayout (before ++ e :: after) buf)[before.length]? =
      some (entryValue e ((buf.drop (layoutBytes before)).take (entryBytes e))) := by
  rw [decodeLayout_append, List.getElem?_append_right (length_decodeLayout before buf).le, length_decodeLayout,
    Nat.sub_self, decodeLayout, List.getElem?_cons_zero]

/-! ### The cache does not matter (R160, D11) -/

theorem continueRun_with_cache (i : Instr) (start : Byte) (got : List Byte) (use : RunUse) (s : State) (m : Memory) :
    continueRun i start got use { s with cache := m } = { continueRun i start got use s with cache := m } := by
  obtain more | done := Nat.lt_or_ge got.length use.count
  · rw [continueRun_more more, continueRun_more more]
    rfl
  · rw [continueRun_done done, continueRun_done done, runPayload_congr (s := s) rfl rfl rfl]
    rfl

/-- A request that is about no entry is acted on alike whatever the cache. -/
theorem deliver_with_cache {w : Waiting} (entryless : targetOf w = none) (i : Instr) (a : Answer) (s : State)
    (m : Memory) : deliver i w a { s with cache := m } = { deliver i w a s with cache := m } := by
  cases w with
  | run start got use =>
    cases a with
    | ok d => exact continueRun_with_cache i start (got ++ [d]) use (s.log _) m
    | err e => rfl
  | _ => cases entryless

theorem drive_with_cache {i : Instr} {s : State} (entryless : entryOf s.cfg i = none) (runs : Runs i s)
    (ins : List Input) (m : Memory) : drive ins { s with cache := m } = { drive ins s with cache := m } := by
  induction ins generalizing s with
  | nil => rfl
  | cons x xs ih =>
    cases x with
    | answer a =>
      obtain stopped | ⟨w, busy, point, fits⟩ := runs
      · rw [drive_idle stopped, drive_idle (by exact stopped)]
      · rw [drive_answer busy, drive_answer (s := { s with cache := m }) busy,
          deliver_with_cache ((targetOf_of_waitsAt point).trans entryless)]
        exact ih (by rw [deliver_cfg, entryless]) (deliver_runs a point fits)
    | _ => rfl

theorem bodyOf_with_cache {i : Instr} (multi : isMultiByte i = true) (s : State) (m : Memory) :
    bodyOf i { s with cache := m } = { bodyOf i s with cache := m } := by
  cases i with
  | mrd a n layout =>
    simp only [bodyOf, mrdBody]
    split
    · rfl
    · split
      · rfl
      · exact continueRun_with_cache _ _ _ _ s m
  | racc mps2 => exact continueRun_with_cache _ s.cfg.wiring.accData [] (.accel mps2) s m
  | rgyr => exact continueRun_with_cache _ s.cfg.wiring.gyrData [] .gyro s m
  | mraw => exact continueRun_with_cache _ s.cfg.wiring.magData [] .magRaw s m
  | mxyz => exact continueRun_with_cache _ s.cfg.wiring.magData [] .magNorm s m
  | _ => cases multi

theorem entryOf_of_isMultiByte {i : Instr} (multi : isMultiByte i = true) (cfg : Config) : entryOf cfg i = none := by
  cases i with
  | mrd | racc | rgyr | mraw | mxyz => rfl
  | _ => cases multi

/-- R29's clearing, from another cache. -/
theorem beginCommand_with_cache (s : State) (c : Memory) : State.beginCommand { s with cache := c } =
    { s.beginCommand with cache := State.startCache { s with cache := c } } := by
  rw [beginCommand_eq s]
  exact beginCommand_eq _

end Sys2Proof.Proofs.ReadRuns
end

section
/-! PROOFS of the statements of spec/43_multibyte.md: MRD's checks and its run of READs, the numbers its layout decodes to,
and that the multi-byte commands ignore the cache. -/

namespace Sys2Proof.Proofs.MultiByte

open Sys2Proof Sys2Proof.Machine Sys2Proof.Proofs.ReadRuns

/-! ### MRD (R160 to R162) -/

section
variable {a : Byte} {n : BitVec 4} {layout : List Entry}

theorem bodyOf_mrd_of_range (range : a.toNat + n.toNat > 256) (s : State) :
    bodyOf (.mrd a n layout) s = s.answerHost ⟨.addressRange, .range a n⟩ := by
  rw [bodyOf, mrdBody, if_pos (by omega)]
  rfl

theorem bodyOf_mrd_of_mismatch (range : a.toNat + n.toNat ≤ 256) (width : layoutBytes layout ≠ n.toNat) (s : State) :
    bodyOf (.mrd a n layout) s = s.answerHost ⟨.layoutMismatch, .lengths n (layoutBytes layout)⟩ := by
  rw [bodyOf, mrdBody, if_neg (by omega), if_pos width]
  rfl

theorem bodyOf_mrd_of_fits (range : a.toNat + n.toNat ≤ 256) (width : layoutBytes layout = n.toNat) (s : State) :
    bodyOf (.mrd a n layout) s = continueRun (.mrd a n layout) a [] (.ints layout) s := by
  rw [bodyOf, mrdBody, if_neg (by omega), if_neg (not_not.2 width)]

end

/-- Settles O21: each check that fails is answered at once, else MRD is a run of READs; its word is encode's, and what
R68 forbids does not decode. -/
theorem mrdFollowsItsRule : Obligations.MrdFollowsItsRule := by
  refine ⟨fun a n layout s rest idle => ⟨fun range => ?_, fun range width => ?_, fun range width bs => ?_⟩,
    fun a n layout length one four => ?_, fun w _ broken => (Encoding.decode_error_iff w).2 (.inr (.inr broken))⟩
  · exact FieldDescriptor.exec_of_bodyOf_answerHost idle (bodyOf_mrd_of_range range _)
  · exact FieldDescriptor.exec_of_bodyOf_answerHost idle (bodyOf_mrd_of_mismatch range width _)
  · have body := bodyOf_mrd_of_fits range width s.beginCommand
    have count : (RunUse.ints layout).count = n.toNat := width
    rw [← count]
    exact ⟨exec_of_run_all idle body, fun e part => exec_of_run_fails idle body part, exec_of_run_stalls idle body⟩
  · have wf : (Instr.mrd a n layout).wf = true :=
      (Encoding.wf_mrd a n layout).2 ⟨length, by simp [layoutOk, one, four]⟩
    exact (Encoding.decode_eq_ok_iff _ _).2 ⟨wf, rfl⟩

/-! ### The layout (R163, R164) -/

/-- Settles O22: the entry's value is that of its own slice of the buffer, of which entryValue_emod and
entryRange_entryValue give the residue and the range. -/
theorem layoutDecodesLittleEndian : Obligations.LayoutDecodesLittleEndian := by
  refine ⟨length_decodeLayout, fun before after e buf _ => ⟨_, getElem?_decodeLayout before after e buf, ?_⟩⟩
  have len : ((buf.drop (layoutBytes before)).take (entryBytes e)).length ≤ entryBytes e := List.length_take_le _ _
  have range := entryRange_entryValue len
  unfold entryRange at range
  refine ⟨?_, fun unsigned => ?_, fun signed => ?_⟩
  · rw [entryValue_emod len, littleEndian_slice]
  · rwa [unsigned, if_neg Bool.false_ne_true] at range
  · rwa [signed, if_pos rfl] at range

/-- Value j of LAYOUT_3S16 is that of a signed entry of two bytes at 2j. -/
theorem entryValue_s16_slice (buf : List Byte) (j : Nat) :
    entryValue .s16 ((buf.drop (2 * j)).take 2) = s16At buf j := by
  have number : littleEndian ((buf.drop (2 * j)).take 2) =
      (byteAt buf (2 * j)).toNat + (byteAt buf (2 * j + 1)).toNat <<< 8 := by
    rw [littleEndian_slice, Nat.shiftLeft_eq]
    simp [List.range_succ]
  rw [s16At, ← number]
  rfl

theorem s16At_eq_toInt (buf : List Byte) (j : Nat) :
    s16At buf j = (byteAt buf (2 * j + 1) ++ byteAt buf (2 * j)).toInt := by
  have low := (byteAt buf (2 * j)).isLt
  have number : (byteAt buf (2 * j)).toNat + (byteAt buf (2 * j + 1)).toNat <<< 8 =
      (byteAt buf (2 * j + 1) ++ byteAt buf (2 * j)).toNat := by
    rw [BitVec.toNat_append, ← Nat.shiftLeft_add_eq_or_of_lt low, Nat.add_comm]
  rw [s16At, number, signExtend_eq_toInt (BitVec.isLt _), BitVec.ofNat_toNat, BitVec.setWidth_eq]

/-- Settles O23: the decoder's values by entryValue_s16_slice, as two's complement by s16At_eq_toInt. -/
theorem threeSigned16Layout : Obligations.ThreeSigned16Layout := by
  refine fun buf _ => ⟨?_, fun j _ => s16At_eq_toInt buf j⟩
  simp only [← entryValue_s16_slice, decodeLayout, entryBytes, List.drop_drop]
  rfl

/-! ### The cache (R160, R262) -/

/-- Settles O40: the start of such a command, its body and each of its answers do alike on another cache. -/
theorem multiByteCommandsIgnoreTheCache : Obligations.MultiByteCommandsIgnoreTheCache := by
  intro i s t c multi run
  obtain ⟨idle, rfl⟩ := exec_next run
  rw [exec_idle (by exact idle), beginCommand_with_cache, bodyOf_with_cache multi,
    drive_with_cache (entryOf_of_isMultiByte multi _) (Commands.bodyOf_runs i s.beginCommand)]

end Sys2Proof.Proofs.MultiByte
end

section
/-! PROOFS, the layer of the readouts' arithmetic (spec/44_scale_conversion.md R188): a rounded result depends on the
exact one alone and scales with it by powers of two, and which results are plain numbers. -/

namespace Sys2Proof.Proofs.ReadoutArithmetic

open Sys2Proof Sys2Proof.Machine Sys2Proof.Proofs.Float64

/-! ### Signs and zeros -/

theorem signOf_injective : Function.Injective signOf := by
  intro a b h
  cases a <;> cases b <;> norm_num [signOf] at h <;> rfl

/-- A number that is not zero has one sign and one magnitude. -/
theorem signOf_mul_inj {a b : Bool} {p q : ℚ} (hp : 0 < p) (hq : 0 < q) (h : signOf a * p = signOf b * q) :
    a = b ∧ p = q := by
  have magnitude : p = q := by
    simpa [abs_mul, abs_signOf, abs_of_pos hp, abs_of_pos hq] using congrArg abs h
  exact ⟨signOf_injective (mul_right_cancel₀ hp.ne' (magnitude ▸ h)), magnitude⟩

theorem f64Value_eq_zero_iff (x : F64) : f64Value x = 0 ↔ f64Num x = 0 := by
  have sign : signOf (f64Neg x) ≠ 0 := by
    unfold signOf
    split <;> norm_num
  rw [f64Value_eq, mul_eq_zero_iff_left sign, div_eq_zero_iff, Nat.cast_eq_zero, Nat.cast_eq_zero,
    or_iff_left (f64Den_pos x).ne']

theorem f64IsZero_of_value_ne_zero {x : F64} (h : f64Value x ≠ 0) : f64IsZero x = false := by
  by_contra zero
  simp only [Bool.not_eq_false, f64IsZero, Bool.and_eq_true, beq_iff_eq] at zero
  exact h ((f64Value_eq_zero_iff x).2 (by rw [f64Num, f64Mant, if_pos zero.1, zero.2, Nat.zero_mul]))

theorem f64Neg_rne64 (neg : Bool) (num den : Nat) : f64Neg (rne64 neg num den) = neg := by
  obtain rfl | hn := Nat.eq_zero_or_pos num
  · rw [rne64_zero, f64Neg_pack neg (by norm_num)]
  · rw [rne64_of_pos neg den hn, f64Neg_pack neg (by omega)]

/-! ### The range of the normal numbers -/

/-- The magnitude is that of a normal number, with a binade to spare at each end for rounding. -/
def InNormalRange (x : ℚ) : Prop := 2 ^ (-1021 : ℤ) ≤ |x| ∧ |x| < 2 ^ (1022 : ℤ)

theorem inNormalRange_signed (neg : Bool) (x : ℚ) : InNormalRange (signOf neg * x) ↔ InNormalRange x := by
  rw [InNormalRange, abs_mul, abs_signOf, one_mul, InNormalRange]

section
variable {num den : Nat} (hd : 0 < den) (range : InNormalRange (num / den : ℚ))
include range

theorem num_pos_of_range : 0 < num := by
  refine Nat.pos_of_ne_zero fun zero => ?_
  have low := range.1
  rw [zero, Nat.cast_zero, zero_div, abs_zero] at low
  exact absurd low (not_le.2 (by positivity))

include hd

theorem roundExp_of_range : -1022 < roundExp num den ∧ roundExp num den < 1022 := by
  have hn := num_pos_of_range range
  obtain ⟨low, high⟩ := range
  rw [abs_of_nonneg (by positivity)] at low high
  have above := two_zpow_lt_iff.1 (low.trans_lt (lt_two_zpow_roundExp hn hd))
  exact ⟨by omega, roundExp_lt hn hd (by norm_num) high⟩

theorem roundMag_of_range : 2 ^ 52 ≤ roundMag num den ∧ roundMag num den < 2047 * 2 ^ 52 := by
  have exponent := roundExp_of_range hd range
  have significand := roundSig_le (num_pos_of_range range) hd
  unfold roundMag
  omega

end

/-! ### Rounding scales with powers of two (R188) -/

/-- There is only one nearest integer, ties to even. -/
theorem nearest_even_unique {s k : ℕ} {t : ℚ} (hs : |(s : ℚ) - t| ≤ 1 / 2 ∧ (|(s : ℚ) - t| = 1 / 2 → s % 2 = 0))
    (hk : |(k : ℚ) - t| ≤ 1 / 2 ∧ (|(k : ℚ) - t| = 1 / 2 → k % 2 = 0)) : s = k := by
  obtain ⟨s_close, s_even⟩ := hs
  obtain ⟨k_close, k_even⟩ := hk
  by_contra ne
  have apart : (1 : ℚ) ≤ |(s : ℚ) - k| := by
    exact_mod_cast Int.one_le_abs (sub_ne_zero.2 (Nat.cast_injective.ne ne))
  have triangle : |(s : ℚ) - k| ≤ |(s : ℚ) - t| + |(k : ℚ) - t| := by
    rw [abs_sub_comm (k : ℚ) t]
    exact abs_sub_le _ _ _
  have s_mod := s_even (by linarith)
  have k_mod := k_even (by linarith)
  have next : |(s : ℤ) - k| = 1 := by exact_mod_cast (show |(s : ℚ) - k| = 1 by linarith)
  obtain up | down := (abs_eq zero_le_one).1 next
  · omega
  · omega

theorem roundSig_congr {num den num' den' : Nat} (hd : 0 < den) (hd' : 0 < den')
    (same : exactSig num' den' = exactSig num den) : roundSig num' den' = roundSig num den :=
  nearest_even_unique (same ▸ roundSig_spec num' hd') (roundSig_spec num hd)

section
variable {num den num' den' : Nat} {j : ℤ} (hd : 0 < den) (hd' : 0 < den')
  (range : InNormalRange (num / den : ℚ)) (range' : InNormalRange (num' / den' : ℚ))
  (scaled : (num' / den' : ℚ) = num / den * 2 ^ j)
include hd hd' range range' scaled

theorem roundExp_scaled : roundExp num' den' = roundExp num den + j := by
  have hn := num_pos_of_range range
  have hn' := num_pos_of_range range'
  have low := two_zpow_roundExp_le hn hd (roundExp_of_range hd range).1
  have high := lt_two_zpow_roundExp hn hd
  have low' := two_zpow_roundExp_le hn' hd' (roundExp_of_range hd' range').1
  have high' := lt_two_zpow_roundExp hn' hd'
  have low_scaled : (2 : ℚ) ^ (roundExp num den + j) ≤ num' / den' := by
    rw [scaled, ← two_zpow_mul]
    gcongr
  have high_scaled : (num' / den' : ℚ) < 2 ^ (roundExp num den + 1 + j) := by
    rw [scaled, ← two_zpow_mul]
    gcongr
  have above := two_zpow_lt_iff.1 (low'.trans_lt high_scaled)
  have below := two_zpow_lt_iff.1 (low_scaled.trans_lt high')
  omega

/-- The significand stays and the exponent moves. -/
theorem f64Value_rne64_scaled (neg : Bool) :
    f64Value (rne64 neg num' den') = f64Value (rne64 neg num den) * 2 ^ j := by
  have unit : (2 : ℚ) ^ (roundExp num' den' - 52) = 2 ^ (roundExp num den - 52) * 2 ^ j := by
    rw [two_zpow_mul, roundExp_scaled hd hd' range range' scaled, add_sub_right_comm]
  have same : exactSig num' den' = exactSig num den := by
    rw [exactSig, exactSig, unit, scaled, mul_div_mul_right _ _ (by positivity)]
  rw [f64Value_rne64 neg (num_pos_of_range range) hd (roundMag_of_range hd range).2,
    f64Value_rne64 neg (num_pos_of_range range') hd' (roundMag_of_range hd' range').2, roundSig_congr hd hd' same, unit,
    ← mul_assoc, ← mul_assoc, mul_assoc (signOf neg)]

end

/-- Where one factor is scaled by a power of two, so is the rounded product. -/
theorem f64Value_f64Mul_scaled {a b c : F64} {j : ℤ} (ha : f64IsFinite a = true) (hb : f64IsFinite b = true)
    (hc : f64IsFinite c = true) (scaled : f64Value b = f64Value a * 2 ^ j)
    (range : f64Value a ≠ 0 → InNormalRange (f64Value a * f64Value c) ∧ InNormalRange (f64Value b * f64Value c)) :
    f64Value (f64Mul b c) = f64Value (f64Mul a c) * 2 ^ j := by
  rw [f64Mul_of_finite ha hc, f64Mul_of_finite hb hc]
  by_cases zero : f64Value a = 0
  · have zero' : f64Value b = 0 := by rw [scaled, zero, zero_mul]
    rw [(f64Value_eq_zero_iff a).1 zero, (f64Value_eq_zero_iff b).1 zero', Nat.zero_mul, rne64_zero, rne64_zero,
      f64Value_pack_zero, f64Value_pack_zero, zero_mul]
  · obtain ⟨range_a, range_b⟩ := range zero
    have product : f64Value b * f64Value c = f64Value a * f64Value c * 2 ^ j := by rw [scaled, mul_right_comm]
    rw [← signed_product, inNormalRange_signed] at range_a range_b
    rw [← signed_product, ← signed_product, mul_assoc] at product
    have pos_a := num_pos_of_range range_a
    have pos_b := num_pos_of_range range_b
    have den_a := Nat.mul_pos (f64Den_pos a) (f64Den_pos c)
    have den_b := Nat.mul_pos (f64Den_pos b) (f64Den_pos c)
    obtain ⟨sign, magnitude⟩ := signOf_mul_inj (div_pos (Nat.cast_pos.2 pos_b) (Nat.cast_pos.2 den_b))
      (mul_pos (div_pos (Nat.cast_pos.2 pos_a) (Nat.cast_pos.2 den_a)) (by positivity)) product
    rw [sign]
    exact f64Value_rne64_scaled den_a den_b range_a range_b magnitude _

/-! ### Plain numbers (R188) -/

/-- A result is plain if it is not a zero of negative sign and is zero or in the range of the normal numbers. -/
theorem plainNumber_rne64 {neg : Bool} {num den : Nat} (hd : 0 < den) (zero : num = 0 → neg = false)
    (range : 0 < num → InNormalRange (num / den : ℚ)) : plainNumber (rne64 neg num den) := by
  obtain rfl | hn := Nat.eq_zero_or_pos num
  · rw [zero rfl, rne64_zero]
    exact ⟨by decide, by decide, fun _ => rfl⟩
  · obtain ⟨low, high⟩ := roundMag_of_range hd (range hn)
    have exponent : f64Exp (rne64 neg num den) ≠ 0 := by
      rw [rne64_of_finite neg hn high, f64Exp_pack neg (by omega)]
      omega
    refine ⟨(f64IsFinite_rne64 neg den hn).2 high, fun minus => exponent ?_, fun subnormal => absurd subnormal exponent⟩
    rw [minus]
    decide

theorem neg_of_plainNumber_zero {x : F64} (plain : plainNumber x) (zero : f64Num x = 0) : f64Neg x = false := by
  obtain ⟨-, -, positive⟩ := plain
  have isZero : f64IsZero x = true := by
    by_contra nonzero
    exact (f64Num_pos (by simpa using nonzero)).ne' zero
  simp only [f64IsZero, Bool.and_eq_true, beq_iff_eq] at isZero
  rw [positive isZero.1]
  decide

section
variable {a b : F64} (plain : plainNumber a) (finite : f64IsFinite b = true) (positive : f64Neg b = false)
include plain finite positive

theorem plainNumber_f64Mul (nonzero : f64Num b ≠ 0)
    (range : f64Value a ≠ 0 → InNormalRange (f64Value a * f64Value b)) : plainNumber (f64Mul a b) := by
  rw [f64Mul_of_finite plain.1 finite]
  refine plainNumber_rne64 (Nat.mul_pos (f64Den_pos a) (f64Den_pos b)) (fun zero => ?_) fun num => ?_
  · rw [neg_of_plainNumber_zero plain ((Nat.mul_eq_zero.1 zero).resolve_right nonzero), positive, bne_self_eq_false]
  · rw [← inNormalRange_signed, signed_product]
    exact range fun zero => num.ne' (by rw [(f64Value_eq_zero_iff a).1 zero, Nat.zero_mul])

theorem plainNumber_f64Div (nonzero : f64IsZero b = false)
    (range : f64Value a ≠ 0 → InNormalRange (f64Value a / f64Value b)) : plainNumber (f64Div a b) := by
  rw [f64Div_of_finite plain.1 finite nonzero]
  refine plainNumber_rne64 (Nat.mul_pos (f64Den_pos a) (f64Num_pos nonzero)) (fun zero => ?_) fun num => ?_
  · rw [neg_of_plainNumber_zero plain ((Nat.mul_eq_zero.1 zero).resolve_right (f64Den_pos b).ne'), positive,
      bne_self_eq_false]
  · rw [← inNormalRange_signed, signed_quotient]
    exact range fun zero => num.ne' (by rw [(f64Value_eq_zero_iff a).1 zero, Nat.zero_mul])

end

end Sys2Proof.Proofs.ReadoutArithmetic
end

section
/-! PROOFS of the statements of spec/44_scale_conversion.md about numbers: the constants, the exact quotients of counts
by powers of two, and the readouts made of them. -/

namespace Sys2Proof.Proofs.ReadoutNumbers

open Sys2Proof Sys2Proof.Machine Sys2Proof.Proofs.Float64 Sys2Proof.Proofs.ReadoutArithmetic

/-! ### The constants (R189) -/

theorem f64Value_gStd : f64Value gStd = 98066499999999994230392985627986490726470947265625 / 10 ^ 49 := by
  have sign : f64Neg gStd = false := by decide
  have num : f64Num gStd = 0x139D013A92A305 := by decide
  have den : f64Den gStd = 2 ^ 49 := by decide
  rw [f64Value, sign, num, den]
  norm_num

theorem f64Value_kGyr : f64Value kGyr = 174532899999999997764366099772814777679741382598876953125 / 10 ^ 58 := by
  have sign : f64Neg kGyr = false := by decide
  have num : f64Num kGyr = 0x11DF467707C94D := by decide
  have den : f64Den kGyr = 2 ^ 58 := by decide
  rw [f64Value, sign, num, den]
  norm_num

/-- Settles O51: the roundings evaluated, the values by their fields. -/
theorem constantsAreNearest : Obligations.ConstantsAreNearest :=
  ⟨by decide, by decide, rfl, rfl, f64Value_gStd, f64Value_kGyr⟩

/-! ### The range of a readout (R188) -/

/-- A count, not zero, over a power of two, times a factor of moderate size: far from overflow and underflow. -/
theorem inNormalRange_scaled_count {r : ℤ} {k : ℕ} {c : ℚ} (nonzero : r ≠ 0) (count : r.natAbs < 2 ^ 18) (hk : k ≤ 17)
    (low : 1 / 64 ≤ c) (high : c ≤ 16) : InNormalRange (r / 2 ^ k * c) := by
  have r_low : (1 : ℚ) ≤ |(r : ℚ)| := by exact_mod_cast Int.one_le_abs nonzero
  have r_high : |(r : ℚ)| ≤ 2 ^ 18 := by
    rw [← Int.cast_abs, Int.abs_eq_natAbs]
    exact_mod_cast count.le
  have k_low : (1 : ℚ) ≤ 2 ^ k := one_le_pow₀ one_le_two
  have k_high : (2 : ℚ) ^ k ≤ 2 ^ 17 := pow_le_pow_right₀ one_le_two hk
  rw [InNormalRange, abs_mul, abs_div, abs_of_pos (show (0 : ℚ) < 2 ^ k by positivity),
    abs_of_pos (show (0 : ℚ) < c by linarith)]
  constructor
  · calc (2 : ℚ) ^ (-1021 : ℤ) ≤ 2 ^ (-23 : ℤ) := zpow_le_zpow_right₀ one_le_two (by norm_num)
      _ = 1 / 2 ^ 17 * (1 / 64) := by norm_num
      _ ≤ |(r : ℚ)| / 2 ^ k * c := by gcongr
  · calc |(r : ℚ)| / 2 ^ k * c ≤ 2 ^ 18 / 1 * 16 := by gcongr
      _ = 2 ^ (22 : ℤ) := by norm_num
      _ < 2 ^ (1022 : ℤ) := two_zpow_lt_iff.2 (by norm_num)

/-! ### Counts and their quotients by powers of two (R184, R185, R187, R188) -/

section
variable {r : ℤ} (count : r.natAbs < 2 ^ 18)
include count

theorem f64OfInt_count : f64IsFinite (f64OfInt r) = true ∧ f64Value (f64OfInt r) = r :=
  integersConvertExactly r (by omega)

theorem plainNumber_f64OfInt : plainNumber (f64OfInt r) := by
  refine plainNumber_rne64 one_pos (fun zero => ?_) fun nonzero => ?_
  · rw [Int.natAbs_eq_zero.1 zero]
    rfl
  · have range := inNormalRange_scaled_count (k := 0) (c := 1) (Int.natAbs_pos.1 nonzero) count (by norm_num)
      (by norm_num) (by norm_num)
    rw [pow_zero, div_one, mul_one] at range
    rwa [← inNormalRange_signed (decide (r < 0)), Nat.cast_one, div_one, signOf_mul_natAbs]

end

theorem f64OfInt_two_pow {k : ℕ} (hk : k ≤ 17) : f64IsFinite (f64OfInt (2 ^ k)) = true ∧
    f64Value (f64OfInt (2 ^ k)) = 2 ^ k ∧ f64IsZero (f64OfInt (2 ^ k)) = false ∧ f64Neg (f64OfInt (2 ^ k)) = false := by
  have bound : ((2 : ℤ) ^ k).natAbs < 2 ^ 18 := by
    rw [Int.natAbs_pow]
    exact Nat.pow_lt_pow_right (by decide) (by omega)
  obtain ⟨finite, value⟩ := f64OfInt_count bound
  rw [Int.cast_pow, Int.cast_ofNat] at value
  refine ⟨finite, value, f64IsZero_of_value_ne_zero (by rw [value]; positivity), ?_⟩
  rw [f64OfInt, f64Neg_rne64, decide_eq_false_iff_not, not_lt]
  positivity

section
variable {r : ℤ} {k : ℕ} (count : r.natAbs < 2 ^ 18) (hk : k ≤ 17)
include count hk

theorem f64Div_count : f64IsFinite (f64Div (f64OfInt r) (f64OfInt (2 ^ k))) = true ∧
    f64Value (f64Div (f64OfInt r) (f64OfInt (2 ^ k))) = r / 2 ^ k := by
  obtain ⟨finite_r, value_r⟩ := f64OfInt_count count
  obtain ⟨finite, value, nonzero, -⟩ := f64OfInt_two_pow hk
  have quotient := signed_quotient (f64OfInt r) (f64OfInt (2 ^ k))
  rw [value_r, value] at quotient
  rw [f64Div_of_finite finite_r finite nonzero, ← quotient]
  refine rne64_exact (m := r.natAbs) (j := -k) _ (Nat.mul_pos (f64Den_pos _) (f64Num_pos nonzero)) (by omega) (by omega)
    (by omega) ?_
  have magnitude := congrArg abs quotient
  rw [abs_mul, abs_signOf, one_mul, abs_of_nonneg (div_nonneg (Nat.cast_nonneg _) (Nat.cast_nonneg _))] at magnitude
  rw [magnitude, abs_div, abs_of_pos (show (0 : ℚ) < 2 ^ k by positivity), zpow_neg, zpow_natCast, Nat.cast_natAbs,
    Int.cast_abs, div_eq_mul_inv]

theorem plainNumber_f64Div_count : plainNumber (f64Div (f64OfInt r) (f64OfInt (2 ^ k))) := by
  obtain ⟨-, value_r⟩ := f64OfInt_count count
  obtain ⟨finite, value, nonzero, positive⟩ := f64OfInt_two_pow hk
  refine plainNumber_f64Div (plainNumber_f64OfInt count) finite positive nonzero fun num => ?_
  rw [value_r] at num
  rw [value_r, value, ← mul_one (_ / _)]
  exact inNormalRange_scaled_count (Int.cast_ne_zero.1 num) count hk (by norm_num) (by norm_num)

end

/-- Settles O55. -/
theorem divisionsAreExact : Obligations.DivisionsAreExact := fun _ _ count hk => f64Div_count count hk

/-! ### The multiplication (R184, R185, R188) -/

/-- What the readouts need of a unit's factor: a positive number of moderate size. -/
structure UnitFactor (c : F64) : Prop where
  finite : f64IsFinite c = true
  positive : f64Neg c = false
  low : 1 / 64 ≤ f64Value c
  high : f64Value c ≤ 16

theorem unitFactor_gStd : UnitFactor gStd :=
  ⟨by decide, by decide, by norm_num [f64Value_gStd], by norm_num [f64Value_gStd]⟩

theorem unitFactor_kGyr : UnitFactor kGyr :=
  ⟨by decide, by decide, by norm_num [f64Value_kGyr], by norm_num [f64Value_kGyr]⟩

section
variable {r : ℤ} {k : ℕ} {c : F64} (count : r.natAbs < 2 ^ 18) (hk : k ≤ 17) (factor : UnitFactor c)
include count hk factor

theorem inNormalRange_product (nonzero : r ≠ 0) : InNormalRange (r / 2 ^ k * f64Value c) :=
  inNormalRange_scaled_count nonzero count hk factor.low factor.high

theorem f64Mul_quotient_eq_scaled : f64Value (f64Mul (f64Div (f64OfInt r) (f64OfInt (2 ^ k))) c) =
    f64Value (f64Mul (f64OfInt r) c) / 2 ^ k := by
  obtain ⟨finite_r, value_r⟩ := f64OfInt_count count
  obtain ⟨finite_q, value_q⟩ := f64Div_count count hk
  rw [div_eq_mul_inv _ ((2 : ℚ) ^ k), ← zpow_natCast, ← zpow_neg]
  refine f64Value_f64Mul_scaled finite_r finite_q factor.finite ?_ fun num => ?_
  · rw [value_q, value_r, zpow_neg, zpow_natCast, div_eq_mul_inv]
  · rw [value_r] at num
    have nonzero : r ≠ 0 := Int.cast_ne_zero.1 num
    have product := inNormalRange_product (k := 0) count (by norm_num) factor nonzero
    rw [pow_zero, div_one] at product
    rw [value_r, value_q]
    exact ⟨product, inNormalRange_product count hk factor nonzero⟩

theorem plainNumber_f64Mul_quotient : plainNumber (f64Mul (f64Div (f64OfInt r) (f64OfInt (2 ^ k))) c) := by
  obtain ⟨-, value⟩ := f64Div_count count hk
  have nonzero : f64Value c ≠ 0 := by linarith [factor.low]
  refine plainNumber_f64Mul (plainNumber_f64Div_count count hk) factor.finite factor.positive
    (mt (f64Value_eq_zero_iff c).2 nonzero) fun num => ?_
  rw [value] at num ⊢
  exact inNormalRange_product count hk factor fun zero => num (by rw [zero, Int.cast_zero, zero_div])

end

/-- Settles O56: both constants are factors of moderate size. -/
theorem onlyTheMultiplicationRounds : Obligations.OnlyTheMultiplicationRounds := by
  intro r k c count hk constant
  obtain rfl | rfl := constant
  · exact f64Mul_quotient_eq_scaled count hk unitFactor_gStd
  · exact f64Mul_quotient_eq_scaled count hk unitFactor_kGyr

/-! ### The readouts (R184, R185, R187) -/

/-- The legal divisors are powers of two (R24, R181). -/
theorem legal_divisors_eq_map : accDivisors ++ gyrDivisors =
    [0, 14, 13, 12, 11, 0, 11, 10, 9, 8, 7, 6, 5].map fun k => BitVec.ofNat 16 (2 ^ k) := rfl

theorem quotient_of_legal {d : BitVec 16} (legal : d ∈ accDivisors ++ gyrDivisors) :
    ∃ k ≤ 17, ∀ r, quotient r d = f64Div (f64OfInt r) (f64OfInt (2 ^ k)) := by
  rw [legal_divisors_eq_map, List.mem_map] at legal
  obtain ⟨k, listed, rfl⟩ := legal
  have bound : ∀ k ∈ [0, 14, 13, 12, 11, 0, 11, 10, 9, 8, 7, 6, 5], k ≤ 14 := by decide
  have hk := bound k listed
  refine ⟨k, by omega, fun r => ?_⟩
  rw [quotient, BitVec.toNat_ofNat, Nat.mod_eq_of_lt (Nat.pow_lt_pow_right (by decide) (by omega)), Nat.cast_pow,
    Nat.cast_ofNat]

theorem natAbs_s16At_lt (buf : List Byte) (j : Nat) : (s16At buf j).natAbs < 2 ^ 18 := by
  rw [MultiByte.s16At_eq_toInt]
  have low := BitVec.le_toInt (byteAt buf (2 * j + 1) ++ byteAt buf (2 * j))
  have high := BitVec.toInt_lt (x := byteAt buf (2 * j + 1) ++ byteAt buf (2 * j))
  omega

theorem natAbs_magCount_lt (r : BitVec 18) : ((r.toNat : ℤ) - 131072).natAbs < 2 ^ 18 := by
  have := r.isLt
  omega

theorem magNormAxis_eq (r : BitVec 18) :
    magNormAxis r = f64Div (f64OfInt ((r.toNat : ℤ) - 131072)) (f64OfInt (2 ^ 17)) := by
  rw [magNormAxis, magHalf]
  norm_num

/-- Settles O57: a quotient by a legal divisor is plain, and so is its product with either constant. -/
theorem readoutsArePlainNumbers : Obligations.ReadoutsArePlainNumbers := by
  refine ⟨fun d m buf j legal => ?_, fun d buf j legal => ?_, fun r => ?_⟩
  · obtain ⟨k, hk, eq⟩ := quotient_of_legal (List.mem_append_left _ legal)
    have count := natAbs_s16At_lt buf j
    rw [accelAxis, eq]
    split
    · exact plainNumber_f64Mul_quotient count hk unitFactor_gStd
    · exact plainNumber_f64Div_count count hk
  · obtain ⟨k, hk, eq⟩ := quotient_of_legal (List.mem_append_right _ legal)
    rw [gyroAxis, eq]
    exact plainNumber_f64Mul_quotient (natAbs_s16At_lt buf j) hk unitFactor_kGyr
  · rw [magNormAxis_eq]
    exact plainNumber_f64Div_count (natAbs_magCount_lt r) le_rfl

/-- Settles O58: the division by 2^17 is exact. -/
theorem magnetometerAxesAreNormalised : Obligations.MagnetometerAxesAreNormalised := by
  intro r
  have value : f64Value (magNormAxis r) = ((r.toNat : ℚ) - 131072) / 131072 := by
    rw [magNormAxis_eq, (f64Div_count (natAbs_magCount_lt r) le_rfl).2]
    push_cast
    norm_num
  have low : (0 : ℚ) ≤ r.toNat := Nat.cast_nonneg _
  have high : (r.toNat : ℚ) < 2 ^ 18 := by exact_mod_cast r.isLt
  refine ⟨value, ?_, ?_⟩
  · rw [value, le_div_iff₀ (by norm_num)]
    linarith
  · rw [value, div_lt_iff₀ (by norm_num)]
    linarith

end Sys2Proof.Proofs.ReadoutNumbers
end

section
/-! PROOFS of the statements of spec/44_scale_conversion.md about the commands: the scale tables, SACC and SGYR as
FSET's put of a scale code with the update of a divisor after it, and the readouts as runs of READs. -/

namespace Sys2Proof.Proofs.ScaleConversion

open Sys2Proof Sys2Proof.Machine Sys2Proof.Proofs.ByteRegister Sys2Proof.Proofs.Equivalences
  Sys2Proof.Proofs.FieldDescriptor Sys2Proof.Proofs.ReadRuns

/-! ### The scale tables (R180, R181) -/

theorem accScaleOf_eq_none_iff (v : BitVec 16) : accScaleOf v = none ↔ v.toNat ∉ [2, 4, 8, 16] := by
  refine ⟨fun refused listed => ?_, fun other => Option.eq_none_iff_forall_ne_some.2 fun sc scale =>
    other (StateRules.accDivisor_of_accScaleOf scale).1⟩
  obtain ⟨k, listed⟩ := List.mem_iff_getElem?.1 listed
  obtain ⟨sc, scale, -⟩ := accScaleOf_listed listed
  exact Option.some_ne_none sc (scale.symm.trans refused)

theorem gyrScaleOf_eq_none_iff (v : BitVec 16) :
    gyrScaleOf v = none ↔ v.toNat ∉ [16, 32, 64, 128, 256, 512, 1024] := by
  refine ⟨fun refused listed => ?_, fun other => Option.eq_none_iff_forall_ne_some.2 fun sc scale =>
    other (StateRules.gyrDivisor_of_gyrScaleOf scale).1⟩
  obtain ⟨k, listed⟩ := List.mem_iff_getElem?.1 listed
  obtain ⟨sc, scale, -⟩ := gyrScaleOf_listed listed
  exact Option.some_ne_none sc (scale.symm.trans refused)

/-- A place in a list of fewer than 256 scales is kept by a byte. -/
theorem toNat_ofNat_of_listed {scales : List Nat} {k n : Nat} (short : scales.length ≤ 256)
    (listed : scales[k]? = some n) : (BitVec.ofNat 8 k).toNat = k := by
  obtain ⟨place, -⟩ := List.getElem?_eq_some_iff.1 listed
  exact Nat.mod_eq_of_lt (by omega)

theorem accCode_of_accScaleOf {v : BitVec 16} {sc : AccScale} (scale : accScaleOf v = some sc) :
    [2, 4, 8, 16][(accCode sc).toNat]? = some v.toNat := by
  obtain ⟨k, listed⟩ := List.mem_iff_getElem?.1 (StateRules.accDivisor_of_accScaleOf scale).1
  obtain ⟨sc', same, code, -⟩ := accScaleOf_listed listed
  obtain rfl := Option.some.inj (scale.symm.trans same)
  rwa [code, toNat_ofNat_of_listed (by decide) listed]

theorem gyrCode_of_gyrScaleOf {v : BitVec 16} {sc : GyrScale} (scale : gyrScaleOf v = some sc) :
    [16, 32, 64, 128, 256, 512, 1024][(gyrCode sc).toNat]? = some v.toNat := by
  obtain ⟨k, listed⟩ := List.mem_iff_getElem?.1 (StateRules.gyrDivisor_of_gyrScaleOf scale).1
  obtain ⟨sc', same, code, -⟩ := gyrScaleOf_listed listed
  obtain rfl := Option.some.inj (scale.symm.trans same)
  rwa [code, toNat_ofNat_of_listed (by decide) listed]

/-- Settles O50. -/
theorem scaleTables : Obligations.ScaleTables :=
  ⟨accScaleOf_eq_none_iff,
    fun _ _ scale => ⟨accCode_of_accScaleOf scale, (StateRules.accDivisor_of_accScaleOf scale).2⟩,
    gyrScaleOf_eq_none_iff,
    fun _ sc scale => ⟨gyrCode_of_gyrScaleOf scale, (StateRules.gyrDivisor_of_gyrScaleOf scale).2,
      by cases sc <;> decide⟩⟩

/-! ### Writing a scale code (R182, R183) -/

section
variable (i : Instr) (a b : Byte) (after : AfterWrite) (s : State) (c : Memory) (ins rest : List Input)
  (es : List Event)

/-- The WRITE answered OK: the update is made, and the command has ended. -/
theorem drive_waits_update_ok (x : Byte) :
    drive (.answer (.ok x) :: rest) (s.waits c ins es i (.commit a b after)) = afterWrite after
      (s.ended c rest (.response ⟨.ok, .none⟩ :: .transaction (.write s.dev a b) (.ok x) :: es)) := by
  rw [drive_answer rfl, drive_idle rfl]
  cases after <;> rfl

/-- The WRITE answered ERR: no update is made. -/
theorem drive_waits_update_err (e : Nat) :
    drive (.answer (.err e) :: rest) (s.waits c ins es i (.commit a b after)) =
      s.ended c rest
        (.response ⟨.transportError, .datum e⟩ :: .transaction (.write s.dev a b) (.err e) :: es) := by
  rw [drive_answer rfl, drive_idle rfl]
  rfl

end

/-- The common part of R182 and R183: from a valid entry, and from an invalid one, the code is written into its field,
and the update is made where the WRITE is answered OK. -/
def WritesCode (i : Instr) (f : RegField) (k : Nat) (after : AfterWrite) (s : State) (rest : List Input) : Prop :=
  (∀ old, s.startEntry f.reg = some old →
    (∀ x, s.inputs = .answer (.ok x) :: rest →
      exec i s = .next (afterWrite after (s.ended (s.startCache.write f.reg.toNat (codeByte f k old)) rest
        [.response ⟨.ok, .none⟩, .transaction (.write s.dev f.reg (codeByte f k old)) (.ok x)]))) ∧
    (∀ e, s.inputs = .answer (.err e) :: rest →
      exec i s = .next (s.ended (s.startCache.write f.reg.toNat (codeByte f k old)) rest
        [.response ⟨.transportError, .datum e⟩, .transaction (.write s.dev f.reg (codeByte f k old)) (.err e)]))) ∧
  (s.startEntry f.reg = none →
    (∀ d x, s.inputs = .answer (.ok d) :: .answer (.ok x) :: rest →
      exec i s = .next (afterWrite after
        (s.ended ((s.startCache.write f.reg.toNat d).write f.reg.toNat (codeByte f k d)) rest
          [.response ⟨.ok, .none⟩, .transaction (.write s.dev f.reg (codeByte f k d)) (.ok x),
            .transaction (.read s.dev f.reg) (.ok d)]))) ∧
    (∀ d e, s.inputs = .answer (.ok d) :: .answer (.err e) :: rest →
      exec i s = .next (s.ended ((s.startCache.write f.reg.toNat d).write f.reg.toNat (codeByte f k d)) rest
        [.response ⟨.transportError, .datum e⟩, .transaction (.write s.dev f.reg (codeByte f k d)) (.err e),
          .transaction (.read s.dev f.reg) (.ok d)])) ∧
    (∀ e, s.inputs = .answer (.err e) :: rest → exec i s = .next (s.ended s.startCache rest
      [.response ⟨.transportError, .datum e⟩, .transaction (.read s.dev f.reg) (.err e)])))

theorem merge_eq_codeByte (f : RegField) (k : Nat) (old : Byte) :
    merge old (maskOf f.field.hi f.field.lo) (BitVec.ofNat 8 k <<< f.field.lo.toNat) = codeByte f k old :=
  merge_eq_xor _ _ _

section
variable {i : Instr} {f : RegField} {k : Nat} {after : AfterWrite} {s : State} {rest : List Input}
  (idle : s.seq = .idle) (valid : f.field.valid = true)
  (body : bodyOf i s.beginCommand = writeCode i f (BitVec.ofNat 8 k) after s.beginCommand)
include valid

/-- A scale code is put as FSET puts its value (R70 (b)). -/
theorem writeCode_eq_fillThen (i : Instr) (k : Nat) (after : AfterWrite) (s : State) :
    writeCode i f (BitVec.ofNat 8 k) after s = fillThen i f.reg
      (.put (maskOf f.field.hi f.field.lo) (BitVec.ofNat 8 k <<< f.field.lo.toNat) after) s := by
  have bounds : f.field.lo.toNat ≤ f.field.hi.toNat ∧ f.field.hi.toNat ≤ 7 := by
    simpa [FieldSpec.valid] using valid
  rw [writeCode, placeBits_descriptorOf bounds]
  rfl

include idle body

theorem writesCode : WritesCode i f k after s rest := by
  rw [writeCode_eq_fillThen valid] at body
  refine ⟨fun old entry => ?_, fun noEntry => ?_⟩
  · rw [fillThen_valid entry, useValue_put, merge_eq_codeByte] at body
    have run : exec i s = .next (drive s.inputs (s.waits (s.startCache.write f.reg.toNat (codeByte f k old)) s.inputs []
        i (.commit f.reg (codeByte f k old) after))) := by
      rw [exec_idle idle, body, beginCommand_eq]
      rfl
    rw [run]
    refine ⟨fun x moves => ?_, fun e moves => ?_⟩
    · rw [moves, drive_waits_update_ok]
    · rw [moves, drive_waits_update_err]
  · rw [fillThen_invalid noEntry] at body
    have filled (d : Byte) (rest : List Input) (moves : s.inputs = .answer (.ok d) :: rest) :
        exec i s = .next (drive rest (s.waits ((s.startCache.write f.reg.toNat d).write f.reg.toNat (codeByte f k d))
          s.inputs [.transaction (.read s.dev f.reg) (.ok d)] i (.commit f.reg (codeByte f k d) after))) := by
      rw [exec_of_await_answer idle body moves, ← merge_eq_codeByte]
      rfl
    refine ⟨fun d x moves => ?_, fun d e moves => ?_, fun e moves => exec_of_await_lastAnswer idle body moves rfl⟩
    · rw [filled d _ moves, drive_waits_update_ok]
    · rw [filled d _ moves, drive_waits_update_err]

end

theorem bodyOf_sacc_of_unsupported {v : BitVec 16} (other : v.toNat ∉ [2, 4, 8, 16]) (s : State) :
    bodyOf (.sacc v) s = s.answerHost ⟨.unsupportedScale, .scale v⟩ := by
  rw [bodyOf, saccBody, (accScaleOf_eq_none_iff v).2 other]
  rfl

theorem bodyOf_sgyr_of_unsupported {v : BitVec 16} (other : v.toNat ∉ [16, 32, 64, 128, 256, 512, 1024]) (s : State) :
    bodyOf (.sgyr v) s = s.answerHost ⟨.unsupportedScale, .scale v⟩ := by
  rw [bodyOf, sgyrBody, (gyrScaleOf_eq_none_iff v).2 other]
  rfl

/-- Settles O24: an unsupported scale is answered at once, an allowed one is writesCode with the update of ACC_DIV. -/
theorem saccFollowsItsRule : Obligations.SaccFollowsItsRule := by
  refine ⟨fun v s rest idle => ⟨fun other => ?_, fun k listed => ?_⟩,
    fun v => (Encoding.decode_eq_ok_iff _ _).2 ⟨rfl, by simp [encode, place]⟩,
    fun w code => decode_error_of_reserved (op := .SACC) (p := (16, 12)) code (by decide)⟩
  · exact exec_of_bodyOf_answerHost idle (bodyOf_sacc_of_unsupported other _)
  · obtain ⟨sc, scale, code, divisor⟩ := accScaleOf_listed listed
    obtain ⟨valid, -⟩ := Bool.and_eq_true_iff.1 s.cfg.wiring.accFsOk
    have body : bodyOf (.sacc v) s.beginCommand =
        writeCode (.sacc v) s.cfg.wiring.accFs (BitVec.ofNat 8 k) (.accDiv sc) s.beginCommand := by
      simp [bodyOf, saccBody, scale, code]
    rw [← divisor]
    exact writesCode idle valid body

/-- Settles O25, as O24. -/
theorem sgyrFollowsItsRule : Obligations.SgyrFollowsItsRule := by
  refine ⟨fun v s rest idle => ⟨fun other => ?_, fun k listed => ?_⟩,
    fun v => (Encoding.decode_eq_ok_iff _ _).2 ⟨rfl, by simp [encode, place]⟩,
    fun w code => decode_error_of_reserved (op := .SGYR) (p := (16, 12)) code (by decide)⟩
  · exact exec_of_bodyOf_answerHost idle (bodyOf_sgyr_of_unsupported other _)
  · obtain ⟨sc, scale, code, divisor⟩ := gyrScaleOf_listed listed
    obtain ⟨valid, -⟩ := Bool.and_eq_true_iff.1 s.cfg.wiring.gyrFsOk
    have body : bodyOf (.sgyr v) s.beginCommand =
        writeCode (.sgyr v) s.cfg.wiring.gyrFs (BitVec.ofNat 8 k) (.gyrDiv sc) s.beginCommand := by
      simp [bodyOf, sgyrBody, scale, code]
    rw [← divisor]
    exact writesCode idle valid body

/-! ### The IMU's readouts (R184, R185) -/

/-- Settles O26: RACC is a run of six READs, and its payload is raccNumber of each count. -/
theorem raccFollowsItsRule : Obligations.RaccFollowsItsRule := by
  refine ⟨fun mps2 s rest bs idle => ?_, ⟨(Encoding.decode_eq_ok_iff _ _).2 ⟨rfl, rfl⟩,
    (Encoding.decode_eq_ok_iff _ _).2 ⟨rfl, rfl⟩⟩, fun w code reserved => ?_⟩
  · have body : bodyOf (.racc mps2) s.beginCommand =
        continueRun (.racc mps2) s.cfg.wiring.accData [] (.accel mps2) s.beginCommand := by
      rw [bodyOf, raccBody, beginCommand_cfg]
    exact ⟨exec_of_run_all idle body, fun e part => exec_of_run_fails idle body part⟩
  · obtain high | low := reserved
    · exact decode_error_of_reserved (op := .RACC) (p := (25, 3)) code (by decide) high
    · exact decode_error_of_reserved (op := .RACC) (p := (0, 24)) code (by decide) low

/-- Settles O27: RGYR is a run of six READs, and its payload is rgyrNumber of each count. -/
theorem rgyrFollowsItsRule : Obligations.RgyrFollowsItsRule := by
  refine ⟨fun s rest bs idle => ?_, (Encoding.decode_eq_ok_iff _ _).2 ⟨rfl, rfl⟩,
    fun w code => decode_error_of_reserved (op := .RGYR) (p := (0, 28)) code (by decide)⟩
  have body : bodyOf .rgyr s.beginCommand = continueRun .rgyr s.cfg.wiring.gyrData [] .gyro s.beginCommand := by
    rw [bodyOf, rgyrBody, beginCommand_cfg]
  exact ⟨exec_of_run_all idle body, fun e part => exec_of_run_fails idle body part⟩

/-! ### The magnetometer's readouts (R186, R187) -/

/-- The low 2 bits of an axis, as R186 reads them from the extra byte. -/
theorem toNat_fieldOf_low {low : FieldSpec} (ok : (low.valid && low.bits == 2) = true) (v : Byte) :
    (fieldOf v (descriptorOf low.hi low.lo)).toNat = v.toNat / 2 ^ low.lo.toNat % 4 := by
  obtain ⟨⟨lo_le, hi_le⟩, width⟩ : (low.lo.toNat ≤ low.hi.toNat ∧ low.hi.toNat ≤ 7) ∧
      low.hi.toNat + 1 - low.lo.toNat = 2 := by simpa [FieldSpec.valid, FieldSpec.bits] using ok
  rw [FieldAccess.fieldOf_eq_div_mod ⟨lo_le, hi_le⟩, show low.hi.toNat - low.lo.toNat + 1 = 2 by omega,
    BitVec.toNat_ofNat]
  omega

theorem toNat_magAxis (bs : List Byte) (j : Nat) {low : FieldSpec} (ok : (low.valid && low.bits == 2) = true) :
    (magAxis bs j low).toNat = magNumber bs j low := by
  have bits := toNat_fieldOf_low ok (byteAt bs 6)
  have small : (fieldOf (byteAt bs 6) (descriptorOf low.hi low.lo)).toNat < 2 ^ 2 := by omega
  have upper := (byteAt bs (2 * j)).isLt
  have lower := (byteAt bs (2 * j + 1)).isLt
  have high : (byteAt bs (2 * j) ++ byteAt bs (2 * j + 1)).toNat =
      (byteAt bs (2 * j)).toNat * 256 + (byteAt bs (2 * j + 1)).toNat := by
    rw [BitVec.toNat_append, ← Nat.shiftLeft_add_eq_or_of_lt lower, Nat.shiftLeft_eq]
  have shifted : ((byteAt bs (2 * j) ++ byteAt bs (2 * j + 1)).setWidth 18 <<< 2).toNat =
      ((byteAt bs (2 * j)).toNat * 256 + (byteAt bs (2 * j + 1)).toNat) <<< 2 := by
    rw [BitVec.toNat_shiftLeft, BitVec.toNat_setWidth, high, Nat.shiftLeft_eq, Nat.shiftLeft_eq]
    omega
  rw [magAxis, magNumber, ← bits, BitVec.toNat_or, shifted, BitVec.toNat_setWidth,
    Nat.mod_eq_of_lt (small.trans (by norm_num)), ← Nat.shiftLeft_add_eq_or_of_lt small, Nat.shiftLeft_eq]

/-- The normalised axis as R187 writes it from the raw number. -/
theorem magNormAxis_magAxis (bs : List Byte) (j : Nat) {low : FieldSpec} (ok : (low.valid && low.bits == 2) = true) :
    magNormAxis (magAxis bs j low) = magUnit bs j low := by
  rw [magNormAxis, toNat_magAxis bs j ok]
  rfl

/-- Settles O28: MRAW is a run of seven READs, and its payload is magNumber of each axis. -/
theorem mrawFollowsItsRule : Obligations.MrawFollowsItsRule := by
  refine ⟨fun s rest bs idle => ?_, (Encoding.decode_eq_ok_iff _ _).2 ⟨rfl, rfl⟩,
    fun w code => decode_error_of_reserved (op := .MRAW) (p := (0, 28)) code (by decide)⟩
  have body : bodyOf .mraw s.beginCommand = continueRun .mraw s.cfg.wiring.magData [] .magRaw s.beginCommand := by
    rw [bodyOf, mrawBody, beginCommand_cfg]
  refine ⟨fun all moves => ⟨magRawOf s.cfg.magLow bs, ?_, ?_, ?_, exec_of_run_all idle body all moves⟩,
    fun e part => exec_of_run_fails idle body part⟩
  · exact toNat_magAxis bs 0 s.cfg.magLow.xOk
  · exact toNat_magAxis bs 1 s.cfg.magLow.yOk
  · exact toNat_magAxis bs 2 s.cfg.magLow.zOk

/-- Settles O29: MXYZ is a run of seven READs, and its payload is magUnit of each axis. -/
theorem mxyzFollowsItsRule : Obligations.MxyzFollowsItsRule := by
  refine ⟨fun s rest bs idle => ?_, (Encoding.decode_eq_ok_iff _ _).2 ⟨rfl, rfl⟩,
    fun w code => decode_error_of_reserved (op := .MXYZ) (p := (0, 28)) code (by decide)⟩
  have body : bodyOf .mxyz s.beginCommand = continueRun .mxyz s.cfg.wiring.magData [] .magNorm s.beginCommand := by
    rw [bodyOf, mxyzBody, beginCommand_cfg]
  refine ⟨?_, fun e part => exec_of_run_fails idle body part⟩
  rw [← magNormAxis_magAxis bs 0 s.cfg.magLow.xOk, ← magNormAxis_magAxis bs 1 s.cfg.magLow.yOk,
    ← magNormAxis_magAxis bs 2 s.cfg.magLow.zOk]
  exact exec_of_run_all idle body

end Sys2Proof.Proofs.ScaleConversion
end

section
/-! PROOFS of the statements of spec/60_exceptions.md: which moves of the environment stop a step, the word that starts a
command and the one that starts none, and the response that ends every command, with the payload of its status. -/

namespace Sys2Proof.Proofs.Exceptions

open Sys2Proof Sys2Proof.Machine Sys2Proof.Proofs.Commands

/-! ### A step, by the move it takes (R240, R250, R41) -/

section
variable {s : State} {w : Word} {a : Answer} {rest : List Input}

theorem step_of_command (moves : s.inputs = .command w :: rest) : step s = takeCommand w { s with inputs := rest } := by
  simp only [step, stepOnce, moves]

theorem step_of_commandReset (moves : s.inputs = .commandReset w :: rest) :
    step s = resetAfterCommand w { s with inputs := rest } := by
  simp only [step, stepOnce, moves]

theorem step_of_answer (moves : s.inputs = .answer a :: rest) : step s = takeAnswer a rest s := by
  simp only [step, stepOnce, moves]

theorem step_of_answerReset (moves : s.inputs = .answerReset a :: rest) :
    step s = resetAfterAnswer a { s with inputs := rest } := by
  simp only [step, stepOnce, moves]

end

theorem takeCommand_of_decode_ok {w : Word} {i : Instr} (legal : decode w = .ok i) (s : State) :
    takeCommand w s = exec i (s.log (.command w)) := by
  simp only [takeCommand, legal]

theorem takeCommand_of_decode_error {w : Word} {e : DecodeError} (illegal : decode w = .error e) (s : State) :
    takeCommand w s = answerIllegal w (s.log (.command w)) := by
  simp only [takeCommand, illegal]

/-- Settles O6. -/
theorem stepRunsTheDecodedCommand : Obligations.StepRunsTheDecodedCommand := fun s w rest i moves legal =>
  calc step s
    _ = takeCommand w { s with inputs := rest } := step_of_command moves
    _ = exec i (State.log { s with inputs := rest } (.command w)) := takeCommand_of_decode_ok legal _

/-- Settles O7. -/
theorem illegalWordIsAnsweredAtOnce : Obligations.IllegalWordIsAnsweredAtOnce := fun _ _ _ _ idle moves illegal =>
  Encoding.step_of_illegal_word illegal idle moves

/-! ### The moves that the environment has no right to make (R240, R41) -/

section
variable {s : State}

/-- A BUSY block refuses every word, legal or not. -/
theorem takeCommand_of_busy (busy : s.seq ≠ .idle) (w : Word) : takeCommand w s = .refused .commandWhileBusy := by
  cases decoded : decode w with
  | ok i => rw [takeCommand_of_decode_ok decoded, exec_busy (by exact busy)]
  | error e => rw [takeCommand_of_decode_error decoded, answerIllegal, if_neg (by exact busy)]

/-- An IDLE block takes every word, legal or not. -/
theorem takeCommand_of_idle (idle : s.seq = .idle) (w : Word) : ∃ t, takeCommand w s = .next t := by
  cases decoded : decode w with
  | ok i => exact ⟨_, (takeCommand_of_decode_ok decoded s).trans (exec_idle (by exact idle) i)⟩
  | error e => exact ⟨_, (takeCommand_of_decode_error decoded s).trans (if_pos (by exact idle))⟩

theorem takeAnswer_of_idle (idle : s.seq = .idle) (a : Answer) (rest : List Input) :
    takeAnswer a rest s = .fault .strayAnswer := by
  simp only [takeAnswer, idle]

theorem takeAnswer_of_busy (busy : s.seq ≠ .idle) (a : Answer) (rest : List Input) :
    ∃ t, takeAnswer a rest s = .next t := by
  obtain idle | ⟨i, w, wait⟩ := sequencer_cases s
  · exact absurd idle busy
  · exact ⟨_, by simp only [takeAnswer, wait]; rfl⟩

theorem resetAfterAnswer_of_idle (idle : s.seq = .idle) (a : Answer) : resetAfterAnswer a s = .fault .strayAnswer := by
  simp only [resetAfterAnswer, idle]

theorem resetAfterAnswer_of_busy (busy : s.seq ≠ .idle) (a : Answer) : ∃ t, resetAfterAnswer a s = .next t := by
  obtain idle | ⟨i, w, wait⟩ := sequencer_cases s
  · exact absurd idle busy
  · exact ⟨_, by simp only [resetAfterAnswer, wait]; rfl⟩

end

/-- Settles O8: by the move at the front and by whether the block is IDLE. -/
theorem stepStopsOnlyOnForbiddenMoves : Obligations.StepStopsOnlyOnForbiddenMoves := by
  intro s
  refine ⟨?_, ?_, ?_⟩
  · rintro w rest (moves | moves) busy
    · rw [step_of_command moves, takeCommand_of_busy (by exact busy)]
    · rw [step_of_commandReset moves, resetAfterCommand, if_neg (by exact busy)]
  · rintro a rest (moves | moves) idle
    · rw [step_of_answer moves, takeAnswer_of_idle idle]
    · rw [step_of_answerReset moves, resetAfterAnswer_of_idle (by exact idle)]
  · match moves : s.inputs with
    | [] => exact .inl ⟨s, by simp only [step, stepOnce, moves]⟩
    | .reset :: rest => exact .inl ⟨State.assertReset { s with inputs := rest }, by simp only [step, stepOnce, moves]⟩
    | .command w :: rest =>
      by_cases idle : s.seq = .idle
      · exact .inl (step_of_command moves ▸ takeCommand_of_idle (by exact idle) w)
      · exact .inr (.inl ⟨w, rest, .inl rfl, idle⟩)
    | .commandReset w :: rest =>
      by_cases idle : s.seq = .idle
      · exact .inl ⟨_, (step_of_commandReset moves).trans (if_pos (by exact idle))⟩
      · exact .inr (.inl ⟨w, rest, .inr rfl, idle⟩)
    | .answer a :: rest =>
      by_cases idle : s.seq = .idle
      · exact .inr (.inr ⟨a, rest, .inl rfl, idle⟩)
      · exact .inl (step_of_answer moves ▸ takeAnswer_of_busy idle a rest)
    | .answerReset a :: rest =>
      by_cases idle : s.seq = .idle
      · exact .inr (.inr ⟨a, rest, .inr rfl, idle⟩)
      · exact .inl (step_of_answerReset moves ▸ resetAfterAnswer_of_busy (by exact idle) a)

/-! ### The payload that a point of a command's rule leads to (R220, R221) -/

theorem forall₂_entryRange_decodeLayout (layout : List Entry) (buf : List Byte) :
    List.Forall₂ entryRange layout (decodeLayout layout buf) := by
  induction layout generalizing buf with
  | nil => exact .nil
  | cons e es ih => exact .cons (ReadRuns.entryRange_entryValue (List.length_take_le _ _)) (ih _)

section
variable {cfg : Config} {i : Instr} {a v : Byte}

/-- Every command that makes a request can fail for the transport: all but FSPEC. -/
theorem payloadFits_transportError {w : Waiting} (point : waitsAt cfg i w) (e : Nat) :
    payloadFits i ⟨.transportError, .datum e⟩ := by
  cases i with
  | fspec h l => exact point.elim
  | _ => exact ⟨e, rfl⟩

theorem payloadFits_of_byte (point : waitsAt cfg i (.byte a)) : payloadFits i ⟨.ok, .byte v⟩ := by
  rw [EntryRuns.eq_brd_of_waitsAt_byte point]
  exact ⟨v, rfl⟩

theorem payloadFits_of_store (point : waitsAt cfg i (.store a v)) : payloadFits i ⟨.ok, .none⟩ := by
  rw [eq_bwr_of_waitsAt_store point]
  rfl

/-- The commands that WRITE a cached byte respond no value. -/
theorem payloadFits_of_commit {after : AfterWrite} (point : waitsAt cfg i (.commit a v after)) :
    payloadFits i ⟨.ok, .none⟩ := by
  cases i with
  | bwc | fset | sacc | sgyr => rfl
  | _ => simp [waitsAt] at point

theorem payloadFits_of_stage {mask bits : Byte} (point : waitsAt cfg i (.fill a (.stage mask bits))) :
    payloadFits i ⟨.ok, .none⟩ := by
  cases i with
  | bms b m x => rfl
  | _ => simp [waitsAt, codePut] at point

theorem payloadFits_of_get {d : Descriptor} (point : waitsAt cfg i (.fill a (.get d))) :
    payloadFits i ⟨.ok, .byte v⟩ := by
  cases i with
  | fget b h l => exact ⟨v, rfl⟩
  | _ => simp [waitsAt, codePut] at point

theorem payloadFits_of_run {start : Byte} {got : List Byte} {use : RunUse} (point : waitsAt cfg i (.run start got use))
    (s : State) (buf : List Byte) : payloadFits i ⟨.ok, runPayload s use buf⟩ := by
  cases i with
  | mrd b n layout =>
    obtain ⟨-, _, eq⟩ := point
    cases eq
    exact ⟨_, rfl, forall₂_entryRange_decodeLayout layout buf⟩
  | racc | rgyr | mraw | mxyz =>
    obtain ⟨_, eq⟩ := point
    cases eq
    exact ⟨_, rfl⟩
  | _ => simp [waitsAt] at point

end

/-! ### One response, or a wait -/

/-- To the observation `before` command i has added its one response and ended, or it has added nothing and waits. -/
def EndsOrWaits (i : Instr) (before : List Event) (t : State) : Prop :=
  (t.seq = .idle ∧ ∃ r, payloadFits i r ∧ t.trace = .response r :: before) ∨ (t.seq ≠ .idle ∧ t.trace = before)

section
variable {i : Instr} {s : State}

theorem endsOrWaits_answerHost {r : Response} (fits : payloadFits i r) : EndsOrWaits i s.trace (s.answerHost r) :=
  .inl ⟨rfl, r, fits, rfl⟩

theorem endsOrWaits_await (w : Waiting) : EndsOrWaits i s.trace (s.await i w) := .inr ⟨nofun, rfl⟩

theorem endsOrWaits_useValue {a v : Byte} {use : EntryUse} (point : waitsAt s.cfg i (.fill a use)) :
    EndsOrWaits i s.trace (useValue i a v use s) := by
  cases use with
  | commit => exact endsOrWaits_await _
  | stage mask bits => exact endsOrWaits_answerHost (s := s.setEntry a _) (payloadFits_of_stage point)
  | get d => exact endsOrWaits_answerHost (payloadFits_of_get point)
  | put mask bits after => exact endsOrWaits_await (s := s.setEntry a _) _

theorem endsOrWaits_fillThen {a : Byte} {use : EntryUse} (point : waitsAt s.cfg i (.fill a use)) :
    EndsOrWaits i s.trace (fillThen i a use s) := by
  cases found : s.entry a with
  | none => rw [fillThen_invalid found]; exact endsOrWaits_await _
  | some v => rw [fillThen_valid found]; exact endsOrWaits_useValue point

theorem endsOrWaits_continueRun {start : Byte} {got : List Byte} {use : RunUse}
    (point : waitsAt s.cfg i (.run start got use)) : EndsOrWaits i s.trace (continueRun i start got use s) := by
  obtain more | done := Nat.lt_or_ge got.length use.count
  · rw [continueRun_more more]; exact endsOrWaits_await _
  · rw [continueRun_done done]; exact endsOrWaits_answerHost (payloadFits_of_run point s got)

end

/-- A body refuses its operands with the error that its rule names and what that error reports (R221), or it goes on to a
point of its rule; only FSPEC has all it needs to respond OK. -/
theorem endsOrWaits_bodyOf (i : Instr) (s : State) : EndsOrWaits i s.trace (bodyOf i s) := by
  cases i with
  | fspec h l =>
    simp only [bodyOf, fspecBody]
    split
    · next d _ => exact endsOrWaits_answerHost ⟨d, rfl⟩
    · exact endsOrWaits_answerHost rfl
  | brd a => exact endsOrWaits_await _
  | bwr a v => exact endsOrWaits_await _
  | bwc a => exact endsOrWaits_fillThen (.inl rfl)
  | bms a mask bits => exact endsOrWaits_fillThen rfl
  | fget a h l =>
    simp only [bodyOf, fgetBody]
    split
    · next d bounds => exact endsOrWaits_fillThen ⟨d, bounds, rfl⟩
    · exact endsOrWaits_answerHost rfl
  | fset a h l v =>
    simp only [bodyOf, fsetBody]
    split
    · next d bounds => exact endsOrWaits_fillThen ⟨d, bounds, .inl rfl⟩
    · exact endsOrWaits_answerHost rfl
  | mrd a n layout =>
    simp only [bodyOf, mrdBody]
    split
    · exact endsOrWaits_answerHost rfl
    · split
      · exact endsOrWaits_answerHost rfl
      · next width => exact endsOrWaits_continueRun ⟨not_not.1 width, [], rfl⟩
  | sacc v =>
    simp only [bodyOf, saccBody]
    split
    · next sc scale => exact endsOrWaits_fillThen ⟨sc, scale, .inl rfl⟩
    · exact endsOrWaits_answerHost rfl
  | sgyr v =>
    simp only [bodyOf, sgyrBody]
    split
    · next sc scale => exact endsOrWaits_fillThen ⟨sc, scale, .inl rfl⟩
    · exact endsOrWaits_answerHost rfl
  | racc | rgyr | mraw | mxyz => exact endsOrWaits_continueRun ⟨[], rfl⟩

section
variable {i : Instr} {s : State} {w : Waiting} (point : waitsAt s.cfg i w)
include point

theorem endsOrWaits_onOk (d : Byte) : EndsOrWaits i s.trace (onOk i w d s) := by
  cases w with
  | byte a => exact endsOrWaits_answerHost (s := s.setEntry a d) (payloadFits_of_byte point)
  | run start got use => exact endsOrWaits_continueRun (waitsAt_run point _)
  | fill a use => exact endsOrWaits_useValue (s := s.setEntry a d) point
  | commit a v after => exact .inl ⟨rfl, _, payloadFits_of_commit point, by simp [onOk]⟩
  | store a v => exact endsOrWaits_answerHost (s := s.setEntry a v) (payloadFits_of_store point)

/-- An answer adds the transaction that it completes, and then the command ends or waits again. -/
theorem endsOrWaits_deliver (a : Answer) :
    EndsOrWaits i (.transaction (w.request s.dev) a :: s.trace) (deliver i w a s) := by
  cases a with
  | ok d => exact endsOrWaits_onOk (s := s.log _) point d
  | err e =>
    exact .inl ⟨rfl, _, payloadFits_transportError point e, by
      rw [deliver_err, raise_trace, Observation.cacheAfterFailure_trace, log_trace]; rfl⟩

end

/-! ### The whole run of a command -/

/-- Every request is a READ or a WRITE. -/
theorem isRead_or_isWrite_request (w : Waiting) (dev : Nat) (a : Answer) :
    isRead (.transaction (w.request dev) a) = true ∨ isWrite (.transaction (w.request dev) a) = true := by
  cases w with
  | byte | run | fill => exact .inl rfl
  | commit | store => exact .inr rfl

/-- Command i, begun with the observation `before`, has added READs and WRITEs, and has ended or waits. -/
def RequestsThenEnds (i : Instr) (before : List Event) (t : State) : Prop :=
  ∃ es, (∀ e ∈ es, isRead e = true ∨ isWrite e = true) ∧ EndsOrWaits i (es ++ before) t

theorem exec_requestsThenEnds {i : Instr} {s t : State} (run : exec i s = .next t) : RequestsThenEnds i s.trace t := by
  refine exec_induction (RequestsThenEnds i s.trace) (fun _ _ h => h) ?_ ?_ run
  · have start := endsOrWaits_bodyOf i s.beginCommand
    rw [beginCommand_trace] at start
    exact ⟨[], nofun, start⟩
  · rintro u w a busy cfg point ⟨es, requests, ⟨idle, -⟩ | ⟨-, added⟩⟩
    · rw [idle] at busy; cases busy
    · have answered := endsOrWaits_deliver (s := u) (cfg ▸ point) a
      rw [added] at answered
      exact ⟨_ :: es, List.forall_mem_cons.2 ⟨isRead_or_isWrite_request w u.dev a, requests⟩, answered⟩

/-- Settles O30: the induction over the command's answers gives the events, and a drive stops at a wait only where no
answer is left. -/
theorem commandEndsInOneResponse : Obligations.CommandEndsInOneResponse := by
  intro i s t run
  obtain ⟨es, requests, ended | ⟨busy, added⟩⟩ := exec_requestsThenEnds run
  · exact ⟨es, requests, .inl ended⟩
  · obtain ⟨-, rfl⟩ := exec_next run
    exact ⟨es, requests, .inr ⟨busy, noAnswerFirst_of_drive_busy _ _ busy, added⟩⟩

end Sys2Proof.Proofs.Exceptions
end

section
/-! PROOFS of the statements of spec/70_reset_and_hazards.md: the wait for the environment, the reset input at every
point of a command, and the number of answers after which every command has ended. -/

namespace Sys2Proof.Proofs.ResetAndHazards

open Sys2Proof Sys2Proof.Machine Sys2Proof.Proofs.Commands

/-! ### A step that waits, and a step that resets (R250, R251, R252) -/

section
variable {s : State} {i : Instr} {p : Waiting} {rest : List Input}

theorem step_of_noMove (moves : s.inputs = []) : step s = .next s := by
  simp only [step, stepOnce, moves]

theorem step_of_reset (moves : s.inputs = .reset :: rest) :
    step s = .next (State.assertReset { s with inputs := rest }) := by
  simp only [step, stepOnce, moves]

theorem assertReset_of_idle (idle : s.seq = .idle) : s.assertReset = s.toReset [] := by
  simp only [State.assertReset, idle]

theorem assertReset_of_busy (busy : s.seq = .busy i p) :
    s.assertReset = s.toReset [.abandoned i (p.request s.dev)] := by
  simp only [State.assertReset, busy, State.dev]

theorem resetAfterCommand_of_idle (idle : s.seq = .idle) (w : Word) :
    resetAfterCommand w s = .next (s.toReset [.command w]) := if_pos idle

theorem resetAfterAnswer_eq_of_busy (busy : s.seq = .busy i p) (a : Answer) :
    resetAfterAnswer a s = .next (s.toReset [.transaction (p.request s.dev) a]) := by
  simp only [resetAfterAnswer, busy, State.dev]

/-- The sequencer of an IDLE block is at its reset value already. -/
theorem toReset_of_idle (idle : s.seq = .idle) (es : List Event) :
    s.toReset es = { s with cache := [], accDiv := 1, gyrDiv := 1, trace := .reset :: es ++ s.trace } := by
  simp only [State.toReset, idle]

end

/-- Settles O9. -/
theorem blockWaitsForItsEnvironment : Obligations.BlockWaitsForItsEnvironment := fun _ => step_of_noMove

/-- Settles O10: reset is the same state whatever it interrupts, and a BUSY block adds the request it abandons. -/
theorem resetInputRestoresTheResetState : Obligations.ResetInputRestoresTheResetState := by
  refine fun s rest moves => ⟨fun idle => ?_, fun i w busy => ?_⟩
  · rw [step_of_reset moves, assertReset_of_idle (by exact idle), toReset_of_idle (by exact idle)]
    rfl
  · rw [step_of_reset moves, assertReset_of_busy (by exact busy)]
    rfl

/-- Settles O59: neither move goes through the decoder or through the command's rule. -/
theorem resetStrikesInsideACommand : Obligations.ResetStrikesInsideACommand := by
  refine fun s rest => ⟨fun w idle moves => ?_, fun i w a busy moves => ?_⟩
  · rw [Exceptions.step_of_commandReset moves, resetAfterCommand_of_idle (by exact idle),
      toReset_of_idle (by exact idle)]
  · rw [Exceptions.step_of_answerReset moves, resetAfterAnswer_eq_of_busy (by exact busy)]
    rfl

/-! ### Reset after any answer of a command (R251) -/

section
variable {i : Instr} {s t : State} {as : List Answer}

/-- A command that these answers leave waiting goes on, with more moves after them, from where it waits. -/
theorem exec_append (run : exec i { s with inputs := as.map .answer } = .next t) (waits : t.seq ≠ .idle)
    (ins : List Input) : exec i { s with inputs := as.map .answer ++ ins } = .next (drive ins t) := by
  obtain done | ⟨j, w, busy⟩ := sequencer_cases t
  · exact absurd done waits
  · obtain ⟨idle, rfl⟩ := exec_next run
    rw [exec_idle (by exact idle)]
    simp only [StateRules.drive_body_with_inputs] at busy ⊢
    rw [drive_append as ins _ ⟨j, w, busy⟩]

/-- A draw ends its command, so a command that waits has made none. -/
theorem draws_of_waiting (run : exec i s = .next t) (waits : t.seq ≠ .idle) : t.draws = s.draws := by
  obtain same | ⟨_, _, -, idle, -⟩ := StateRules.exec_drawsAtEnd run
  · exact same
  · exact absurd idle waits

end

/-- Settles O60: the run stops before the answer that is reset upon (exec_append), the reset there is that of
resetStrikesInsideACommand, and of what reset leaves alone the command has changed nothing but its observation. -/
theorem resetAfterAnyAnswer : Obligations.ResetAfterAnyAnswer := by
  intro i s t as a rest run waits
  refine ⟨exec_append run waits _, ?_⟩
  obtain done | ⟨j, w, busy⟩ := sequencer_cases t
  · exact absurd done waits
  · have cfg : t.cfg = s.cfg := (exec_runs run).2
    have draws : t.draws = s.draws := draws_of_waiting (s := { s with inputs := as.map .answer }) run waits
    refine ⟨w.request s.dev, ?_⟩
    rw [(resetStrikesInsideACommand _ rest).2 j w a (by exact busy) rfl]
    simp only [State.dev, cfg, draws]

/-! ### How many answers a command can take (R265, R270) -/

/-- How many requests can follow the one that a command waits for, at most. -/
def furtherRequests : Waiting → Nat
  | .run _ got use => use.count - (got.length + 1)
  | .fill _ .commit | .fill _ (.put _ _ _) => 1
  | .byte _ | .fill _ (.stage _ _) | .fill _ (.get _) | .commit _ _ _ | .store _ _ => 0

/-- n answers are enough to end the command: there is none, or fewer than n requests can follow the outstanding one. -/
def EndsWithin (n : Nat) (s : State) : Prop :=
  s.seq = .idle ∨ ∃ i w, s.seq = .busy i w ∧ furtherRequests w < n

theorem EndsWithin.mono {m n : Nat} {s : State} (h : EndsWithin m s) (le : m ≤ n) : EndsWithin n s := by
  obtain idle | ⟨i, w, busy, few⟩ := h
  · exact .inl idle
  · exact .inr ⟨i, w, busy, few.trans_le le⟩

/-- The longest command is an MRD of 15 bytes: N has four bits (R64). -/
theorem furtherRequests_lt_of_waitsAt {cfg : Config} {i : Instr} {w : Waiting} (point : waitsAt cfg i w) :
    furtherRequests w < 15 := by
  cases w with
  | run start got use =>
    have count : use.count ≤ 15 := by
      cases i with
      | mrd a n layout =>
        obtain ⟨width, _, eq⟩ := point
        cases eq
        simp only [RunUse.count, width]
        omega
      | racc | rgyr | mraw | mxyz => obtain ⟨_, eq⟩ := point; cases eq; simp [RunUse.count, imuBytes, magBytes]
      | _ => simp [waitsAt] at point
    simp only [furtherRequests]
    omega
  | fill a use => cases use <;> simp [furtherRequests]
  | byte | commit | store => simp [furtherRequests]

theorem endsWithin_useValue (i : Instr) (a v : Byte) (use : EntryUse) (s : State) :
    EndsWithin (furtherRequests (.fill a use)) (useValue i a v use s) := by
  cases use with
  | commit | put => exact .inr ⟨_, _, rfl, Nat.zero_lt_one⟩
  | stage | get => exact .inl rfl

/-- An answer uses up one of the requests that can follow: a run has one byte more, a fill leads to the WRITE at most,
and after every other answer, and after every failure, the command has ended. -/
theorem endsWithin_deliver (i : Instr) (w : Waiting) (a : Answer) (s : State) :
    EndsWithin (furtherRequests w) (deliver i w a s) := by
  cases a with
  | err e => exact .inl rfl
  | ok d =>
    rw [deliver_ok]
    cases w with
    | run start got use =>
      obtain ⟨more, eq⟩ | ⟨r, eq⟩ := continueRun_cases i start (got ++ [d]) use
        (s.log (.transaction (Waiting.request s.cfg.wiring.devAddr (.run start got use)) (.ok d)))
      · refine .inr ⟨_, _, congrArg State.seq eq, ?_⟩
        simp only [furtherRequests, List.length_append, List.length_singleton] at more ⊢
        omega
      · exact .inl (congrArg State.seq eq)
    | fill a use => exact endsWithin_useValue i a d use _
    | byte | commit | store => exact .inl rfl

/-- Answers enough end the command, whatever they are and whatever comes after them. -/
theorem drive_seq_of_endsWithin (as : List Answer) (rest : List Input) {s : State} (h : EndsWithin as.length s) :
    (drive (as.map .answer ++ rest) s).seq = .idle := by
  induction as generalizing s with
  | nil =>
    obtain idle | ⟨_, _, -, few⟩ := h
    · rw [drive_idle idle]; exact idle
    · exact absurd few (Nat.not_lt_zero _)
  | cons a as ih =>
    obtain idle | ⟨i, w, busy, few⟩ := h
    · rw [drive_idle idle]; exact idle
    · rw [List.map_cons, List.cons_append, drive_answer busy]
      exact ih ((endsWithin_deliver i w a s).mono (Nat.le_of_lt_succ few))

theorem endsWithin_bodyOf (i : Instr) (s : State) : EndsWithin 15 (bodyOf i s) := by
  obtain idle | ⟨w, busy, point, -⟩ := bodyOf_runs i s
  · exact .inl idle
  · exact .inr ⟨i, w, busy, furtherRequests_lt_of_waitsAt point⟩

/-- Settles O31: at most fourteen requests can follow a command's first one, and every answer uses up one of them. -/
theorem commandEndsIfTheTransportAnswers : Obligations.CommandEndsIfTheTransportAnswers := by
  intro i s as rest idle moves enough
  refine ⟨_, exec_idle idle i, ?_⟩
  rw [moves]
  exact drive_seq_of_endsWithin as rest ((endsWithin_bodyOf i s.beginCommand).mono enough)

end Sys2Proof.Proofs.ResetAndHazards
end
